-- ==== Sys2Proof/Word.lean ====
section
/-! DEFINITION. Word.lean: the word types of the block (spec/00_scope.md R8, R10).
The spec fixes XLEN = 32, so the widths are fixed here. -/

namespace Sys2Proof

/-- A register value, pc, address, instruction word or evaluator value (R8 XLEN, R10). -/
abbrev Word := BitVec 32

/-- One byte of memory (R40) or of an expression text (R220). -/
abbrev Byte := BitVec 8

/-- The 5-bit register field of an instruction word, naming x0 to x31 (R20, R61). -/
abbrev Reg := BitVec 5

end Sys2Proof
end

