-- ==== Sys2Proof/Config.lean ====
section
/-! DEFINITION. Config.lean: what an implementation fixes (spec/00_scope.md R8).
The parameters a step depends on are the plain record `Params`, which State carries unchanged
(log 8); the constants the spec fixes are definitions. The one FREE value, the answer of ECALL_HOST,
is the body-less `Sys2Proof.Config.ecallHost`, declared in Machine/EcallHost.lean because it is
applied to the machine's state. -/

namespace Sys2Proof.Config

/-- The implementation parameters of R8 that a step depends on. -/
structure Params where
  /-- MEM_BASE, the lowest address of memory (OPEN, D3). -/
  memBase : Word
  /-- MEM_SIZE, how many bytes memory holds (OPEN, D3). -/
  memSize : Nat
  /-- TRAP_WORD_6B: whether opcode 1101011 runs `nemu_trap` (D18). -/
  trapWord6B : Bool
  /-- Whether an ECALL_HOST is given (OPEN, D12). -/
  ecallHostGiven : Bool
deriving DecidableEq, Repr, Inhabited

/-- R8: 1 ≤ MEM_SIZE and MEM_BASE + MEM_SIZE ≤ 2^32. -/
def Params.wf (p : Params) : Bool :=
  decide (1 ≤ p.memSize) && decide (p.memBase.toNat + p.memSize ≤ 2 ^ 32)

/-- The defaults R8 suggests. DESIGN CHOICE (log 1, 5, 6): State.reset takes them. -/
def Params.suggested : Params :=
  { memBase := 0x80000000#32, memSize := 0x08000000, trapWord6B := false, ecallHostGiven := false }

/-- RESET_PC, the default R8 suggests. DESIGN CHOICE (log 2). -/
def resetPc : Word := 0x80100000#32

/-- RESET_GPR: R34 leaves x1..x31 unspecified. DESIGN CHOICE (log 3): zeros. -/
def resetGpr : Vector Word 31 := Vector.replicate 31 0#32

/-- What an address the memory list does not hold reads as. DESIGN CHOICE (log 4): R34 and A3
leave memory unspecified until the host loads it. -/
def unlistedByte : Byte := 0#8

/-- EXIT_REG, the register `nemu_trap` reports (R8, D10). -/
def exitReg : Reg := 10#5

/-- TOKEN_TEXT_MAX, the characters of literal text a token may hold (R8, R224). -/
def tokenTextMax : Nat := 31

end Sys2Proof.Config
end

