-- ==== Sys2Proof/Machine/State.lean ====
section
/-! DEFINITION. State.lean: the whole state of the block (spec/10_state.md section 1), as plain data,
and its value after creation (R34, R330). -/

namespace Sys2Proof.Machine

/-- The trap codes (R28). -/
inductive TrapCode where
  | illegal | memFault | misalignedPc | ecall
deriving DecidableEq, Repr, Inhabited

/-- The run status (R28). -/
inductive RunStatus where
  | running
  | halted
  | trapped (code : TrapCode)
deriving DecidableEq, Repr, Inhabited

/-- The access widths of the memory ports: 1, 2 and 4 bytes and no other (R44). -/
inductive Width where
  | byte | half | word
deriving DecidableEq, Repr

/-- Why a call of the model ends in a fault. NO INSTRUCTION AND NO STEP RAISES ONE: an engine memory
fault is the state TRAPPED(MEM_FAULT) (R303). -/
inductive Fault where
  /-- MemoryFault(OutOfRange) returned to the host by its own `read` or `write` call (R42, R43).
  Raised by Machine/Interface.lean. Safe: the spec's own failure result. -/
  | outOfRange (address : Word)
deriving DecidableEq, Repr

/-- Why a call of the model is refused. NO INSTRUCTION AND NO STEP IS REFUSED: an illegal word is the
state TRAPPED(ILLEGAL) (R302). -/
inductive Refusal where
  /-- An arm of `exec` with no meaning yet, by the table's mnemonic. No arm raises it. Safe. -/
  | notModelled (mnemonic : String)
  /-- The host's getRegister or setRegister with an index outside 0..31 (R22, D43, A14).
  Raised by Machine/Interface.lean. Safe: outside the interface's domain. -/
  | registerIndex (index : Nat)
  /-- The host's read or write with a width outside 1, 2, 4 (R44, D43, A15).
  Raised by Machine/Interface.lean. Safe: outside the interface's domain. -/
  | accessWidth (bytes : Nat)
  /-- The host's setPC with a value whose bits 1:0 are not 0 (R26, R105, A16).
  Raised by Machine/Interface.lean. Safe: a host duty. -/
  | misalignedSetPC (value : Word)
deriving DecidableEq, Repr

/-- The MemoryImage (R40), as the listed bytes: address and byte, addresses strictly rising, no byte
equal to what an unlisted address reads as (Ops.lean, `Memory.wf`). -/
abbrev Memory := List Host.Cell

/-- The state record of 10_state.md section 1 (R20 to R34), with the parameters a step depends on and
the model's own counter of ECALL_HOST answers. x0 is not stored (R21). -/
structure State where
  /-- The implementation parameters (R8). No step changes them (log 8). -/
  cfg : Config.Params
  /-- x1 to x31; x(k+1) stands at index k (R20, R21). -/
  gpr : Vector Word 31
  /-- The address of the instruction being executed (R25). -/
  pc : Word
  /-- The run status (R28). -/
  status : RunStatus
  /-- The exit code `nemu_trap` reports (R29). -/
  exitCode : Word
  /-- What caused the last TRAPPED status (R30). -/
  trapValue : Word
  /-- The memory image (R40). -/
  mem : Memory
  /-- The MODEL's own: how many answers ECALL_HOST has given (log 7). -/
  hostDraws : Nat
deriving DecidableEq, Repr

/-- Creation, the only reset (R34, R330), for any parameters, entry point, register draw and initial
memory (A2, A3, A5). -/
def State.create (cfg : Config.Params) (resetPc : Word) (resetGpr : Vector Word 31) (mem : Memory) : State :=
  { cfg := cfg, gpr := resetGpr, pc := resetPc, status := .running, exitCode := 0#32,
    trapValue := 0#32, mem := mem, hostDraws := 0 }

/-- The machine right after creation at the values the log names (log 1 to 4): R8's suggested
parameters, registers 0, memory with nothing listed. -/
def State.reset : State :=
  State.create Config.Params.suggested Config.resetPc Config.resetGpr []

end Sys2Proof.Machine
end

