-- ==== Sys2Proof/Machine/EcallHost.lean ====
section
/-! DEFINITION. EcallHost.lean: the free value of the model, the parameter ECALL_HOST
(spec/00_scope.md R8, spec/45_system.md R211). The collaborator an ECALL is handed to may produce any
next state; "a model takes it as a parameter and assumes no law of it" (log 6). -/

namespace Sys2Proof

/-- What the collaborator gives back: the next registers, pc, status, exit code and trap value, and the
bytes it stores. Any memory image is reached from any other by such stores. -/
structure Machine.EcallAnswer where
  gpr : Vector Word 31
  pc : Word
  status : Machine.RunStatus
  exitCode : Word
  trapValue : Word
  stores : List Host.Cell
deriving DecidableEq, Repr, Inhabited

/-- ECALL_HOST: the collaborator's answer to the state at an ECALL, drawn anew at every hand-over by the
count of earlier ones. It has no body, so nothing in the model can know a value of it. -/
opaque Config.ecallHost : Nat → Machine.State → Machine.EcallAnswer

end Sys2Proof
end

