-- ==== Sys2Proof/Machine/Ops.lean ====
section
/-! DEFINITION. Ops.lean: the primitives of spec/00_scope.md R11, "the only ways a rule touches state":
registers (R21, R22), memory (R40 to R47), the pc (R25, R103), `raise` (R308) and `halt` (R181).
There is no return from a trap (R310). -/

namespace Sys2Proof.Machine

/-! ### The memory list -/

/-- The canonical form: addresses strictly rising, no byte listed that an unlisted address reads as. -/
abbrev Memory.wf (m : Memory) : Prop :=
  m.Pairwise (fun c d => c.1 < d.1) ∧ ∀ c ∈ m, c.2 ≠ Config.unlistedByte

/-- Every listed address lies in [MEM_BASE, MEM_BASE + MEM_SIZE) (R40). -/
abbrev Memory.within (p : Config.Params) (m : Memory) : Prop :=
  ∀ c ∈ m, p.memBase.toNat ≤ c.1 ∧ c.1 < p.memBase.toNat + p.memSize

/-- One byte of memory (R40, R47). -/
def Memory.get : Memory → Nat → Byte
  | [], _ => Config.unlistedByte
  | (k, b) :: m, a => if a = k then b else Memory.get m a

/-- One byte stored, keeping the canonical form (R43, R47). -/
def Memory.set : Memory → Nat → Byte → Memory
  | [], a, v => if v = Config.unlistedByte then [] else [(a, v)]
  | (k, b) :: m, a, v =>
    if a < k then (if v = Config.unlistedByte then (k, b) :: m else (a, v) :: (k, b) :: m)
    else if a = k then (if v = Config.unlistedByte then m else (a, v) :: m)
    else (k, b) :: Memory.set m a v

/-- R42: the n bytes at a, a+1, ... assembled little-endian, zero-extended to a word. -/
def Memory.readBytes (m : Memory) (a : Nat) : Nat → Word
  | 0 => 0#32
  | n + 1 => (Memory.get m a).setWidth 32 ||| (Memory.readBytes m (a + 1) n <<< 8)

/-- R43: byte k of v stored at a + k, for k in 0..n-1. -/
def Memory.writeBytes (m : Memory) (a : Nat) (v : Word) : Nat → Memory
  | 0 => m
  | n + 1 => Memory.writeBytes (Memory.set m a (v.setWidth 8)) (a + 1) (v >>> 8) n

/-- The bytes of a width (R44). -/
def Width.bytes : Width → Nat
  | .byte => 1
  | .half => 2
  | .word => 4

/-- R41: every byte of the access lies in the region, the sums in unbounded integers. -/
def inRange (p : Config.Params) (a : Word) (n : Nat) : Bool :=
  decide (p.memBase.toNat ≤ a.toNat) && decide (a.toNat + n ≤ p.memBase.toNat + p.memSize)

/-- The read port (R42); none is MemoryFault(OutOfRange). -/
def State.memRead (s : State) (a : Word) (w : Width) : Option Word :=
  if inRange s.cfg a w.bytes then some (Memory.readBytes s.mem a.toNat w.bytes) else none

/-- The write port (R43); none is MemoryFault(OutOfRange), with no byte written. -/
def State.memWrite (s : State) (a : Word) (w : Width) (v : Word) : Option State :=
  if inRange s.cfg a w.bytes then some { s with mem := Memory.writeBytes s.mem a.toNat v w.bytes } else none

/-- One byte of memory as a claim reads it. -/
def State.byteAt (s : State) (a : Nat) : Byte := Memory.get s.mem a

/-! ### Registers and the pc -/

/-- x[i] read: 0 for x0 (R21, R22). -/
def State.getReg (s : State) (r : Reg) : Word :=
  if r = 0#5 then 0#32 else s.gpr[r.toNat - 1]'(by have := r.isLt; omega)

/-- x[i] written: nothing for x0 (R21, R22). -/
def State.setReg (s : State) (r : Reg) (v : Word) : State :=
  if r = 0#5 then s else { s with gpr := s.gpr.set (r.toNat - 1) v (by have := r.isLt; omega) }

/-- pc <- t (R25). -/
def State.jumpTo (s : State) (t : Word) : State := { s with pc := t }

/-- pc <- pc + 4, modulo 2^32 (R27, R103). -/
def State.advance (s : State) : State := s.jumpTo (s.pc + 4#32)

/-- Bits 1:0 are 0 (R26, R168). -/
def aligned4 (a : Word) : Bool := a.extractLsb' 0 2 == 0#2

/-! ### Taking a trap, halting, the hand-over of an ECALL -/

/-- `raise C(v)` (R308): status TRAPPED(C) and trap_value v, nothing else. -/
def State.raise (s : State) (c : TrapCode) (v : Word) : State :=
  { s with status := .trapped c, trapValue := v }

/-- `halt(code)` (R181): status HALTED and exit_code, nothing else. -/
def State.halt (s : State) (code : Word) : State :=
  { s with status := .halted, exitCode := code }

/-- The collaborator's stores, in order. An address outside the region is no byte of the machine
(R40), so nothing stands there to be stored to. -/
def Memory.storeAll (p : Config.Params) (m : Memory) : List Host.Cell → Memory
  | [] => m
  | (a, b) :: cs =>
    Memory.storeAll p
      (if p.memBase.toNat ≤ a ∧ a < p.memBase.toNat + p.memSize then Memory.set m a b else m) cs

/-- The state an answer of the collaborator makes of this one: every field it may decide, decided. -/
def State.applyAnswer (s : State) (answer : EcallAnswer) : State :=
  { cfg := s.cfg, gpr := answer.gpr, pc := answer.pc, status := answer.status,
    exitCode := answer.exitCode, trapValue := answer.trapValue,
    mem := Memory.storeAll s.cfg s.mem answer.stores, hostDraws := s.hostDraws + 1 }

/-- state <- any s' in ECALL_HOST(state) (R211): the collaborator's answer, whatever it is. -/
def State.handOver (s : State) : State := s.applyAnswer (Config.ecallHost s.hostDraws s)

/-! ### How a handler ends (R101, R103) -/

/-- (a) of R101 for one destination register: x[rd] <- v, pc <- pc + 4. -/
def State.completeReg (s : State) (rd : Reg) (v : Word) : Host.Outcome State Fault Refusal :=
  .next (s.setReg rd v).advance

/-- (b) of R101: the instruction traps. -/
def State.trap (s : State) (c : TrapCode) (v : Word) : Host.Outcome State Fault Refusal :=
  .next (s.raise c v)

/-- `transfer(t)` of R168 and the jump after it: a misaligned target traps and nothing is written; else
`s'`, the state with the instruction's link written, goes to t. -/
def State.transfer (s s' : State) (t : Word) : Host.Outcome State Fault Refusal :=
  if aligned4 t then .next (s'.jumpTo t) else s.trap .misalignedPc t

/-- The loads' shared form (R190, R199): read, extend, write rd, advance; trap MEM_FAULT(ea). -/
def State.load (s : State) (w : Width) (ea : Word) (extend : Word → Word) (rd : Reg) :
    Host.Outcome State Fault Refusal :=
  match s.memRead ea w with
  | none => s.trap .memFault ea
  | some v => s.completeReg rd (extend v)

/-- The stores' shared form (R190, R199): write, advance; trap MEM_FAULT(ea) with no byte written. -/
def State.store (s : State) (w : Width) (ea v : Word) : Host.Outcome State Fault Refusal :=
  match s.memWrite ea w v with
  | none => s.trap .memFault ea
  | some s' => .next s'.advance

end Sys2Proof.Machine
end

