-- ==== Sys2Proof/Machine/Operands.lean ====
section
/-! DEFINITION. Operands.lean: the operand forms of the spec: register, immediate, 5-bit shift amounts
(R69, R142), base plus displacement (R190), pc-relative and register-indirect targets (R160 to R167),
the link value, and the extensions a load handler applies (R42, R200). -/

namespace Sys2Proof.Machine

/-- Base plus displacement, modulo 2^32 (R190). -/
def State.effAddr (s : State) (rs1 : Reg) (imm : Word) : Word := s.getReg rs1 + imm

/-- pc-relative: PC_at_fetch + imm, modulo 2^32 (R25, R27). -/
def State.pcRel (s : State) (imm : Word) : Word := s.pc + imm

/-- The JALR target: (x[rs1] + imm) with bit 0 cleared (R161). -/
def State.jalrTarget (s : State) (rs1 : Reg) (imm : Word) : Word :=
  (s.getReg rs1 + imm) &&& 0xFFFFFFFE#32

/-- The link value PC_at_fetch + 4 (R25, R160, R161). -/
def State.link (s : State) : Word := s.pc + 4#32

/-- The amount of a register shift: x[rs2][4:0] (R69, R133). -/
def shiftAmount (v : Word) : BitVec 5 := v.extractLsb' 0 5

/-- Shift left, filling with zeros (R10). -/
def shiftLeft (v : Word) (n : BitVec 5) : Word := v <<< n.toNat

/-- Shift right, filling with zeros (R10, R142). -/
def shiftRightLogical (v : Word) (n : BitVec 5) : Word := v >>> n.toNat

/-- Shift right, filling with copies of bit 31 (R10, R142). -/
def shiftRightArith (v : Word) (n : BitVec 5) : Word := v.sshiftRight n.toNat

/-- sext_8(v[7:0]) (R191). -/
def signExtendByte (v : Word) : Word := (v.extractLsb' 0 8).signExtend 32

/-- sext_16(v[15:0]) (R192). -/
def signExtendHalf (v : Word) : Word := (v.extractLsb' 0 16).signExtend 32

/-- zext_8(v[7:0]) (R194). -/
def zeroExtendByte (v : Word) : Word := (v.extractLsb' 0 8).setWidth 32

/-- zext_16(v[15:0]) (R195). -/
def zeroExtendHalf (v : Word) : Word := (v.extractLsb' 0 16).setWidth 32

/-- A full word needs no extension (R200). -/
def wholeWord (v : Word) : Word := v

end Sys2Proof.Machine
end

