-- ==== Sys2Proof/Machine/Flags.lean ====
section
/-! DEFINITION. Flags.lean: the block has NO flags and no condition codes (spec/10_state.md R32, R141).
What stands in their place is a comparison, written to a register as 0 or 1 (`bool`, R10) or deciding a
branch (R162 to R167). -/

namespace Sys2Proof.Machine

/-- bool(c): 1 when c holds, 0 otherwise, as a word (R10). -/
def boolWord (c : Bool) : Word := if c then 1#32 else 0#32

/-- s(a) < s(b) (R10, R142). -/
def lessSigned (a b : Word) : Bool := a.slt b

/-- u(a) < u(b) (R10, R142). -/
def lessUnsigned (a b : Word) : Bool := a.ult b

/-- a = b (R162). -/
def equalWords (a b : Word) : Bool := a == b

end Sys2Proof.Machine
end

