-- ==== Sys2Proof/Machine/Compute.lean ====
section
/-! DEFINITION. Compute.lean: the handlers `lui`, `auipc`, `imm` and `reg` (spec/41_compute.md). None
raises an exception (R141); each writes x[rd] and pc <- pc + 4. -/

namespace Sys2Proof.Machine

/-- LUI (R120). -/
def execLui (rd : Reg) (imm : Word) (s : State) : Host.Outcome State Fault Refusal :=
  s.completeReg rd imm

/-- AUIPC (R121): pc is PC_at_fetch. -/
def execAuipc (rd : Reg) (imm : Word) (s : State) : Host.Outcome State Fault Refusal :=
  s.completeReg rd (s.pcRel imm)

/-- ADDI (R122). -/
def execAddi (rd rs1 : Reg) (imm : Word) (s : State) : Host.Outcome State Fault Refusal :=
  s.completeReg rd (s.getReg rs1 + imm)

/-- SLTI (R123). -/
def execSlti (rd rs1 : Reg) (imm : Word) (s : State) : Host.Outcome State Fault Refusal :=
  s.completeReg rd (boolWord (lessSigned (s.getReg rs1) imm))

/-- SLTIU (R124): the sign-extended immediate, compared unsigned. -/
def execSltiu (rd rs1 : Reg) (imm : Word) (s : State) : Host.Outcome State Fault Refusal :=
  s.completeReg rd (boolWord (lessUnsigned (s.getReg rs1) imm))

/-- XORI (R125). -/
def execXori (rd rs1 : Reg) (imm : Word) (s : State) : Host.Outcome State Fault Refusal :=
  s.completeReg rd (s.getReg rs1 ^^^ imm)

/-- ORI (R126). -/
def execOri (rd rs1 : Reg) (imm : Word) (s : State) : Host.Outcome State Fault Refusal :=
  s.completeReg rd (s.getReg rs1 ||| imm)

/-- ANDI (R127). -/
def execAndi (rd rs1 : Reg) (imm : Word) (s : State) : Host.Outcome State Fault Refusal :=
  s.completeReg rd (s.getReg rs1 &&& imm)

/-- SLLI (R128). -/
def execSlli (rd rs1 : Reg) (shamt : BitVec 5) (s : State) : Host.Outcome State Fault Refusal :=
  s.completeReg rd (shiftLeft (s.getReg rs1) shamt)

/-- SRLI (R129). -/
def execSrli (rd rs1 : Reg) (shamt : BitVec 5) (s : State) : Host.Outcome State Fault Refusal :=
  s.completeReg rd (shiftRightLogical (s.getReg rs1) shamt)

/-- SRAI (R130). -/
def execSrai (rd rs1 : Reg) (shamt : BitVec 5) (s : State) : Host.Outcome State Fault Refusal :=
  s.completeReg rd (shiftRightArith (s.getReg rs1) shamt)

/-- ADD (R131). -/
def execAdd (rd rs1 rs2 : Reg) (s : State) : Host.Outcome State Fault Refusal :=
  s.completeReg rd (s.getReg rs1 + s.getReg rs2)

/-- SUB (R132). -/
def execSub (rd rs1 rs2 : Reg) (s : State) : Host.Outcome State Fault Refusal :=
  s.completeReg rd (s.getReg rs1 - s.getReg rs2)

/-- SLL (R133). -/
def execSll (rd rs1 rs2 : Reg) (s : State) : Host.Outcome State Fault Refusal :=
  s.completeReg rd (shiftLeft (s.getReg rs1) (shiftAmount (s.getReg rs2)))

/-- SLT (R134). -/
def execSlt (rd rs1 rs2 : Reg) (s : State) : Host.Outcome State Fault Refusal :=
  s.completeReg rd (boolWord (lessSigned (s.getReg rs1) (s.getReg rs2)))

/-- SLTU (R135). -/
def execSltu (rd rs1 rs2 : Reg) (s : State) : Host.Outcome State Fault Refusal :=
  s.completeReg rd (boolWord (lessUnsigned (s.getReg rs1) (s.getReg rs2)))

/-- XOR (R136). -/
def execXor (rd rs1 rs2 : Reg) (s : State) : Host.Outcome State Fault Refusal :=
  s.completeReg rd (s.getReg rs1 ^^^ s.getReg rs2)

/-- SRL (R137). -/
def execSrl (rd rs1 rs2 : Reg) (s : State) : Host.Outcome State Fault Refusal :=
  s.completeReg rd (shiftRightLogical (s.getReg rs1) (shiftAmount (s.getReg rs2)))

/-- SRA (R138). -/
def execSra (rd rs1 rs2 : Reg) (s : State) : Host.Outcome State Fault Refusal :=
  s.completeReg rd (shiftRightArith (s.getReg rs1) (shiftAmount (s.getReg rs2)))

/-- OR (R139). -/
def execOr (rd rs1 rs2 : Reg) (s : State) : Host.Outcome State Fault Refusal :=
  s.completeReg rd (s.getReg rs1 ||| s.getReg rs2)

/-- AND (R140). -/
def execAnd (rd rs1 rs2 : Reg) (s : State) : Host.Outcome State Fault Refusal :=
  s.completeReg rd (s.getReg rs1 &&& s.getReg rs2)

end Sys2Proof.Machine
end

