-- ==== Sys2Proof/Machine/Control.lean ====
section
/-! DEFINITION. Control.lean: the handlers `jal`, `jalr` and `branch` (spec/42_control.md). A taken
transfer to a target whose bits 1:0 are not 0 traps and writes no link (R168); the target and the
operands are read before the link is written (R108). -/

namespace Sys2Proof.Machine

/-- The branches' shared form: the target is checked only when the branch is taken (R162 to R168). -/
def State.branch (s : State) (taken : Bool) (imm : Word) : Host.Outcome State Fault Refusal :=
  if taken then s.transfer s (s.pcRel imm) else .next s.advance

/-- JAL (R160). -/
def execJal (rd : Reg) (imm : Word) (s : State) : Host.Outcome State Fault Refusal :=
  s.transfer (s.setReg rd s.link) (s.pcRel imm)

/-- JALR (R161). -/
def execJalr (rd rs1 : Reg) (imm : Word) (s : State) : Host.Outcome State Fault Refusal :=
  s.transfer (s.setReg rd s.link) (s.jalrTarget rs1 imm)

/-- BEQ (R162). -/
def execBeq (rs1 rs2 : Reg) (imm : Word) (s : State) : Host.Outcome State Fault Refusal :=
  s.branch (equalWords (s.getReg rs1) (s.getReg rs2)) imm

/-- BNE (R163). -/
def execBne (rs1 rs2 : Reg) (imm : Word) (s : State) : Host.Outcome State Fault Refusal :=
  s.branch (!equalWords (s.getReg rs1) (s.getReg rs2)) imm

/-- BLT (R164). -/
def execBlt (rs1 rs2 : Reg) (imm : Word) (s : State) : Host.Outcome State Fault Refusal :=
  s.branch (lessSigned (s.getReg rs1) (s.getReg rs2)) imm

/-- BGE (R165). -/
def execBge (rs1 rs2 : Reg) (imm : Word) (s : State) : Host.Outcome State Fault Refusal :=
  s.branch (!lessSigned (s.getReg rs1) (s.getReg rs2)) imm

/-- BLTU (R166). -/
def execBltu (rs1 rs2 : Reg) (imm : Word) (s : State) : Host.Outcome State Fault Refusal :=
  s.branch (lessUnsigned (s.getReg rs1) (s.getReg rs2)) imm

/-- BGEU (R167). -/
def execBgeu (rs1 rs2 : Reg) (imm : Word) (s : State) : Host.Outcome State Fault Refusal :=
  s.branch (!lessUnsigned (s.getReg rs1) (s.getReg rs2)) imm

end Sys2Proof.Machine
end

