-- ==== Sys2Proof/Machine/LoadStore.lean ====
section
/-! DEFINITION. LoadStore.lean: the handlers `ld`, `lh`, `lb` and `st` (spec/44_load_store.md). Any
alignment is allowed (R46, R199); an access out of range traps MEM_FAULT(ea) and changes nothing else;
a load to x0 still reads (R201). -/

namespace Sys2Proof.Machine

/-- LB (R191). -/
def execLb (rd rs1 : Reg) (imm : Word) (s : State) : Host.Outcome State Fault Refusal :=
  s.load .byte (s.effAddr rs1 imm) signExtendByte rd

/-- LH (R192). -/
def execLh (rd rs1 : Reg) (imm : Word) (s : State) : Host.Outcome State Fault Refusal :=
  s.load .half (s.effAddr rs1 imm) signExtendHalf rd

/-- LW (R193). -/
def execLw (rd rs1 : Reg) (imm : Word) (s : State) : Host.Outcome State Fault Refusal :=
  s.load .word (s.effAddr rs1 imm) wholeWord rd

/-- LBU (R194). -/
def execLbu (rd rs1 : Reg) (imm : Word) (s : State) : Host.Outcome State Fault Refusal :=
  s.load .byte (s.effAddr rs1 imm) zeroExtendByte rd

/-- LHU (R195). -/
def execLhu (rd rs1 : Reg) (imm : Word) (s : State) : Host.Outcome State Fault Refusal :=
  s.load .half (s.effAddr rs1 imm) zeroExtendHalf rd

/-- SB (R196). -/
def execSb (rs1 rs2 : Reg) (imm : Word) (s : State) : Host.Outcome State Fault Refusal :=
  s.store .byte (s.effAddr rs1 imm) (s.getReg rs2)

/-- SH (R197). -/
def execSh (rs1 rs2 : Reg) (imm : Word) (s : State) : Host.Outcome State Fault Refusal :=
  s.store .half (s.effAddr rs1 imm) (s.getReg rs2)

/-- SW (R198). -/
def execSw (rs1 rs2 : Reg) (imm : Word) (s : State) : Host.Outcome State Fault Refusal :=
  s.store .word (s.effAddr rs1 imm) (s.getReg rs2)

end Sys2Proof.Machine
end

