-- ==== Sys2Proof/Machine/System.lean ====
section
/-! DEFINITION. System.lean: the handlers `sys`, `nemu_trap` and `inv` (spec/45_system.md,
spec/43_inv_trap.md) and the fetch fault (spec/20_memory.md R48). None advances the pc (R103, R308). -/

namespace Sys2Proof.Machine

/-- The `nemu_trap` handler: halt(x[EXIT_REG]) (R181). -/
def State.nemuTrap (s : State) : Host.Outcome State Fault Refusal :=
  .next (s.halt (s.getReg Config.exitReg))

/-- ECALL (R211): the collaborator's next state where ECALL_HOST is given, else raise ECALL(0). -/
def execEcall (s : State) : Host.Outcome State Fault Refusal :=
  if s.cfg.ecallHostGiven then .next s.handOver else s.trap .ecall 0#32

/-- EBREAK (R212): maps to `nemu_trap`. -/
def execEbreak (s : State) : Host.Outcome State Fault Refusal := s.nemuTrap

/-- The opcode-1101011 word (R78, R181). -/
def execNemuTrap (s : State) : Host.Outcome State Fault Refusal := s.nemuTrap

/-- The `inv` handler: raise ILLEGAL(w) (R180, R302). -/
def execInv (w : Word) (s : State) : Host.Outcome State Fault Refusal := s.trap .illegal w

/-- A fetch out of range: raise MEM_FAULT(pc) (R48, R303). -/
def fetchFault (s : State) : Host.Outcome State Fault Refusal := s.trap .memFault s.pc

end Sys2Proof.Machine
end

