-- ==== Sys2Proof/WellFormed.lean ====
section
/-! DEFINITION. WellFormed.lean: the instructions an encoding exists for. The spec calls such an
instruction "legally constructed" (spec/30_encoding.md R72): its immediate is one the format can
hold (R64 to R68). Register numbers, shift amounts and raw fields are exact by their types. -/

namespace Sys2Proof

/-- I- and S-immediates are sign-extended 12-bit values (R64, R65). -/
def fitsImm12 (imm : Word) : Bool := (imm.extractLsb' 0 12).signExtend 32 == imm

/-- B-immediates are sign-extended even 13-bit values, -4096 to +4094 (R66). -/
def fitsImmB (imm : Word) : Bool :=
  (imm.extractLsb' 0 13).signExtend 32 == imm && imm.extractLsb' 0 1 == 0#1

/-- U-immediates have zeros in bits 11:0 (R67). -/
def fitsImmU (imm : Word) : Bool := imm.extractLsb' 0 12 == 0#12

/-- J-immediates are sign-extended even 21-bit values, -1 MiB to +1 MiB - 2 (R68). -/
def fitsImmJ (imm : Word) : Bool :=
  (imm.extractLsb' 0 21).signExtend 32 == imm && imm.extractLsb' 0 1 == 0#1

/-- "Legally constructed" (R72): the immediate is one the instruction's format holds (log 17). -/
def Instr.wf : Instr → Bool
  | .lui _ imm => fitsImmU imm
  | .auipc _ imm => fitsImmU imm
  | .addi _ _ imm => fitsImm12 imm
  | .slti _ _ imm => fitsImm12 imm
  | .sltiu _ _ imm => fitsImm12 imm
  | .xori _ _ imm => fitsImm12 imm
  | .ori _ _ imm => fitsImm12 imm
  | .andi _ _ imm => fitsImm12 imm
  | .slli _ _ _ => true
  | .srli _ _ _ => true
  | .srai _ _ _ => true
  | .add _ _ _ => true
  | .sub _ _ _ => true
  | .sll _ _ _ => true
  | .slt _ _ _ => true
  | .sltu _ _ _ => true
  | .xor _ _ _ => true
  | .srl _ _ _ => true
  | .sra _ _ _ => true
  | .or _ _ _ => true
  | .and _ _ _ => true
  | .jal _ imm => fitsImmJ imm
  | .jalr _ _ imm => fitsImm12 imm
  | .beq _ _ imm => fitsImmB imm
  | .bne _ _ imm => fitsImmB imm
  | .blt _ _ imm => fitsImmB imm
  | .bge _ _ imm => fitsImmB imm
  | .bltu _ _ imm => fitsImmB imm
  | .bgeu _ _ imm => fitsImmB imm
  | .lb _ _ imm => fitsImm12 imm
  | .lh _ _ imm => fitsImm12 imm
  | .lw _ _ imm => fitsImm12 imm
  | .lbu _ _ imm => fitsImm12 imm
  | .lhu _ _ imm => fitsImm12 imm
  | .sb _ _ imm => fitsImm12 imm
  | .sh _ _ imm => fitsImm12 imm
  | .sw _ _ imm => fitsImm12 imm
  | .ecall => true
  | .ebreak => true
  | .nemuTrap _ _ _ _ _ => true

end Sys2Proof
end

