-- ==== Sys2Proof/Decode.lean ====
section
/-! DEFINITION. Decode.lean: the decoder, the dispatch table and the encoder of spec/30_encoding.md.
Two layers, as the spec has them: `decodeFields` reads the raw fields and the immediate of a word
(R61 to R70), and the dispatch table maps the fields to one handler and one instruction (R73, R74).
`decode` is the two in sequence, total on every word, rejecting by name. The encoder follows. -/

namespace Sys2Proof

/-! ### Fields (R61) and formats (R62, R63) -/

/-- The format tag of a decoded word (R62). -/
inductive Format where
  | R | I | S | B | U | J
deriving DecidableEq, Repr

def opcodeOf (w : Word) : BitVec 7 := w.extractLsb' 0 7
def rdOf (w : Word) : Reg := w.extractLsb' 7 5
def funct3Of (w : Word) : BitVec 3 := w.extractLsb' 12 3
def rs1Of (w : Word) : Reg := w.extractLsb' 15 5
def rs2Of (w : Word) : Reg := w.extractLsb' 20 5
def funct7Of (w : Word) : BitVec 7 := w.extractLsb' 25 7

def opLui : BitVec 7 := 0b0110111#7
def opAuipc : BitVec 7 := 0b0010111#7
def opJal : BitVec 7 := 0b1101111#7
def opJalr : BitVec 7 := 0b1100111#7
def opBranch : BitVec 7 := 0b1100011#7
def opLoad : BitVec 7 := 0b0000011#7
def opStore : BitVec 7 := 0b0100011#7
def opImm : BitVec 7 := 0b0010011#7
def opReg : BitVec 7 := 0b0110011#7
def opSystem : BitVec 7 := 0b1110011#7
/-- 0x6B, a format only when TRAP_WORD_6B is true (R63, R78). -/
def opTrapWord : BitVec 7 := 0b1101011#7

/-- R63: the format tag, by the opcode alone; none for an opcode outside the table. -/
def formatOf (trapWord6B : Bool) (opcode : BitVec 7) : Option Format :=
  if opcode = opLui then some .U
  else if opcode = opAuipc then some .U
  else if opcode = opJal then some .J
  else if opcode = opJalr then some .I
  else if opcode = opBranch then some .B
  else if opcode = opLoad then some .I
  else if opcode = opStore then some .S
  else if opcode = opImm then some .I
  else if opcode = opReg then some .R
  else if opcode = opSystem then some .I
  else if opcode = opTrapWord then (if trapWord6B then some .R else none)
  else none

/-! ### Immediates (R64 to R68) -/

/-- R64: imm_I = sext_12(inst[31:20]). -/
def immI (w : Word) : Word := (w.extractLsb' 20 12).signExtend 32

/-- R65: imm_S = sext_12 of inst[31:25], inst[11:7]. -/
def immS (w : Word) : Word := (w.extractLsb' 25 7 ++ w.extractLsb' 7 5).signExtend 32

/-- R66: imm_B = sext_13 of inst[31], inst[7], inst[30:25], inst[11:8], 0. -/
def immB (w : Word) : Word :=
  (w.extractLsb' 31 1 ++ w.extractLsb' 7 1 ++ w.extractLsb' 25 6 ++ w.extractLsb' 8 4 ++ 0#1).signExtend 32

/-- R67: imm_U has inst[31:12] in bits 31:12 and zeros in bits 11:0 (C1). -/
def immU (w : Word) : Word := w.extractLsb' 12 20 ++ 0#12

/-- R68: imm_J = sext_21 of inst[31], inst[19:12], inst[20], inst[30:21], 0. -/
def immJ (w : Word) : Word :=
  (w.extractLsb' 31 1 ++ w.extractLsb' 12 8 ++ w.extractLsb' 20 1 ++ w.extractLsb' 21 10 ++ 0#1).signExtend 32

/-- The immediate of a format; an R-format word has none and gets 0 (R70). -/
def immOf (fmt : Format) (w : Word) : Word :=
  match fmt with
  | .R => 0#32
  | .I => immI w
  | .S => immS w
  | .B => immB w
  | .U => immU w
  | .J => immJ w

/-! ### The decoded view of a word (R70) -/

/-- R70's Instruction record: every raw field, whatever the format, and the format's immediate. -/
structure Fields where
  fmt : Format
  opcode : BitVec 7
  rd : Reg
  rs1 : Reg
  rs2 : Reg
  funct3 : BitVec 3
  funct7 : BitVec 7
  imm : Word
deriving DecidableEq, Repr

/-- Why the decoder gives no instruction. A step answers the first two alike, with `inv` (R74). -/
inductive DecodeError where
  /-- DecodeError(IllegalInstruction) of R70: the opcode has no format. -/
  | illegalInstruction (w : Word)
  /-- The word has a format but matches no dispatch entry (R74). -/
  | noDispatchEntry (w : Word)
  /-- Fewer than the four bytes of a word (R60) were given; no fetch does that (log 12). -/
  | shortInput (bytes : Nat)
deriving DecidableEq, Repr

/-- R70: extract every raw field, select the format by the opcode and the immediate by the format. -/
def decodeFields (trapWord6B : Bool) (w : Word) : Except DecodeError Fields :=
  match formatOf trapWord6B (opcodeOf w) with
  | none => .error (.illegalInstruction w)
  | some fmt =>
    .ok { fmt := fmt, opcode := opcodeOf w, rd := rdOf w, rs1 := rs1Of w, rs2 := rs2Of w,
          funct3 := funct3Of w, funct7 := funct7Of w, imm := immOf fmt w }

/-- R72: encode(i) = funct7, rs2, rs1, funct3, rd, opcode, most significant first. -/
def encodeFields (f : Fields) : Word :=
  f.funct7 ++ f.rs2 ++ f.rs1 ++ f.funct3 ++ f.rd ++ f.opcode

/-- R72: a fields record is legally constructed when its format is the opcode's and its immediate is
the one the decoder computes from its encoding. -/
def Fields.legal (trapWord6B : Bool) (f : Fields) : Bool :=
  formatOf trapWord6B f.opcode == some f.fmt && immOf f.fmt (encodeFields f) == f.imm

/-! ### The dispatch table (R73) -/

/-- The execution handlers of R2; `inv` is what no entry matches (R74). -/
inductive Handler where
  | lui | auipc | imm | reg | jal | jalr | branch | lb | lh | ld | st | sys | nemuTrap
deriving DecidableEq, Repr

/-- One row of R73: the predicate (a dash of the table is none), the handler, and the instruction the
handler runs on the matching fields. -/
structure DispatchEntry where
  handler : Handler
  fmt : Format
  opcode : BitVec 7
  funct3 : Option (BitVec 3)
  funct7 : Option (BitVec 7)
  select : Fields → Option Instr

/-- Whether a required value of a row, if it has one, is the field's. -/
def agrees {n : Nat} : Option (BitVec n) → BitVec n → Bool
  | none, _ => true
  | some a, b => a == b

/-- The "(format, opcode, funct3, funct7) predicate" of a row. -/
def DispatchEntry.matches (e : DispatchEntry) (f : Fields) : Bool :=
  e.fmt == f.fmt && e.opcode == f.opcode && agrees e.funct3 f.funct3 && agrees e.funct7 f.funct7

/-- R210: `sys` tells ECALL and EBREAK by the immediate, only if rd = 0 and rs1 = 0 as well. -/
def selectSys (f : Fields) : Option Instr :=
  if f.rd = 0#5 ∧ f.rs1 = 0#5 ∧ f.imm = 0#32 then some .ecall
  else if f.rd = 0#5 ∧ f.rs1 = 0#5 ∧ f.imm = 1#32 then some .ebreak
  else none

def tableUpper : List DispatchEntry :=
  [ ⟨.lui, .U, opLui, none, none, fun f => some (.lui f.rd f.imm)⟩,
    ⟨.auipc, .U, opAuipc, none, none, fun f => some (.auipc f.rd f.imm)⟩ ]

def tableImm : List DispatchEntry :=
  [ ⟨.imm, .I, opImm, some 0b000#3, none, fun f => some (.addi f.rd f.rs1 f.imm)⟩,
    ⟨.imm, .I, opImm, some 0b010#3, none, fun f => some (.slti f.rd f.rs1 f.imm)⟩,
    ⟨.imm, .I, opImm, some 0b011#3, none, fun f => some (.sltiu f.rd f.rs1 f.imm)⟩,
    ⟨.imm, .I, opImm, some 0b100#3, none, fun f => some (.xori f.rd f.rs1 f.imm)⟩,
    ⟨.imm, .I, opImm, some 0b110#3, none, fun f => some (.ori f.rd f.rs1 f.imm)⟩,
    ⟨.imm, .I, opImm, some 0b111#3, none, fun f => some (.andi f.rd f.rs1 f.imm)⟩,
    ⟨.imm, .I, opImm, some 0b001#3, some 0b0000000#7, fun f => some (.slli f.rd f.rs1 (f.imm.extractLsb' 0 5))⟩,
    ⟨.imm, .I, opImm, some 0b101#3, some 0b0000000#7, fun f => some (.srli f.rd f.rs1 (f.imm.extractLsb' 0 5))⟩,
    ⟨.imm, .I, opImm, some 0b101#3, some 0b0100000#7, fun f => some (.srai f.rd f.rs1 (f.imm.extractLsb' 0 5))⟩ ]

def tableReg : List DispatchEntry :=
  [ ⟨.reg, .R, opReg, some 0b000#3, some 0b0000000#7, fun f => some (.add f.rd f.rs1 f.rs2)⟩,
    ⟨.reg, .R, opReg, some 0b000#3, some 0b0100000#7, fun f => some (.sub f.rd f.rs1 f.rs2)⟩,
    ⟨.reg, .R, opReg, some 0b001#3, some 0b0000000#7, fun f => some (.sll f.rd f.rs1 f.rs2)⟩,
    ⟨.reg, .R, opReg, some 0b010#3, some 0b0000000#7, fun f => some (.slt f.rd f.rs1 f.rs2)⟩,
    ⟨.reg, .R, opReg, some 0b011#3, some 0b0000000#7, fun f => some (.sltu f.rd f.rs1 f.rs2)⟩,
    ⟨.reg, .R, opReg, some 0b100#3, some 0b0000000#7, fun f => some (.xor f.rd f.rs1 f.rs2)⟩,
    ⟨.reg, .R, opReg, some 0b101#3, some 0b0000000#7, fun f => some (.srl f.rd f.rs1 f.rs2)⟩,
    ⟨.reg, .R, opReg, some 0b101#3, some 0b0100000#7, fun f => some (.sra f.rd f.rs1 f.rs2)⟩,
    ⟨.reg, .R, opReg, some 0b110#3, some 0b0000000#7, fun f => some (.or f.rd f.rs1 f.rs2)⟩,
    ⟨.reg, .R, opReg, some 0b111#3, some 0b0000000#7, fun f => some (.and f.rd f.rs1 f.rs2)⟩ ]

def tableControl : List DispatchEntry :=
  [ ⟨.jal, .J, opJal, none, none, fun f => some (.jal f.rd f.imm)⟩,
    ⟨.jalr, .I, opJalr, some 0b000#3, none, fun f => some (.jalr f.rd f.rs1 f.imm)⟩,
    ⟨.branch, .B, opBranch, some 0b000#3, none, fun f => some (.beq f.rs1 f.rs2 f.imm)⟩,
    ⟨.branch, .B, opBranch, some 0b001#3, none, fun f => some (.bne f.rs1 f.rs2 f.imm)⟩,
    ⟨.branch, .B, opBranch, some 0b100#3, none, fun f => some (.blt f.rs1 f.rs2 f.imm)⟩,
    ⟨.branch, .B, opBranch, some 0b101#3, none, fun f => some (.bge f.rs1 f.rs2 f.imm)⟩,
    ⟨.branch, .B, opBranch, some 0b110#3, none, fun f => some (.bltu f.rs1 f.rs2 f.imm)⟩,
    ⟨.branch, .B, opBranch, some 0b111#3, none, fun f => some (.bgeu f.rs1 f.rs2 f.imm)⟩ ]

def tableLoadStore : List DispatchEntry :=
  [ ⟨.lb, .I, opLoad, some 0b000#3, none, fun f => some (.lb f.rd f.rs1 f.imm)⟩,
    ⟨.lh, .I, opLoad, some 0b001#3, none, fun f => some (.lh f.rd f.rs1 f.imm)⟩,
    ⟨.ld, .I, opLoad, some 0b010#3, none, fun f => some (.lw f.rd f.rs1 f.imm)⟩,
    ⟨.ld, .I, opLoad, some 0b100#3, none, fun f => some (.lbu f.rd f.rs1 f.imm)⟩,
    ⟨.ld, .I, opLoad, some 0b101#3, none, fun f => some (.lhu f.rd f.rs1 f.imm)⟩,
    ⟨.st, .S, opStore, some 0b000#3, none, fun f => some (.sb f.rs1 f.rs2 f.imm)⟩,
    ⟨.st, .S, opStore, some 0b001#3, none, fun f => some (.sh f.rs1 f.rs2 f.imm)⟩,
    ⟨.st, .S, opStore, some 0b010#3, none, fun f => some (.sw f.rs1 f.rs2 f.imm)⟩ ]

def tableSystem : List DispatchEntry :=
  [ ⟨.sys, .I, opSystem, some 0b000#3, some 0b0000000#7, selectSys⟩,
    ⟨.nemuTrap, .R, opTrapWord, none, none, fun f => some (.nemuTrap f.funct7 f.rs2 f.rs1 f.funct3 f.rd)⟩ ]

/-- R73's table. Its last row is reached only when TRAP_WORD_6B gave the word a format. -/
def dispatchTable : List DispatchEntry :=
  tableUpper ++ tableImm ++ tableReg ++ tableControl ++ tableLoadStore ++ tableSystem

/-- The entry whose predicate the fields meet; none is the way to `inv` (R74). -/
def lookup (f : Fields) : Option DispatchEntry := dispatchTable.find? (·.matches f)

/-- The instruction a word stands for (R70, R73, R74, R210), total on every word. -/
def decode (trapWord6B : Bool) (w : Word) : Except DecodeError Instr :=
  match decodeFields trapWord6B w with
  | .error e => .error e
  | .ok f =>
    match (lookup f).bind (·.select f) with
    | none => .error (.noDispatchEntry w)
    | some i => .ok i

/-! ### Bytes (R45, R48, R60) -/

/-- A word from its bytes, the byte at the lowest address first (little-endian). -/
def wordOfBytes (b0 b1 b2 b3 : Byte) : Word := b3 ++ b2 ++ b1 ++ b0

/-- A word's bytes, lowest address first. -/
def bytesOfWord (w : Word) : List Byte :=
  [w.extractLsb' 0 8, w.extractLsb' 8 8, w.extractLsb' 16 8, w.extractLsb' 24 8]

/-- The instruction at the head of a list of bytes and the bytes after it, total on any bytes.
Every instruction is four bytes long (R60). -/
def decodeBytes (trapWord6B : Bool) : List Byte → Except DecodeError (Instr × List Byte)
  | b0 :: b1 :: b2 :: b3 :: rest =>
    match decode trapWord6B (wordOfBytes b0 b1 b2 b3) with
    | .error e => .error e
    | .ok i => .ok (i, rest)
  | short => .error (.shortInput short.length)

/-- The instruction the decoder reads from a word of spec/opcode_table.json, given as nbits bits with
bit 0 the least significant. The table lists the NEMU_TRAP row under its condition, so the word is
read with TRAP_WORD_6B true (log 5). -/
def decodeTableWord (nbits w : Nat) : Option Instr :=
  match decodeBytes true (bytesOfWord (BitVec.ofNat 32 (w % 2 ^ nbits))) with
  | .ok (i, _) => some i
  | .error _ => none

/-! ### The encoder (R62, R72) -/

def fieldsR (opcode : BitVec 7) (funct3 : BitVec 3) (funct7 : BitVec 7) (rd rs1 rs2 : Reg) : Fields :=
  ⟨.R, opcode, rd, rs1, rs2, funct3, funct7, 0#32⟩

def fieldsI (opcode : BitVec 7) (funct3 : BitVec 3) (rd rs1 : Reg) (imm : Word) : Fields :=
  ⟨.I, opcode, rd, rs1, imm.extractLsb' 0 5, funct3, imm.extractLsb' 5 7, imm⟩

/-- The shift-immediate form of the I-format: funct7 above the shift amount (R69). -/
def fieldsShift (funct3 : BitVec 3) (funct7 : BitVec 7) (rd rs1 : Reg) (shamt : BitVec 5) : Fields :=
  fieldsI opImm funct3 rd rs1 ((funct7 ++ shamt).signExtend 32)

def fieldsS (funct3 : BitVec 3) (rs1 rs2 : Reg) (imm : Word) : Fields :=
  ⟨.S, opStore, imm.extractLsb' 0 5, rs1, rs2, funct3, imm.extractLsb' 5 7, imm⟩

def fieldsB (funct3 : BitVec 3) (rs1 rs2 : Reg) (imm : Word) : Fields :=
  ⟨.B, opBranch, imm.extractLsb' 1 4 ++ imm.extractLsb' 11 1, rs1, rs2, funct3,
    imm.extractLsb' 12 1 ++ imm.extractLsb' 5 6, imm⟩

def fieldsU (opcode : BitVec 7) (rd : Reg) (imm : Word) : Fields :=
  ⟨.U, opcode, rd, imm.extractLsb' 15 5, imm.extractLsb' 20 5, imm.extractLsb' 12 3,
    imm.extractLsb' 25 7, imm⟩

def fieldsJ (rd : Reg) (imm : Word) : Fields :=
  ⟨.J, opJal, rd, imm.extractLsb' 15 5, imm.extractLsb' 1 4 ++ imm.extractLsb' 11 1,
    imm.extractLsb' 12 3, imm.extractLsb' 20 1 ++ imm.extractLsb' 5 6, imm⟩

/-- The fields R62's layout and R73's values give an instruction. -/
def Instr.fields : Instr → Fields
  | .lui rd imm => fieldsU opLui rd imm
  | .auipc rd imm => fieldsU opAuipc rd imm
  | .addi rd rs1 imm => fieldsI opImm 0b000#3 rd rs1 imm
  | .slti rd rs1 imm => fieldsI opImm 0b010#3 rd rs1 imm
  | .sltiu rd rs1 imm => fieldsI opImm 0b011#3 rd rs1 imm
  | .xori rd rs1 imm => fieldsI opImm 0b100#3 rd rs1 imm
  | .ori rd rs1 imm => fieldsI opImm 0b110#3 rd rs1 imm
  | .andi rd rs1 imm => fieldsI opImm 0b111#3 rd rs1 imm
  | .slli rd rs1 shamt => fieldsShift 0b001#3 0b0000000#7 rd rs1 shamt
  | .srli rd rs1 shamt => fieldsShift 0b101#3 0b0000000#7 rd rs1 shamt
  | .srai rd rs1 shamt => fieldsShift 0b101#3 0b0100000#7 rd rs1 shamt
  | .add rd rs1 rs2 => fieldsR opReg 0b000#3 0b0000000#7 rd rs1 rs2
  | .sub rd rs1 rs2 => fieldsR opReg 0b000#3 0b0100000#7 rd rs1 rs2
  | .sll rd rs1 rs2 => fieldsR opReg 0b001#3 0b0000000#7 rd rs1 rs2
  | .slt rd rs1 rs2 => fieldsR opReg 0b010#3 0b0000000#7 rd rs1 rs2
  | .sltu rd rs1 rs2 => fieldsR opReg 0b011#3 0b0000000#7 rd rs1 rs2
  | .xor rd rs1 rs2 => fieldsR opReg 0b100#3 0b0000000#7 rd rs1 rs2
  | .srl rd rs1 rs2 => fieldsR opReg 0b101#3 0b0000000#7 rd rs1 rs2
  | .sra rd rs1 rs2 => fieldsR opReg 0b101#3 0b0100000#7 rd rs1 rs2
  | .or rd rs1 rs2 => fieldsR opReg 0b110#3 0b0000000#7 rd rs1 rs2
  | .and rd rs1 rs2 => fieldsR opReg 0b111#3 0b0000000#7 rd rs1 rs2
  | .jal rd imm => fieldsJ rd imm
  | .jalr rd rs1 imm => fieldsI opJalr 0b000#3 rd rs1 imm
  | .beq rs1 rs2 imm => fieldsB 0b000#3 rs1 rs2 imm
  | .bne rs1 rs2 imm => fieldsB 0b001#3 rs1 rs2 imm
  | .blt rs1 rs2 imm => fieldsB 0b100#3 rs1 rs2 imm
  | .bge rs1 rs2 imm => fieldsB 0b101#3 rs1 rs2 imm
  | .bltu rs1 rs2 imm => fieldsB 0b110#3 rs1 rs2 imm
  | .bgeu rs1 rs2 imm => fieldsB 0b111#3 rs1 rs2 imm
  | .lb rd rs1 imm => fieldsI opLoad 0b000#3 rd rs1 imm
  | .lh rd rs1 imm => fieldsI opLoad 0b001#3 rd rs1 imm
  | .lw rd rs1 imm => fieldsI opLoad 0b010#3 rd rs1 imm
  | .lbu rd rs1 imm => fieldsI opLoad 0b100#3 rd rs1 imm
  | .lhu rd rs1 imm => fieldsI opLoad 0b101#3 rd rs1 imm
  | .sb rs1 rs2 imm => fieldsS 0b000#3 rs1 rs2 imm
  | .sh rs1 rs2 imm => fieldsS 0b001#3 rs1 rs2 imm
  | .sw rs1 rs2 imm => fieldsS 0b010#3 rs1 rs2 imm
  | .ecall => fieldsI opSystem 0b000#3 0#5 0#5 0#32
  | .ebreak => fieldsI opSystem 0b000#3 0#5 0#5 1#32
  | .nemuTrap funct7 rs2 rs1 funct3 rd => fieldsR opTrapWord funct3 funct7 rd rs1 rs2

/-- The word of an instruction (R72). -/
def encode (i : Instr) : Word := encodeFields i.fields

end Sys2Proof
end

