-- ==== Sys2Proof/Machine/Fetch.lean ====
section
/-! DEFINITION. Fetch.lean: FETCH and DECODE of the step transaction (spec/40_engine_cycle.md R101), and
the placing of a word where the next step fetches. -/

namespace Sys2Proof.Machine

/-- What the first half of a step finds. -/
inductive Fetched where
  /-- status is not RUNNING: the step does nothing (R102). -/
  | stopped
  /-- read(pc, 4) failed (R48). -/
  | outOfRange
  /-- The word is no instruction (R74). -/
  | illegal (w : Word)
  /-- The word is the instruction i. -/
  | run (i : Instr)
deriving DecidableEq, Repr

/-- FETCH, DECODE and DISPATCH, in this order (R101, R307). The fetch asks no alignment of the pc
(R46); every pc the engine itself sets is aligned (R26, log 13). -/
def State.fetch (s : State) : Fetched :=
  if s.status ≠ .running then .stopped
  else
    match s.memRead s.pc .word with
    | none => .outOfRange
    | some w =>
      match decode s.cfg.trapWord6B w with
      | .error _ => .illegal w
      | .ok i => .run i

/-- The state with a word of nbits bits stored where the next step fetches, ready to run it: the four
bytes at the pc, status RUNNING, and TRAP_WORD_6B set if the word is the row that needs it (log 5,
log 10). -/
def State.placeWord (s : State) (nbits w : Nat) : State :=
  { s with
    mem := Memory.writeBytes s.mem s.pc.toNat (BitVec.ofNat 32 (w % 2 ^ nbits)) 4
    status := .running
    cfg := { s.cfg with trapWord6B :=
      s.cfg.trapWord6B || opcodeOf (BitVec.ofNat 32 (w % 2 ^ nbits)) == opTrapWord } }

end Sys2Proof.Machine
end

