-- ==== Sys2Proof/Machine/Step.lean ====
section
/-! DEFINITION. Step.lean: `step()` (spec/40_engine_cycle.md R100 to R103), one instruction. Every
outcome is a next state: the engine's events are changes of the run status (R301). -/

namespace Sys2Proof.Machine

/-- R101: fetch, decode, dispatch, execute and advance; nothing when the status is not RUNNING (R102). -/
def step (s : State) : Host.Outcome State Fault Refusal :=
  match s.fetch with
  | .stopped => .next s
  | .outOfRange => fetchFault s
  | .illegal w => execInv w s
  | .run i => exec i s

/-- s with a word of the opcode table stored where the next step fetches (log 10). -/
def State.withFetchWord (s : State) (nbits w : Nat) : State := s.placeWord nbits w

end Sys2Proof.Machine
end

