-- ==== Sys2Proof/Machine/RegisterNames.lean ====
section
/-! DEFINITION. RegisterNames.lean: the ABI names (spec/10_state.md R24) and the lookup by name (R35). -/

namespace Sys2Proof.Machine

/-- A text as bytes, one byte a character; the model's own names are ASCII (log 14). -/
def bytesOf (text : String) : List Byte := text.toList.map fun c => BitVec.ofNat 8 c.toNat

/-- The ABI name of each register, x0 first (R24). -/
def abiNames : List String :=
  ["zero", "ra", "sp", "gp", "tp", "t0", "t1", "t2"] ++
  ["s0", "s1", "a0", "a1", "a2", "a3", "a4", "a5"] ++
  ["a6", "a7", "s2", "s3", "s4", "s5", "s6", "s7"] ++
  ["s8", "s9", "s10", "s11", "t3", "t4", "t5", "t6"]

/-- The name xN of a register, its index in decimal with no leading zero (R35). -/
def numericName (i : Nat) : String := String.ofList ('x' :: Nat.toDigits 10 i)

/-- Every register name and its index (R35): x0 to x31, the ABI names, `fp` for 8 and `0` for 0. -/
def registerNames : List (List Byte × Reg) :=
  (List.range 32).map (fun i => (bytesOf (numericName i), BitVec.ofNat 5 i)) ++
  abiNames.zipIdx.map (fun p => (bytesOf p.1, BitVec.ofNat 5 p.2)) ++
  [(bytesOf "fp", 8#5), (bytesOf "0", 0#5)]

/-- registerIndexByName (R35): none is "not found". Names are compared byte by byte, so case counts
(D44). It reads no state. -/
def registerIndexByName (name : List Byte) : Option Reg :=
  (registerNames.find? (·.1 == name)).map (·.2)

end Sys2Proof.Machine
end

