-- ==== Sys2Proof/Machine/Assembly.lean ====
section
/-! DEFINITION. Assembly.lean: the assembler syntax (spec/30_encoding.md R79) as a printer, and the
pseudo-instructions (R80) as expansions into instructions. Notation only: no step uses it. -/

namespace Sys2Proof.Machine

/-! ### Printing (R79) -/

/-- A register, written xN. -/
def asmReg (r : Reg) : String := numericName r.toNat

/-- A signed decimal number (log 16). -/
def asmInt (v : Word) : String := toString v.toInt

/-- An unsigned decimal number (log 16). -/
def asmNat (n : Nat) : String := toString n

/-- Operands, separated by commas. -/
def asmList : List String → String
  | [] => ""
  | [a] => a
  | a :: b :: more => a ++ ", " ++ asmList (b :: more)

def asmR (op : String) (rd rs1 rs2 : Reg) : String :=
  op ++ " " ++ asmList [asmReg rd, asmReg rs1, asmReg rs2]

def asmI (op : String) (rd rs1 : Reg) (imm : Word) : String :=
  op ++ " " ++ asmList [asmReg rd, asmReg rs1, asmInt imm]

def asmShift (op : String) (rd rs1 : Reg) (shamt : BitVec 5) : String :=
  op ++ " " ++ asmList [asmReg rd, asmReg rs1, asmNat shamt.toNat]

/-- A load, a store or JALR: `op reg, imm(base)`. -/
def asmDisp (op : String) (r base : Reg) (imm : Word) : String :=
  op ++ " " ++ asmList [asmReg r, asmInt imm ++ "(" ++ asmReg base ++ ")"]

/-- LUI and AUIPC: the 20-bit value placed in bits 31:12. -/
def asmU (op : String) (rd : Reg) (imm : Word) : String :=
  op ++ " " ++ asmList [asmReg rd, asmNat (imm.extractLsb' 12 20).toNat]

/-- A branch: its target address, pc + offset. -/
def asmB (op : String) (pc : Word) (rs1 rs2 : Reg) (imm : Word) : String :=
  op ++ " " ++ asmList [asmReg rs1, asmReg rs2, asmNat (pc + imm).toNat]

/-- An instruction at address pc, in the syntax of R79. R79 gives the opcode-1101011 word no syntax;
it is written by its handler's name (log 16). -/
def asm (pc : Word) : Instr → String
  | .lui rd imm => asmU "lui" rd imm
  | .auipc rd imm => asmU "auipc" rd imm
  | .addi rd rs1 imm => asmI "addi" rd rs1 imm
  | .slti rd rs1 imm => asmI "slti" rd rs1 imm
  | .sltiu rd rs1 imm => asmI "sltiu" rd rs1 imm
  | .xori rd rs1 imm => asmI "xori" rd rs1 imm
  | .ori rd rs1 imm => asmI "ori" rd rs1 imm
  | .andi rd rs1 imm => asmI "andi" rd rs1 imm
  | .slli rd rs1 shamt => asmShift "slli" rd rs1 shamt
  | .srli rd rs1 shamt => asmShift "srli" rd rs1 shamt
  | .srai rd rs1 shamt => asmShift "srai" rd rs1 shamt
  | .add rd rs1 rs2 => asmR "add" rd rs1 rs2
  | .sub rd rs1 rs2 => asmR "sub" rd rs1 rs2
  | .sll rd rs1 rs2 => asmR "sll" rd rs1 rs2
  | .slt rd rs1 rs2 => asmR "slt" rd rs1 rs2
  | .sltu rd rs1 rs2 => asmR "sltu" rd rs1 rs2
  | .xor rd rs1 rs2 => asmR "xor" rd rs1 rs2
  | .srl rd rs1 rs2 => asmR "srl" rd rs1 rs2
  | .sra rd rs1 rs2 => asmR "sra" rd rs1 rs2
  | .or rd rs1 rs2 => asmR "or" rd rs1 rs2
  | .and rd rs1 rs2 => asmR "and" rd rs1 rs2
  | .jal rd imm => "jal " ++ asmList [asmReg rd, asmNat (pc + imm).toNat]
  | .jalr rd rs1 imm => asmDisp "jalr" rd rs1 imm
  | .beq rs1 rs2 imm => asmB "beq" pc rs1 rs2 imm
  | .bne rs1 rs2 imm => asmB "bne" pc rs1 rs2 imm
  | .blt rs1 rs2 imm => asmB "blt" pc rs1 rs2 imm
  | .bge rs1 rs2 imm => asmB "bge" pc rs1 rs2 imm
  | .bltu rs1 rs2 imm => asmB "bltu" pc rs1 rs2 imm
  | .bgeu rs1 rs2 imm => asmB "bgeu" pc rs1 rs2 imm
  | .lb rd rs1 imm => asmDisp "lb" rd rs1 imm
  | .lh rd rs1 imm => asmDisp "lh" rd rs1 imm
  | .lw rd rs1 imm => asmDisp "lw" rd rs1 imm
  | .lbu rd rs1 imm => asmDisp "lbu" rd rs1 imm
  | .lhu rd rs1 imm => asmDisp "lhu" rd rs1 imm
  | .sb rs1 rs2 imm => asmDisp "sb" rs2 rs1 imm
  | .sh rs1 rs2 imm => asmDisp "sh" rs2 rs1 imm
  | .sw rs1 rs2 imm => asmDisp "sw" rs2 rs1 imm
  | .ecall => "ecall"
  | .ebreak => "ebreak"
  | .nemuTrap _ _ _ _ _ => "nemu_trap"

/-! ### Pseudo-instructions (R80) -/

/-- The low part of a 32-bit value split for LUI or AUIPC: sext_12(imm[11:0]) (R80, `li`). -/
def splitLo (imm : Word) : Word := (imm.extractLsb' 0 12).signExtend 32

/-- The high part as the decoded U-immediate: hi << 12, that is imm - lo (R80, `li`). -/
def splitHi (imm : Word) : Word := imm - splitLo imm

/-- R80's pseudo-instructions. A target or symbol is an address. -/
inductive Pseudo where
  | nop
  | li (rd : Reg) (imm : Word)
  | mv (rd rs : Reg)
  | not (rd rs : Reg)
  | neg (rd rs : Reg)
  | seqz (rd rs : Reg)
  | snez (rd rs : Reg)
  | sltz (rd rs : Reg)
  | sgtz (rd rs : Reg)
  | beqz (rs : Reg) (t : Word)
  | bnez (rs : Reg) (t : Word)
  | blez (rs : Reg) (t : Word)
  | bgez (rs : Reg) (t : Word)
  | bltz (rs : Reg) (t : Word)
  | bgtz (rs : Reg) (t : Word)
  | bgt (rs rt : Reg) (t : Word)
  | ble (rs rt : Reg) (t : Word)
  | bgtu (rs rt : Reg) (t : Word)
  | bleu (rs rt : Reg) (t : Word)
  | j (t : Word)
  | jal (t : Word)
  | jr (rs : Reg)
  | jalr (rs : Reg)
  | ret
  | call (t : Word)
  | tail (t : Word)
  | la (rd : Reg) (sym : Word)
  | lbSym (rd : Reg) (sym : Word)
  | lhSym (rd : Reg) (sym : Word)
  | lwSym (rd : Reg) (sym : Word)
  | sbSym (rs : Reg) (sym : Word) (rt : Reg)
  | shSym (rs : Reg) (sym : Word) (rt : Reg)
  | swSym (rs : Reg) (sym : Word) (rt : Reg)
deriving DecidableEq, Repr

/-- The expansion of R80 for a pseudo-instruction at address pc. -/
def Pseudo.expand (pc : Word) : Pseudo → List Instr
  | .nop => [.addi 0#5 0#5 0#32]
  | .li rd imm =>
    if fitsImm12 imm then [.addi rd 0#5 imm]
    else if splitLo imm = 0#32 then [.lui rd (splitHi imm)]
    else [.lui rd (splitHi imm), .addi rd rd (splitLo imm)]
  | .mv rd rs => [.addi rd rs 0#32]
  | .not rd rs => [.xori rd rs 0xFFFFFFFF#32]
  | .neg rd rs => [.sub rd 0#5 rs]
  | .seqz rd rs => [.sltiu rd rs 1#32]
  | .snez rd rs => [.sltu rd 0#5 rs]
  | .sltz rd rs => [.slt rd rs 0#5]
  | .sgtz rd rs => [.slt rd 0#5 rs]
  | .beqz rs t => [.beq rs 0#5 (t - pc)]
  | .bnez rs t => [.bne rs 0#5 (t - pc)]
  | .blez rs t => [.bge 0#5 rs (t - pc)]
  | .bgez rs t => [.bge rs 0#5 (t - pc)]
  | .bltz rs t => [.blt rs 0#5 (t - pc)]
  | .bgtz rs t => [.blt 0#5 rs (t - pc)]
  | .bgt rs rt t => [.blt rt rs (t - pc)]
  | .ble rs rt t => [.bge rt rs (t - pc)]
  | .bgtu rs rt t => [.bltu rt rs (t - pc)]
  | .bleu rs rt t => [.bgeu rt rs (t - pc)]
  | .j t => [.jal 0#5 (t - pc)]
  | .jal t => [.jal 1#5 (t - pc)]
  | .jr rs => [.jalr 0#5 rs 0#32]
  | .jalr rs => [.jalr 1#5 rs 0#32]
  | .ret => [.jalr 0#5 1#5 0#32]
  | .call t => [.auipc 1#5 (splitHi (t - pc)), .jalr 1#5 1#5 (splitLo (t - pc))]
  | .tail t => [.auipc 6#5 (splitHi (t - pc)), .jalr 0#5 6#5 (splitLo (t - pc))]
  | .la rd sym => [.auipc rd (splitHi (sym - pc)), .addi rd rd (splitLo (sym - pc))]
  | .lbSym rd sym => [.auipc rd (splitHi (sym - pc)), .lb rd rd (splitLo (sym - pc))]
  | .lhSym rd sym => [.auipc rd (splitHi (sym - pc)), .lh rd rd (splitLo (sym - pc))]
  | .lwSym rd sym => [.auipc rd (splitHi (sym - pc)), .lw rd rd (splitLo (sym - pc))]
  | .sbSym rs sym rt => [.auipc rt (splitHi (sym - pc)), .sb rt rs (splitLo (sym - pc))]
  | .shSym rs sym rt => [.auipc rt (splitHi (sym - pc)), .sh rt rs (splitLo (sym - pc))]
  | .swSym rs sym rt => [.auipc rt (splitHi (sym - pc)), .sw rt rs (splitLo (sym - pc))]

end Sys2Proof.Machine
end

