-- ==== Sys2Proof/Machine/OpcodeTable.lean ====
section
/-! DEFINITION. OpcodeTable.lean: the match and mask of every row of spec/opcode_table.json, copied from
the table and not from the decoder, so that claims can hold the decoder and the encoder against it. -/

namespace Sys2Proof.Machine

/-- One row: a word w is the row's instruction when w AND mask = pattern. -/
structure OpcodeRow where
  mnemonic : String
  pattern : Word
  mask : Word
deriving DecidableEq, Repr

/-- The row of an instruction. -/
def rowOf : Instr → OpcodeRow
  | .lui _ _ => ⟨"LUI", 0x00000037#32, 0x0000007F#32⟩
  | .auipc _ _ => ⟨"AUIPC", 0x00000017#32, 0x0000007F#32⟩
  | .addi _ _ _ => ⟨"ADDI", 0x00000013#32, 0x0000707F#32⟩
  | .slti _ _ _ => ⟨"SLTI", 0x00002013#32, 0x0000707F#32⟩
  | .sltiu _ _ _ => ⟨"SLTIU", 0x00003013#32, 0x0000707F#32⟩
  | .xori _ _ _ => ⟨"XORI", 0x00004013#32, 0x0000707F#32⟩
  | .ori _ _ _ => ⟨"ORI", 0x00006013#32, 0x0000707F#32⟩
  | .andi _ _ _ => ⟨"ANDI", 0x00007013#32, 0x0000707F#32⟩
  | .slli _ _ _ => ⟨"SLLI", 0x00001013#32, 0xFE00707F#32⟩
  | .srli _ _ _ => ⟨"SRLI", 0x00005013#32, 0xFE00707F#32⟩
  | .srai _ _ _ => ⟨"SRAI", 0x40005013#32, 0xFE00707F#32⟩
  | .add _ _ _ => ⟨"ADD", 0x00000033#32, 0xFE00707F#32⟩
  | .sub _ _ _ => ⟨"SUB", 0x40000033#32, 0xFE00707F#32⟩
  | .sll _ _ _ => ⟨"SLL", 0x00001033#32, 0xFE00707F#32⟩
  | .slt _ _ _ => ⟨"SLT", 0x00002033#32, 0xFE00707F#32⟩
  | .sltu _ _ _ => ⟨"SLTU", 0x00003033#32, 0xFE00707F#32⟩
  | .xor _ _ _ => ⟨"XOR", 0x00004033#32, 0xFE00707F#32⟩
  | .srl _ _ _ => ⟨"SRL", 0x00005033#32, 0xFE00707F#32⟩
  | .sra _ _ _ => ⟨"SRA", 0x40005033#32, 0xFE00707F#32⟩
  | .or _ _ _ => ⟨"OR", 0x00006033#32, 0xFE00707F#32⟩
  | .and _ _ _ => ⟨"AND", 0x00007033#32, 0xFE00707F#32⟩
  | .jal _ _ => ⟨"JAL", 0x0000006F#32, 0x0000007F#32⟩
  | .jalr _ _ _ => ⟨"JALR", 0x00000067#32, 0x0000707F#32⟩
  | .beq _ _ _ => ⟨"BEQ", 0x00000063#32, 0x0000707F#32⟩
  | .bne _ _ _ => ⟨"BNE", 0x00001063#32, 0x0000707F#32⟩
  | .blt _ _ _ => ⟨"BLT", 0x00004063#32, 0x0000707F#32⟩
  | .bge _ _ _ => ⟨"BGE", 0x00005063#32, 0x0000707F#32⟩
  | .bltu _ _ _ => ⟨"BLTU", 0x00006063#32, 0x0000707F#32⟩
  | .bgeu _ _ _ => ⟨"BGEU", 0x00007063#32, 0x0000707F#32⟩
  | .lb _ _ _ => ⟨"LB", 0x00000003#32, 0x0000707F#32⟩
  | .lh _ _ _ => ⟨"LH", 0x00001003#32, 0x0000707F#32⟩
  | .lw _ _ _ => ⟨"LW", 0x00002003#32, 0x0000707F#32⟩
  | .lbu _ _ _ => ⟨"LBU", 0x00004003#32, 0x0000707F#32⟩
  | .lhu _ _ _ => ⟨"LHU", 0x00005003#32, 0x0000707F#32⟩
  | .sb _ _ _ => ⟨"SB", 0x00000023#32, 0x0000707F#32⟩
  | .sh _ _ _ => ⟨"SH", 0x00001023#32, 0x0000707F#32⟩
  | .sw _ _ _ => ⟨"SW", 0x00002023#32, 0x0000707F#32⟩
  | .ecall => ⟨"ECALL", 0x00000073#32, 0xFFFFFFFF#32⟩
  | .ebreak => ⟨"EBREAK", 0x00100073#32, 0xFFFFFFFF#32⟩
  | .nemuTrap _ _ _ _ _ => ⟨"NEMU_TRAP", 0x0000006B#32, 0x0000007F#32⟩

/-- Whether a word meets a row's match and mask. -/
def OpcodeRow.covers (row : OpcodeRow) (w : Word) : Prop := w &&& row.mask = row.pattern

/-- The table, in its own order. -/
def opcodeTable : List OpcodeRow :=
  [rowOf (.lui 0 0), rowOf (.auipc 0 0), rowOf (.addi 0 0 0), rowOf (.slti 0 0 0), rowOf (.sltiu 0 0 0), rowOf (.xori 0 0 0), rowOf (.ori 0 0 0), rowOf (.andi 0 0 0)] ++
  [rowOf (.slli 0 0 0), rowOf (.srli 0 0 0), rowOf (.srai 0 0 0), rowOf (.add 0 0 0), rowOf (.sub 0 0 0), rowOf (.sll 0 0 0), rowOf (.slt 0 0 0), rowOf (.sltu 0 0 0)] ++
  [rowOf (.xor 0 0 0), rowOf (.srl 0 0 0), rowOf (.sra 0 0 0), rowOf (.or 0 0 0), rowOf (.and 0 0 0), rowOf (.jal 0 0), rowOf (.jalr 0 0 0), rowOf (.beq 0 0 0)] ++
  [rowOf (.bne 0 0 0), rowOf (.blt 0 0 0), rowOf (.bge 0 0 0), rowOf (.bltu 0 0 0), rowOf (.bgeu 0 0 0), rowOf (.lb 0 0 0), rowOf (.lh 0 0 0), rowOf (.lw 0 0 0)] ++
  [rowOf (.lbu 0 0 0), rowOf (.lhu 0 0 0), rowOf (.sb 0 0 0), rowOf (.sh 0 0 0), rowOf (.sw 0 0 0), rowOf (.ecall), rowOf (.ebreak), rowOf (.nemuTrap 0 0 0 0 0)]

end Sys2Proof.Machine
end

