-- ==== Sys2Proof/Machine/Tokenizer.lean ====
section
/-! DEFINITION. Tokenizer.lean: the first stage of the evaluator (spec/46_expr_tokenizer.md), a pure
function of the text. Also the failure tags of one `evaluate` call (spec/47_expr_evaluator.md R274). -/

namespace Sys2Proof.Machine

/-- The failure tags of one `evaluate` call (R274). -/
inductive EvalFailure where
  /-- LexError(position), the 0-based byte offset. -/
  | lexError (position : Nat)
  /-- ParseError(UnbalancedParens). -/
  | unbalancedParens
  /-- ParseError(MalformedSpan). -/
  | malformedSpan
  /-- EvalError(UnknownRegister). -/
  | unknownRegister
  /-- EvalError(DivisionByZero). -/
  | divisionByZero
  /-- EvalError(MemoryFault). -/
  | memoryFault
deriving DecidableEq, Repr

/-- The type tags of R221. NEG and DEREF come only from disambiguation (R254). -/
inductive TokenTag where
  | plus | eq | neq | star | slash | minus | lparen | rparen | and | or | hex | dec | reg | neg | deref
deriving DecidableEq, Repr

/-- A token: its tag and its literal text (R221). -/
structure Token where
  tag : TokenTag
  text : List Byte
deriving DecidableEq, Repr

/-- The lexical rules of R222. -/
inductive LexRule where
  | whitespace | plus | eq | neq | star | slash | minus | lparen | rparen | and | or | hex | dec | reg
deriving DecidableEq, Repr

/-- The fixed priority order of R222. -/
def LexRule.inOrder : List LexRule :=
  [.whitespace, .plus, .eq, .neq, .star, .slash, .minus] ++
  [.lparen, .rparen, .and, .or, .hex, .dec, .reg]

/-- lo ≤ b ≤ hi, as unsigned bytes. -/
def byteIn (lo hi : Nat) (b : Byte) : Bool := decide (lo ≤ b.toNat) && decide (b.toNat ≤ hi)

/-- A space (0x20) or a tab (0x09) (R222, D29). -/
def isBlank (b : Byte) : Bool := b == 0x20#8 || b == 0x09#8

/-- `0-9`. -/
def isDigit (b : Byte) : Bool := byteIn 0x30 0x39 b

/-- `0-9`, `a-f`, `A-F`. -/
def isHexDigit (b : Byte) : Bool := isDigit b || byteIn 0x61 0x66 b || byteIn 0x41 0x46 b

/-- `A-Z`, `a-z`, `0-9`, `_`. -/
def isNameByte (b : Byte) : Bool :=
  byteIn 0x41 0x5A b || byteIn 0x61 0x7A b || isDigit b || b == 0x5F#8

/-- How many bytes at the head of a text are of a class: "as many bytes as it can" (R223). -/
def greedyLen (cls : Byte → Bool) (t : List Byte) : Nat := (t.takeWhile cls).length

/-- The length of a fixed pattern if the text begins with it, else 0. -/
def literalLen (pattern t : List Byte) : Nat := if pattern.isPrefixOf t then pattern.length else 0

/-- A prefix followed by one or more bytes of a class; 0 for no match. -/
def prefixedLen (pattern : List Byte) (cls : Byte → Bool) (t : List Byte) : Nat :=
  if pattern.isPrefixOf t ∧ greedyLen cls (t.drop pattern.length) ≠ 0
  then pattern.length + greedyLen cls (t.drop pattern.length) else 0

/-- How many bytes a rule matches at the head of a text (R222, R223); 0 for no match. -/
def LexRule.matchLen (t : List Byte) : LexRule → Nat
  | .whitespace => greedyLen isBlank t
  | .plus => literalLen (bytesOf "+") t
  | .eq => literalLen (bytesOf "==") t
  | .neq => literalLen (bytesOf "!=") t
  | .star => literalLen (bytesOf "*") t
  | .slash => literalLen (bytesOf "/") t
  | .minus => literalLen (bytesOf "-") t
  | .lparen => literalLen (bytesOf "(") t
  | .rparen => literalLen (bytesOf ")") t
  | .and => literalLen (bytesOf "&&") t
  | .or => literalLen (bytesOf "||") t
  | .hex => prefixedLen (bytesOf "0x") isHexDigit t
  | .dec => greedyLen isDigit t
  | .reg => prefixedLen (bytesOf "$") isNameByte t

/-- The tag a rule emits; whitespace emits nothing (R222). -/
def LexRule.emits : LexRule → Option TokenTag
  | .whitespace => none
  | .plus => some .plus
  | .eq => some .eq
  | .neq => some .neq
  | .star => some .star
  | .slash => some .slash
  | .minus => some .minus
  | .lparen => some .lparen
  | .rparen => some .rparen
  | .and => some .and
  | .or => some .or
  | .hex => some .hex
  | .dec => some .dec
  | .reg => some .reg

/-- The first rule in priority order that matches a non-empty prefix (R223). -/
def firstRule (t : List Byte) : Option LexRule := LexRule.inOrder.find? fun r => r.matchLen t != 0

/-- The scan of R223 over the text from offset `pos` on; `skip` bytes of it belong to the match taken
last. A lexeme of more than 31 bytes is LexError at its first byte (R224). -/
def scan : List Byte → Nat → Nat → Except EvalFailure (List Token)
  | [], _, _ => .ok []
  | _ :: rest, pos, skip + 1 => scan rest (pos + 1) skip
  | c :: rest, pos, 0 =>
    match firstRule (c :: rest) with
    | none => .error (.lexError pos)
    | some r =>
      match r.emits with
      | none => scan rest (pos + 1) (r.matchLen (c :: rest) - 1)
      | some tag =>
        if r.matchLen (c :: rest) > Config.tokenTextMax then .error (.lexError pos)
        else
          match scan rest (pos + 1) (r.matchLen (c :: rest) - 1) with
          | .error e => .error e
          | .ok toks => .ok (⟨tag, (c :: rest).take (r.matchLen (c :: rest))⟩ :: toks)

/-- tokenize(text) (R220, R223). -/
def tokenize (text : List Byte) : Except EvalFailure (List Token) := scan text 0 0

end Sys2Proof.Machine
end

