-- ==== Sys2Proof/Machine/Evaluator.lean ====
section
/-! DEFINITION. Evaluator.lean: the debug expression evaluator (spec/47_expr_evaluator.md), a pure
function of the text, the registers, the pc and the memory. A span [p, q] of the spec is the list of its
tokens; the recursion is on a bound of the span's length, which every recursive call's span is
strictly below (R276, log 14). -/

namespace Sys2Proof.Machine

/-! ### Before the recursion: balance (R252) and disambiguation (R254) -/

/-- The balance walk from a depth on: never below 0, and 0 at the end (R252). -/
def balancedFrom : Nat → List Token → Bool
  | depth, [] => depth == 0
  | depth, t :: toks =>
    match t.tag with
    | .lparen => balancedFrom (depth + 1) toks
    | .rparen =>
      match depth with
      | 0 => false
      | d + 1 => balancedFrom d toks
    | _ => balancedFrom depth toks

/-- R252: the whole stream is balanced. -/
def balanced (toks : List Token) : Bool := balancedFrom 0 toks

/-- R254's OPERATORS. -/
def TokenTag.isOperator : TokenTag → Bool
  | .plus | .minus | .star | .slash | .eq | .neq | .and | .or | .neg | .deref => true
  | .lparen | .rparen | .hex | .dec | .reg => false

/-- Whether a `-` or `*` after this token (none: at the start) is unary (R254). -/
def unaryAfter : Option TokenTag → Bool
  | none => true
  | some t => t.isOperator || t == .lparen

/-- MINUS becomes NEG and STAR becomes DEREF in a unary place (R254). -/
def reclassify (before : Option TokenTag) (t : TokenTag) : TokenTag :=
  if unaryAfter before then
    match t with
    | .minus => .neg
    | .star => .deref
    | other => other
  else t

/-- The pass of R254, left to right; each token sees its predecessor as already reclassified. -/
def disambiguateFrom : Option TokenTag → List Token → List Token
  | _, [] => []
  | before, t :: toks =>
    { t with tag := reclassify before t.tag } :: disambiguateFrom (some (reclassify before t.tag)) toks

def disambiguate (toks : List Token) : List Token := disambiguateFrom none toks

/-! ### Precedence and the split point (R255, R260, R261) -/

/-- R255's precedence numbers; a larger one binds last. A literal or register has none. -/
def TokenTag.prec : TokenTag → Nat
  | .lparen | .rparen => 1
  | .neg | .deref => 2
  | .star | .slash => 3
  | .plus | .minus => 4
  | .eq | .neq => 7
  | .and => 11
  | .or => 12
  | .hex | .dec | .reg => 0

/-- The binary operators of R255. -/
def TokenTag.isBinary : TokenTag → Bool
  | .star | .slash | .plus | .minus | .eq | .neq | .and | .or => true
  | .lparen | .rparen | .hex | .dec | .reg | .neg | .deref => false

/-- The unary prefixes of R255. -/
def TokenTag.isUnary : TokenTag → Bool
  | .neg | .deref => true
  | .star | .slash | .plus | .minus | .eq | .neq | .and | .or => false
  | .lparen | .rparen | .hex | .dec | .reg => false

/-- What a token adds to the running paren balance (R260). -/
def TokenTag.depthChange : TokenTag → Int
  | .lparen => 1
  | .rparen => -1
  | _ => 0

/-- R260's walk: the balance never below 0, and 0 exactly at the last token. -/
def closesOnlyAtEnd : Int → List Token → Bool
  | b, [] => b == 0
  | b, t :: toks =>
    if b + t.tag.depthChange < 0 then false
    else if b + t.tag.depthChange = 0 ∧ toks ≠ [] then false
    else closesOnlyAtEnd (b + t.tag.depthChange) toks

/-- R260: the outer tokens are `(` and `)` and they belong together. -/
def fullyParenthesized (span : List Token) : Bool :=
  (span.head?.map (·.tag)) == some .lparen && (span.getLast?.map (·.tag)) == some .rparen &&
    closesOnlyAtEnd 0 span

/-- R261's right-to-left search over the reversed span, with the best index so far, its precedence and
the depth. The head's index is the number of tokens still to its left. -/
def dominantBinary : List Token → Option Nat → Nat → Int → Option Nat
  | [], best, _, _ => best
  | t :: left, best, bestPrec, depth =>
    if t.tag = .rparen then dominantBinary left best bestPrec (depth + 1)
    else if t.tag = .lparen then dominantBinary left best bestPrec (depth - 1)
    else if depth = 0 ∧ t.tag.isBinary ∧ t.tag.prec > bestPrec then
      dominantBinary left (some left.length) t.tag.prec depth
    else dominantBinary left best bestPrec depth

/-- How a span is split (R261). -/
inductive Split where
  | nowhere
  | unary
  | binary (k : Nat)
deriving DecidableEq, Repr

/-- R261: the dominant binary operator; only if there is none, a unary operator at the start. -/
def dominant (span : List Token) : Split :=
  match dominantBinary span.reverse none 0 0 with
  | some k => .binary k
  | none => if (span.head?.map (·.tag.isUnary)) == some true then .unary else .nowhere

/-! ### Terminals (R257, R259) -/

/-- The value of a decimal or hexadecimal digit byte. -/
def digitValue (b : Byte) : Nat :=
  if byteIn 0x61 0x66 b then b.toNat - 0x61 + 10
  else if byteIn 0x41 0x46 b then b.toNat - 0x41 + 10
  else b.toNat - 0x30

/-- Digits read in a base. -/
def digitsValue (base : Nat) (digits : List Byte) : Nat :=
  digits.foldl (fun n b => n * base + digitValue b) 0

/-- A REG token's value: the pc, a register found by name, or UnknownRegister (R259). -/
def registerValue (s : State) (name : List Byte) : Except EvalFailure Word :=
  if name = bytesOf "pc" then .ok s.pc
  else
    match registerIndexByName name with
    | some r => .ok (s.getReg r)
    | none => .error .unknownRegister

/-- The terminal case (R257): literals are reduced modulo 2^32; the text of a HEX token begins with
`0x` and that of a REG token with `$`. -/
def terminal (s : State) (t : Token) : Except EvalFailure Word :=
  match t.tag with
  | .dec => .ok (BitVec.ofNat 32 (digitsValue 10 t.text))
  | .hex => .ok (BitVec.ofNat 32 (digitsValue 16 (t.text.drop 2)))
  | .reg => registerValue s (t.text.drop 1)
  | _ => .error .malformedSpan

/-! ### Operators (R262 to R273) -/

/-- bool(c) as an evaluator value (R10, R268). -/
def truth (c : Bool) : Word := if c then 1#32 else 0#32

/-- SLASH: truncates toward zero, wraps -2^31 / -1, and 0 is no divisor (R267). -/
def divide (a b : Word) : Except EvalFailure Word :=
  if b = 0#32 then .error .divisionByZero else .ok (BitVec.ofInt 32 (a.toInt.tdiv b.toInt))

/-- apply_binary (R264 to R271), on operands already evaluated. -/
def applyBinary (op : TokenTag) (a b : Word) : Except EvalFailure Word :=
  match op with
  | .plus => .ok (a + b)
  | .minus => .ok (a - b)
  | .star => .ok (a * b)
  | .slash => divide a b
  | .eq => .ok (truth (a == b))
  | .neq => .ok (truth (a != b))
  | .and => .ok (truth (a != 0#32 && b != 0#32))
  | .or => .ok (truth (a != 0#32 || b != 0#32))
  | _ => .error .malformedSpan

/-- DEREF: the word at u(a), at any alignment (R273). -/
def dereference (s : State) (a : Word) : Except EvalFailure Word :=
  match s.memRead a .word with
  | some v => .ok v
  | none => .error .memoryFault

/-- apply_unary (R262, R272, R273). -/
def applyUnary (s : State) (op : TokenTag) (v : Word) : Except EvalFailure Word :=
  match op with
  | .neg => .ok (0#32 - v)
  | .deref => dereference s v
  | _ => .error .malformedSpan

/-! ### The recursive evaluator (R256) -/

/-- The interior of a parenthesized span: tokens p + 1 to q - 1. -/
def interior (span : List Token) : List Token := span.tail.dropLast

/-- eval(p, q) of R256 on the tokens of the span. The bound `n` is at least the span's length in every
call from `evaluate`. An empty span is never evaluated (R253); the two arms for it answer
MalformedSpan and are not reached (log 14). -/
def evalSpan (s : State) : Nat → List Token → Except EvalFailure Word
  | 0, _ => .error .malformedSpan
  | _ + 1, [] => .error .malformedSpan
  | _ + 1, [t] => terminal s t
  | n + 1, t :: u :: toks =>
    if fullyParenthesized (t :: u :: toks) then
      if interior (t :: u :: toks) = [] then .error .malformedSpan
      else evalSpan s n (interior (t :: u :: toks))
    else
      match dominant (t :: u :: toks) with
      | .nowhere => .error .malformedSpan
      | .unary =>
        match evalSpan s n (u :: toks) with
        | .error e => .error e
        | .ok v => applyUnary s t.tag v
      | .binary k =>
        match (t :: u :: toks)[k]? with
        | none => .error .malformedSpan
        | some op =>
          if k = 0 ∨ k + 1 = (t :: u :: toks).length then .error .malformedSpan
          else
            match evalSpan s n ((t :: u :: toks).take k) with
            | .error e => .error e
            | .ok a =>
              match evalSpan s n ((t :: u :: toks).drop (k + 1)) with
              | .error e => .error e
              | .ok b => applyBinary op.tag a b

/-- The checks and the recursion on a token stream (R251). -/
def evaluateTokens (s : State) (toks : List Token) : Except EvalFailure Word :=
  if balanced toks = false then .error .unbalancedParens
  else if toks = [] then .error .malformedSpan
  else evalSpan s toks.length (disambiguate toks)

/-- evaluate(text) (R250, R251): Ok(v) or Err(tag). It reads the state and returns no state (R275). -/
def evaluate (s : State) (text : List Byte) : Except EvalFailure Word :=
  match tokenize text with
  | .error e => .error e
  | .ok toks => evaluateTokens s toks

/-- The source's pair, the projection of the result (R250, C8): the signed value and success. The
value on failure is 0 (D41, log 15). -/
def evaluatePair (s : State) (text : List Byte) : Int × Bool :=
  match evaluate s text with
  | .ok v => (v.toInt, true)
  | .error _ => (0, false)

end Sys2Proof.Machine
end

