-- ==== Sys2Proof/Machine/Interface.lean ====
section
/-! DEFINITION. Interface.lean: the ports the host calls between steps (spec/40_engine_cycle.md R105,
R106) and the boot sequence (spec/70_reset_and_hazards.md R332). `step` is in Step.lean, `evaluate` in
Evaluator.lean. A call outside an interface's domain is refused by name (R22, R44, A14 to A16).
DEDUCED (log 11): the host acts only between steps, by these calls (Session.lean); step makes none. -/

namespace Sys2Proof.Machine

/-- getRegister(i) (R22, R105); the outcome holds the value returned. -/
def State.getRegister (s : State) (i : Nat) : Host.Outcome Word Fault Refusal :=
  if i < 32 then .next (s.getReg (BitVec.ofNat 5 i)) else .refused (.registerIndex i)

/-- setRegister(i, v) (R22, R105): index 0 is a no-op. -/
def State.setRegister (s : State) (i : Nat) (v : Word) : Host.Outcome State Fault Refusal :=
  if i < 32 then .next (s.setReg (BitVec.ofNat 5 i) v) else .refused (.registerIndex i)

/-- getPC() (R25, R105). -/
def State.getPC (s : State) : Word := s.pc

/-- setPC(v) (R26, R105): the value must be 4-aligned. -/
def State.setPC (s : State) (v : Word) : Host.Outcome State Fault Refusal :=
  if aligned4 v then .next (s.jumpTo v) else .refused (.misalignedSetPC v)

/-- The width of n bytes, for n in 1, 2, 4 (R44). -/
def widthOfBytes (n : Nat) : Option Width :=
  if n = 1 then some .byte else if n = 2 then some .half else if n = 4 then some .word else none

/-- read(a, n) (R42, R44, R105); the outcome holds the raw bits returned. -/
def State.read (s : State) (a : Word) (n : Nat) : Host.Outcome Word Fault Refusal :=
  match widthOfBytes n with
  | none => .refused (.accessWidth n)
  | some w =>
    match s.memRead a w with
    | none => .fault (.outOfRange a)
    | some v => .next v

/-- write(a, n, v) (R43, R44, R105). -/
def State.write (s : State) (a : Word) (n : Nat) (v : Word) : Host.Outcome State Fault Refusal :=
  match widthOfBytes n with
  | none => .refused (.accessWidth n)
  | some w =>
    match s.memWrite a w v with
    | none => .fault (.outOfRange a)
    | some s' => .next s'

/-- The termination report: status, exit_code and trap_value (R105). -/
def State.report (s : State) : RunStatus × Word × Word := (s.status, s.exitCode, s.trapValue)

/-- The calls by which the host changes the state between steps (R106). -/
inductive HostCall where
  | setRegister (i : Nat) (v : Word)
  | setPC (v : Word)
  | write (a : Word) (n : Nat) (v : Word)
deriving DecidableEq, Repr

/-- One such call. -/
def State.hostCall (s : State) : HostCall → Host.Outcome State Fault Refusal
  | .setRegister i v => s.setRegister i v
  | .setPC v => s.setPC v
  | .write a n v => s.write a n v

/-- A sequence of calls that all succeed, as image loading and boot are (R332); the first that fails ends
it. A host that goes on after a failure is a session (Session.lean). -/
def State.hostCalls (s : State) : List HostCall → Host.Outcome State Fault Refusal
  | [] => .next s
  | c :: cs =>
    match s.hostCall c with
    | .next s' => s'.hostCalls cs
    | .fault r => .fault r
    | .refused r => .refused r

/-- The calls that load an image, byte by byte from address a (R332 step 1). -/
def imageCalls (a : Word) : List Byte → List HostCall
  | [] => []
  | b :: bs => .write a 1 (b.setWidth 32) :: imageCalls (a + 1#32) bs

end Sys2Proof.Machine
end

