-- ==== Sys2Proof/Machine/Session.lean ====
section
/-! DEFINITION. Session.lean: the host and the engine, one move after the other (spec/40_engine_cycle.md
R105, R106): steps, and between them the host's changes and inspections, in any order the host likes.
A move is whole before the next begins, so no host access overlaps a step (R52). A claim about a run
under a debugger is a claim about a session; `Sys2Proof.core.run` is the session of steps alone (R104). -/

namespace Sys2Proof.Machine

/-- The calls by which the host reads the machine, `evaluate` and the termination report among them
(R105; R106, inspection and termination). -/
inductive HostQuery where
  | getRegister (i : Nat)
  | getPC
  | registerIndexByName (name : List Byte)
  | read (a : Word) (n : Nat)
  | evaluate (text : List Byte)
  | report
deriving DecidableEq, Repr

/-- One move of a session (R106). -/
inductive HostMove where
  | step
  | change (c : HostCall)
  | inspect (q : HostQuery)
deriving DecidableEq, Repr

/-- What a move gives back to the host (R105). -/
inductive HostReply where
  /-- The status after a step. -/
  | status (status : RunStatus)
  /-- A change was made. -/
  | done
  /-- A read or a write answered MemoryFault. -/
  | memoryFault
  | word (v : Word)
  /-- registerIndexByName: none is "not found". -/
  | index (found : Option Reg)
  /-- evaluate: the value, or its failure tag (R250). -/
  | value (result : Except EvalFailure Word)
  | report (status : RunStatus) (exitCode trapValue : Word)
deriving DecidableEq, Repr

/-- The reply to a call that returns a word; a failed read gives MemoryFault. -/
def wordReply : Host.Outcome Word Fault Refusal → Host.Outcome HostReply Fault Refusal
  | .next v => .next (.word v)
  | .fault _ => .next .memoryFault
  | .refused r => .refused r

/-- What an inspection gives (R106): it reads the state and returns none. -/
def State.answer (s : State) : HostQuery → Host.Outcome HostReply Fault Refusal
  | .getRegister i => wordReply (s.getRegister i)
  | .getPC => .next (.word s.getPC)
  | .registerIndexByName name => .next (.index (registerIndexByName name))
  | .read a n => wordReply (s.read a n)
  | .evaluate text => .next (.value (evaluate s text))
  | .report => .next (.report s.report.1 s.report.2.1 s.report.2.2)

/-- One move: what the host gets back, and the state it leaves. A write that fails has stored nothing,
and the host may go on (R43). A call outside its interface's domain is no move of the host (R106's
reading rule: a duty the host is assumed to keep has no move). -/
def State.serve (s : State) : HostMove → Host.Outcome (HostReply × State) Fault Refusal
  | .step =>
    match step s with
    | .next t => .next (.status t.status, t)
    | .fault r => .fault r
    | .refused r => .refused r
  | .change c =>
    match s.hostCall c with
    | .next t => .next (.done, t)
    | .fault _ => .next (.memoryFault, s)
    | .refused r => .refused r
  | .inspect q =>
    match s.answer q with
    | .next r => .next (r, s)
    | .fault r => .fault r
    | .refused r => .refused r

/-- A session from s: the replies in order, and the state after the last move. -/
def State.session (s : State) : List HostMove → Host.Outcome (List HostReply × State) Fault Refusal
  | [] => .next ([], s)
  | m :: ms =>
    match s.serve m with
    | .fault r => .fault r
    | .refused r => .refused r
    | .next (reply, t) =>
      match t.session ms with
      | .fault r => .fault r
      | .refused r => .refused r
      | .next (replies, u) => .next (reply :: replies, u)

end Sys2Proof.Machine
end

