-- ==== Sys2Proof/Safety.lean ====
section
/-! DEFINITION. Safety.lean: the terms claims use: the invariant of a state, what an effect leaves
unchanged, what an instruction may write, and what a run is (spec/40_engine_cycle.md R104). -/

namespace Sys2Proof.Machine

/-! ### The invariant -/

/-- What holds of every state the engine and the host's calls reach: legal parameters (R8), a memory
list in canonical form that lists only addresses of the region (R40), a 4-aligned pc (R26). -/
structure State.Inv (s : State) : Prop where
  cfgLegal : s.cfg.wf = true
  memCanonical : Memory.wf s.mem
  memInRegion : Memory.within s.cfg s.mem
  pcAligned : s.pc.toNat % 4 = 0

/-- The n bytes at a lie in the region, in unbounded integers (R41). -/
abbrev InRegion (s : State) (a : Word) (n : Nat) : Prop :=
  s.cfg.memBase.toNat ≤ a.toNat ∧ a.toNat + n ≤ s.cfg.memBase.toNat + s.cfg.memSize

/-- The step would hand an ECALL to the collaborator (R211). -/
abbrev State.handsOver (s : State) : Prop := s.fetch = .run .ecall ∧ s.cfg.ecallHostGiven = true

/-- A step from s that hands an ECALL over gets an answer whose pc is 4-aligned. Nothing in the spec
makes the collaborator give one (R211), so claims that need it say so. -/
def State.HostKeepsPcAligned (s : State) : Prop :=
  s.handsOver → (Config.ecallHost s.hostDraws s).pc.toNat % 4 = 0

/-- The host has done R332 before the first step. -/
structure State.BootReady (s : State) : Prop where
  running : s.status = .running
  pcAligned : s.pc.toNat % 4 = 0
  pcInRegion : InRegion s s.pc 4

/-! ### What stays the same from s to t -/

def SameRegisters (s t : State) : Prop := ∀ r, t.getReg r = s.getReg r

def SameBytes (s t : State) : Prop := ∀ a, t.byteAt a = s.byteAt a

/-- Every byte outside the n bytes at a. -/
def SameBytesOutside (s t : State) (a n : Nat) : Prop :=
  ∀ b, b < a ∨ a + n ≤ b → t.byteAt b = s.byteAt b

/-- Status, exit_code and trap_value. -/
def SameReport (s t : State) : Prop :=
  t.status = s.status ∧ t.exitCode = s.exitCode ∧ t.trapValue = s.trapValue

/-- The parameters and the model's own counter. -/
def SameModel (s t : State) : Prop := t.cfg = s.cfg ∧ t.hostDraws = s.hostDraws

/-! ### Effects -/

/-- x[rd] := v (nothing for x0), the pc to `next`, and nothing else. -/
structure RegisterEffect (s t : State) (rd : Reg) (v next : Word) : Prop where
  zero : t.getReg 0 = 0
  written : rd ≠ 0 → t.getReg rd = v
  others : ∀ r, r ≠ rd → t.getReg r = s.getReg r
  pc : t.pc = next
  bytes : SameBytes s t
  report : SameReport s t
  model : SameModel s t

/-- The pc to `next`, and nothing else. -/
structure PcEffect (s t : State) (next : Word) : Prop where
  regs : SameRegisters s t
  pc : t.pc = next
  bytes : SameBytes s t
  report : SameReport s t
  model : SameModel s t

/-- The low n bytes of v at a.., little-endian, the pc to pc + 4, and nothing else. -/
structure StoreEffect (s t : State) (a : Word) (n : Nat) (v : Word) : Prop where
  stored : ∀ k, k < n → t.byteAt (a.toNat + k) = v.extractLsb' (8 * k) 8
  outside : SameBytesOutside s t a.toNat n
  regs : SameRegisters s t
  pc : t.pc = s.pc + 4
  report : SameReport s t
  model : SameModel s t

/-- `raise C(v)` (R308): status TRAPPED(C), trap_value v, and nothing else, the pc included. -/
structure TrapEffect (s t : State) (c : TrapCode) (v : Word) : Prop where
  status : t.status = .trapped c
  value : t.trapValue = v
  regs : SameRegisters s t
  pc : t.pc = s.pc
  bytes : SameBytes s t
  exitCode : t.exitCode = s.exitCode
  model : SameModel s t

/-- `halt(code)` (R181): status HALTED, exit_code, and nothing else, the pc included. -/
structure HaltEffect (s t : State) (code : Word) : Prop where
  status : t.status = .halted
  exitCode : t.exitCode = code
  regs : SameRegisters s t
  pc : t.pc = s.pc
  bytes : SameBytes s t
  trapValue : t.trapValue = s.trapValue
  model : SameModel s t

/-! ### What an instruction may write -/

/-- The one register an instruction writes (R23); none writes two. An ECALL that is handed over is the
collaborator's, and no instruction's own write. -/
def dest : Instr → Option Reg
  | .lui rd _ | .auipc rd _ => some rd
  | .addi rd _ _ | .slti rd _ _ | .sltiu rd _ _ | .xori rd _ _ | .ori rd _ _ | .andi rd _ _ => some rd
  | .slli rd _ _ | .srli rd _ _ | .srai rd _ _ => some rd
  | .add rd _ _ | .sub rd _ _ | .sll rd _ _ | .slt rd _ _ | .sltu rd _ _ => some rd
  | .xor rd _ _ | .srl rd _ _ | .sra rd _ _ | .or rd _ _ | .and rd _ _ => some rd
  | .jal rd _ | .jalr rd _ _ => some rd
  | .lb rd _ _ | .lh rd _ _ | .lw rd _ _ | .lbu rd _ _ | .lhu rd _ _ => some rd
  | .beq _ _ _ | .bne _ _ _ | .blt _ _ _ | .bge _ _ _ | .bltu _ _ _ | .bgeu _ _ _ => none
  | .sb _ _ _ | .sh _ _ _ | .sw _ _ _ => none
  | .ecall | .ebreak | .nemuTrap _ _ _ _ _ => none

/-- The address and the number of the bytes an instruction stores to (R196 to R198). -/
def storedBytes (s : State) : Instr → Option (Nat × Nat)
  | .sb rs1 _ imm => some ((s.effAddr rs1 imm).toNat, 1)
  | .sh rs1 _ imm => some ((s.effAddr rs1 imm).toNat, 2)
  | .sw rs1 _ imm => some ((s.effAddr rs1 imm).toNat, 4)
  | .lui _ _ | .auipc _ _ => none
  | .addi _ _ _ | .slti _ _ _ | .sltiu _ _ _ | .xori _ _ _ | .ori _ _ _ | .andi _ _ _ => none
  | .slli _ _ _ | .srli _ _ _ | .srai _ _ _ => none
  | .add _ _ _ | .sub _ _ _ | .sll _ _ _ | .slt _ _ _ | .sltu _ _ _ => none
  | .xor _ _ _ | .srl _ _ _ | .sra _ _ _ | .or _ _ _ | .and _ _ _ => none
  | .jal _ _ | .jalr _ _ _ => none
  | .lb _ _ _ | .lh _ _ _ | .lw _ _ _ | .lbu _ _ _ | .lhu _ _ _ => none
  | .beq _ _ _ | .bne _ _ _ | .blt _ _ _ | .bge _ _ _ | .bltu _ _ _ | .bgeu _ _ _ => none
  | .ecall | .ebreak | .nemuTrap _ _ _ _ _ => none

/-- ADVANCE-PC of R103: the target of a taken transfer, else pc + 4. -/
def nextPc (s : State) : Instr → Word
  | .jal _ imm => s.pc + imm
  | .jalr _ rs1 imm => BitVec.ofNat 32 ((s.getReg rs1 + imm).toNat / 2 * 2)
  | .beq rs1 rs2 imm => if s.getReg rs1 = s.getReg rs2 then s.pc + imm else s.pc + 4
  | .bne rs1 rs2 imm => if s.getReg rs1 ≠ s.getReg rs2 then s.pc + imm else s.pc + 4
  | .blt rs1 rs2 imm => if (s.getReg rs1).toInt < (s.getReg rs2).toInt then s.pc + imm else s.pc + 4
  | .bge rs1 rs2 imm => if (s.getReg rs2).toInt ≤ (s.getReg rs1).toInt then s.pc + imm else s.pc + 4
  | .bltu rs1 rs2 imm => if (s.getReg rs1).toNat < (s.getReg rs2).toNat then s.pc + imm else s.pc + 4
  | .bgeu rs1 rs2 imm => if (s.getReg rs2).toNat ≤ (s.getReg rs1).toNat then s.pc + imm else s.pc + 4
  | .lui _ _ | .auipc _ _ => s.pc + 4
  | .addi _ _ _ | .slti _ _ _ | .sltiu _ _ _ | .xori _ _ _ | .ori _ _ _ | .andi _ _ _ => s.pc + 4
  | .slli _ _ _ | .srli _ _ _ | .srai _ _ _ => s.pc + 4
  | .add _ _ _ | .sub _ _ _ | .sll _ _ _ | .slt _ _ _ | .sltu _ _ _ => s.pc + 4
  | .xor _ _ _ | .srl _ _ _ | .sra _ _ _ | .or _ _ _ | .and _ _ _ => s.pc + 4
  | .lb _ _ _ | .lh _ _ _ | .lw _ _ _ | .lbu _ _ _ | .lhu _ _ _ => s.pc + 4
  | .sb _ _ _ | .sh _ _ _ | .sw _ _ _ => s.pc + 4
  | .ecall | .ebreak | .nemuTrap _ _ _ _ _ => s.pc + 4

/-- LUI, AUIPC, OP-IMM and OP: the computational instructions of R141. -/
def isCompute : Instr → Bool
  | .lui _ _ | .auipc _ _ => true
  | .addi _ _ _ | .slti _ _ _ | .sltiu _ _ _ | .xori _ _ _ | .ori _ _ _ | .andi _ _ _ => true
  | .slli _ _ _ | .srli _ _ _ | .srai _ _ _ => true
  | .add _ _ _ | .sub _ _ _ | .sll _ _ _ | .slt _ _ _ | .sltu _ _ _ => true
  | .xor _ _ _ | .srl _ _ _ | .sra _ _ _ | .or _ _ _ | .and _ _ _ => true
  | .jal _ _ | .jalr _ _ _ => false
  | .beq _ _ _ | .bne _ _ _ | .blt _ _ _ | .bge _ _ _ | .bltu _ _ _ | .bgeu _ _ _ => false
  | .lb _ _ _ | .lh _ _ _ | .lw _ _ _ | .lbu _ _ _ | .lhu _ _ _ => false
  | .sb _ _ _ | .sh _ _ _ | .sw _ _ _ => false
  | .ecall | .ebreak | .nemuTrap _ _ _ _ _ => false

/-! ### Runs -/

/-- The run from s ends in t after k steps (R104): the first of its states that is not RUNNING. -/
def RunEnds (s t : State) (k : Nat) : Prop :=
  Sys2Proof.core.run k s = .next t ∧ t.status ≠ .running ∧
    ∀ j, j < k → ∃ u : State, Sys2Proof.core.run j s = .next u ∧ u.status = .running

/-- A safe run of k steps from s: no step of it ends TRAPPED. A halt is no failure (C2). -/
def SafeFor (s : State) (k : Nat) : Prop :=
  ∀ j, j ≤ k → ∃ u : State, Sys2Proof.core.run j s = .next u ∧ ∀ c, u.status ≠ .trapped c

/-- Instructions executed one after the other, as R80's expansions are. -/
def execAll : List Instr → State → Host.Outcome State Fault Refusal
  | [], s => .next s
  | i :: is, s =>
    match exec i s with
    | .next t => execAll is t
    | .fault r => .fault r
    | .refused r => .refused r

/-! ### The evaluator's claims -/

/-- A text of one or more bytes, all of them characters of the list. -/
def madeOf (chars : String) (m : List Byte) : Prop := m ≠ [] ∧ ∀ b ∈ m, b ∈ bytesOf chars

/-- The digit characters of R222 and R257, in the order of their values: in base 16 the letters count in
either case. -/
def lowerDigits : String := "0123456789abcdef"
def upperDigits : String := "0123456789ABCDEF"

/-- The bytes a register name is made of (R222). -/
def nameChars : String :=
  "ABCDEFGHIJKLMNOPQRSTUVWXYZ" ++ "abcdefghijklmnopqrstuvwxyz" ++ "0123456789_"

/-- R222's table: which texts a tag stands for. NEG and DEREF stand for none (R221). -/
def TokenTag.isFor : TokenTag → List Byte → Prop
  | .plus, m => m = bytesOf "+"
  | .eq, m => m = bytesOf "=="
  | .neq, m => m = bytesOf "!="
  | .star, m => m = bytesOf "*"
  | .slash, m => m = bytesOf "/"
  | .minus, m => m = bytesOf "-"
  | .lparen, m => m = bytesOf "("
  | .rparen, m => m = bytesOf ")"
  | .and, m => m = bytesOf "&&"
  | .or, m => m = bytesOf "||"
  | .hex, m => ∃ digits, madeOf (lowerDigits ++ upperDigits) digits ∧ m = bytesOf "0x" ++ digits
  | .dec, m => madeOf "0123456789" m
  | .reg, m => ∃ name, madeOf nameChars name ∧ m = bytesOf "$" ++ name
  | .neg, _ | .deref, _ => False

/-- The characters that would lengthen a lexeme of the tag (R223: greedy within its rule). -/
def TokenTag.moreChars : TokenTag → String
  | .hex => lowerDigits ++ upperDigits
  | .dec => "0123456789"
  | .reg => nameChars
  | .plus | .eq | .neq | .star | .slash | .minus | .lparen | .rparen | .and | .or => ""
  | .neg | .deref => ""

/-- The bytes are a numeral of these digits, most significant first, in the base (R257). Its value is
`Nat.ofDigits base digits.reverse`. -/
def isNumeral (base : Nat) (digits : List Nat) (m : List Byte) : Prop :=
  digits ≠ [] ∧ List.Forall₂ (fun d b =>
    d < base ∧ ((bytesOf lowerDigits)[d]? = some b ∨ (bytesOf upperDigits)[d]? = some b)) digits m

/-- The tags R254 lists before which a `-` or a `*` is unary: any operator, and `(`. -/
def unaryContext : List TokenTag :=
  [.plus, .minus, .star, .slash, .eq, .neq, .and, .or, .neg, .deref, .lparen]

/-- The place k of a stream is one where a `-` or a `*` is unary (R254). -/
def unaryPlace (toks : List Token) (k : Nat) : Prop :=
  k = 0 ∨ ∃ p, toks[k - 1]? = some p ∧ p.tag ∈ unaryContext

/-- The largest precedence number of a binary operator outside all parentheses of a span that starts
at the given depth; 0 if there is none (R255, R261). -/
def topPrec : Int → List Token → Nat
  | _, [] => 0
  | d, t :: toks =>
    if d = 0 ∧ t.tag.isBinary then max t.tag.prec (topPrec d toks)
    else topPrec (d + t.tag.depthChange) toks

/-- The result R263 gives a binary split: the left operand's failure first, then the right one's. -/
def combine (op : TokenTag) (a b : Except EvalFailure Word) : Except EvalFailure Word :=
  match a, b with
  | .error e, _ => .error e
  | .ok _, .error e => .error e
  | .ok x, .ok y => applyBinary op x y

end Sys2Proof.Machine
end

