-- ==== Sys2Proof/Certificates/Slice0/Obligations.lean ====
section
/-! DEFINITION. Obligations.lean: the statements for the provers. Each docstring names the rules of spec/
it formalises. `log n` is notes/assumptions/n.md. -/

open Sys2Proof Sys2Proof.Machine

/-! ### Registers, memory, creation -/

/-- R22 (and R21): getRegister and setRegister for every index, and the refusal outside 0..31. -/
def Obligations.HostRegisterAccess : Prop :=
  ∀ (s : State) (i : Nat) (v : Word),
    (i < 32 → ∃ t, s.setRegister i v = .next t ∧
      t.getRegister 0 = .next 0 ∧ (i ≠ 0 → t.getRegister i = .next v) ∧
      (∀ j, j < 32 → j ≠ i → t.getRegister j = s.getRegister j) ∧
      t.pc = s.pc ∧ SameBytes s t ∧ SameReport s t ∧ SameModel s t) ∧
    s.getRegister 0 = .next 0 ∧
    (32 ≤ i → s.setRegister i v = .refused (.registerIndex i) ∧ s.getRegister i = .refused (.registerIndex i))

/-- R34: creation, for every parameter set, entry point, register draw and image. -/
def Obligations.CreationSetsEveryField : Prop :=
  ∀ (cfg : Config.Params) (entry : Word) (draw : Vector Word 31) (image : Memory),
    (State.create cfg entry draw image).getReg 0 = 0 ∧
    (∀ (k : Nat) (hk : k < 31), (State.create cfg entry draw image).getReg (BitVec.ofNat 5 (k + 1)) = draw[k]) ∧
    (State.create cfg entry draw image).pc = entry ∧
    (State.create cfg entry draw image).status = .running ∧
    (State.create cfg entry draw image).exitCode = 0 ∧
    (State.create cfg entry draw image).trapValue = 0 ∧
    (State.create cfg entry draw image).mem = image

/-- The invariant holds right after reset, and the machine is ready to boot. The parameter values, the
entry point and the empty memory are the model's choices (log 1, 2, 4). -/
def Obligations.ResetMeetsInvariant : Prop := State.reset.Inv ∧ State.reset.BootReady

/-- R41: in_range holds exactly when every byte the access touches is in the region, with no wrap; an
access out of range fails on either port. -/
def Obligations.InRangeIsEveryByteInRegion : Prop :=
  (∀ (p : Config.Params) (a : Word) (n : Nat), 1 ≤ n →
    (inRange p a n = true ↔
      ∀ k, k < n → p.memBase.toNat ≤ a.toNat + k ∧ a.toNat + k < p.memBase.toNat + p.memSize)) ∧
  (∀ (s : State) (a : Word) (w : Width) (v : Word), inRange s.cfg a w.bytes = false →
    s.memRead a w = none ∧ s.memWrite a w v = none)

/-- R42: the read port: the bytes little-endian, zero-extended; or the failure. -/
def Obligations.ReadPortIsLittleEndian : Prop :=
  ∀ (s : State) (a : Word) (w : Width),
    (InRegion s a w.bytes → ∃ v, s.memRead a w = some v ∧
      v.toNat = ((List.range w.bytes).map fun k => (s.byteAt (a.toNat + k)).toNat * 256 ^ k).sum) ∧
    (¬ InRegion s a w.bytes → s.memRead a w = none)

/-- R45: what reads of mixed widths at neighbouring addresses share, under legal parameters (R8), where
the region does not run past 2^32. -/
def Obligations.MixedWidthReadsAgree : Prop :=
  ∀ (s : State) (a : Word) (v : Word), s.cfg.wf = true → s.memRead a .word = some v →
    (∀ k : Nat, k < 4 → s.memRead (a + BitVec.ofNat 32 k) .byte = some ((v.extractLsb' (8 * k) 8).setWidth 32)) ∧
    s.memRead a .half = some ((v.extractLsb' 0 16).setWidth 32) ∧
    s.memRead (a + 2) .half = some ((v.extractLsb' 16 16).setWidth 32)

/-- R43: the write port: the bytes of the value, no other byte and nothing else; or the failure with
no byte written. Bytes are read back in a memory in canonical form. -/
def Obligations.WritePortStoresItsBytes : Prop :=
  ∀ (s : State) (a : Word) (w : Width) (v : Word),
    (Memory.wf s.mem → InRegion s a w.bytes → ∃ t, s.memWrite a w v = some t ∧
      (∀ k, k < w.bytes → t.byteAt (a.toNat + k) = v.extractLsb' (8 * k) 8) ∧
      SameBytesOutside s t a.toNat w.bytes ∧ SameRegisters s t ∧ t.pc = s.pc ∧ SameReport s t ∧ SameModel s t) ∧
    (¬ InRegion s a w.bytes → s.memWrite a w v = none)

/-- R47: a read gives the value last written, and a read that shares no byte with the write is not
disturbed. -/
def Obligations.ReadAfterWrite : Prop :=
  ∀ (s t : State) (a : Word) (w : Width) (v : Word), Memory.wf s.mem → s.memWrite a w v = some t →
    t.memRead a w = some ((v.setWidth (8 * w.bytes)).setWidth 32) ∧
    ∀ (b : Word) (u : Width), b.toNat + u.bytes ≤ a.toNat ∨ a.toNat + w.bytes ≤ b.toNat →
      t.memRead b u = s.memRead b u

/-! ### Decoding and encoding -/

/-- R72: on legally constructed fields decode undoes encode, and encode undoes decode on every word
that decodes. -/
def Obligations.FieldsRoundTrip : Prop :=
  (∀ (b : Bool) (f : Fields), f.legal b = true → decodeFields b (encodeFields f) = .ok f) ∧
  (∀ (b : Bool) (w : Word) (f : Fields), decodeFields b w = .ok f → encodeFields f = w ∧ f.legal b = true)

/-- Decode of encode is the instruction, for every well-formed instruction, every operand at every
value its encoding admits; with TRAP_WORD_6B false, for every one but the trap word. -/
def Obligations.DecodeOfEncode : Prop :=
  ∀ i : Instr, i.wf = true →
    decode true (encode i) = .ok i ∧
    ((∀ funct7 rs2 rs1 funct3 rd, i ≠ .nemuTrap funct7 rs2 rs1 funct3 rd) → decode false (encode i) = .ok i)

/-- Encode of decode is the word: no bit of a word the decoder accepts is dropped, and what it gives
is well-formed. -/
def Obligations.EncodeOfDecode : Prop :=
  ∀ (b : Bool) (w : Word) (i : Instr), decode b w = .ok i → encode i = w ∧ i.wf = true

/-- The decoder against spec/opcode_table.json: a word meets the match and mask of exactly the row of
the instruction it decodes to; the trap word's row counts only with TRAP_WORD_6B. -/
def Obligations.DecoderIsTheOpcodeTable : Prop :=
  (∀ (b : Bool) (w : Word) (i : Instr), decode b w = .ok i → (rowOf i).covers w) ∧
  (∀ (row : OpcodeRow) (w : Word), row ∈ opcodeTable → row.covers w →
    ∃ i, decode true w = .ok i ∧ rowOf i = row) ∧
  (∀ w : Word, w.extractLsb' 0 7 ≠ 0b1101011#7 → decode false w = decode true w)

/-- R73: the table has no overlapping entries. -/
def Obligations.DispatchEntriesNeverOverlap : Prop :=
  ∀ (f : Fields) (j k : Nat) (hj : j < dispatchTable.length) (hk : k < dispatchTable.length),
    dispatchTable[j].matches f = true → dispatchTable[k].matches f = true → j = k

/-- R75: every class of illegal word is rejected, whatever TRAP_WORD_6B is (item 2 names the one
opcode it decides), and traps ILLEGAL with the word as trap_value when it is fetched. -/
def Obligations.IllegalEncodingsAreRejected : Prop :=
  ∀ (s : State) (w : Word),
    (w.extractLsb' 0 2 ≠ 3#2 ∨
     (w.extractLsb' 0 7 ∉ [0x37#7, 0x17#7, 0x6F#7, 0x67#7, 0x63#7, 0x03#7, 0x23#7, 0x13#7, 0x33#7, 0x73#7] ∧
       (w.extractLsb' 0 7 = 0x6B#7 → s.cfg.trapWord6B = false)) ∨
     (w.extractLsb' 0 7 = 0x63#7 ∧ w.extractLsb' 12 3 ∈ [2#3, 3#3]) ∨
     (w.extractLsb' 0 7 = 0x03#7 ∧ w.extractLsb' 12 3 ∈ [3#3, 6#3, 7#3]) ∨
     (w.extractLsb' 0 7 = 0x23#7 ∧ w.extractLsb' 12 3 ∈ [3#3, 4#3, 5#3, 6#3, 7#3]) ∨
     (w.extractLsb' 0 7 = 0x67#7 ∧ w.extractLsb' 12 3 ≠ 0#3) ∨
     (w.extractLsb' 0 7 = 0x13#7 ∧ w.extractLsb' 12 3 = 1#3 ∧ w.extractLsb' 25 7 ≠ 0#7) ∨
     (w.extractLsb' 0 7 = 0x13#7 ∧ w.extractLsb' 12 3 = 5#3 ∧ w.extractLsb' 25 7 ∉ [0#7, 0x20#7]) ∨
     (w.extractLsb' 0 7 = 0x33#7 ∧ w.extractLsb' 25 7 ∉ [0#7, 0x20#7]) ∨
     (w.extractLsb' 0 7 = 0x33#7 ∧ w.extractLsb' 25 7 = 0x20#7 ∧ w.extractLsb' 12 3 ∉ [0#3, 5#3]) ∨
     (w.extractLsb' 0 7 = 0x73#7 ∧ w.extractLsb' 12 3 ≠ 0#3) ∨
     (w.extractLsb' 0 7 = 0x73#7 ∧ w.extractLsb' 12 3 = 0#3 ∧ w ≠ 0x00000073#32 ∧ w ≠ 0x00100073#32)) →
    (∃ e, decode s.cfg.trapWord6B w = .error e) ∧
    (s.status = .running → InRegion s s.pc 4 →
      w = s.byteAt (s.pc.toNat + 3) ++ s.byteAt (s.pc.toNat + 2) ++ s.byteAt (s.pc.toNat + 1) ++ s.byteAt s.pc.toNat →
      ∃ t, step s = .next t ∧ TrapEffect s t .illegal w)

/-- The five immediates (R64 to R68): the sign-extended ones as integers, each by its range and by the
bits of the word it is made of, every bit at its place; the upper one with its low twelve bits 0. -/
def Obligations.ImmediateRanges : Prop :=
  ∀ w : Word,
    (-2048 ≤ (immI w).toInt ∧ (immI w).toInt ≤ 2047 ∧ (immI w).toInt % 4096 = ((w.toNat / 2 ^ 20 : Nat) : Int)) ∧
    (-2048 ≤ (immS w).toInt ∧ (immS w).toInt ≤ 2047 ∧
      (immS w).toInt % 4096 = ((w.toNat / 2 ^ 25 * 2 ^ 5 + w.toNat / 2 ^ 7 % 2 ^ 5 : Nat) : Int)) ∧
    (-4096 ≤ (immB w).toInt ∧ (immB w).toInt ≤ 4094 ∧
      (immB w).toInt % 8192 = ((w.toNat / 2 ^ 31 * 2 ^ 12 + w.toNat / 2 ^ 7 % 2 * 2 ^ 11 +
        w.toNat / 2 ^ 25 % 2 ^ 6 * 2 ^ 5 + w.toNat / 2 ^ 8 % 2 ^ 4 * 2 : Nat) : Int)) ∧
    ((immU w).toNat = w.toNat / 2 ^ 12 * 2 ^ 12) ∧
    (-1048576 ≤ (immJ w).toInt ∧ (immJ w).toInt ≤ 1048574 ∧
      (immJ w).toInt % 2097152 = ((w.toNat / 2 ^ 31 * 2 ^ 20 + w.toNat / 2 ^ 12 % 2 ^ 8 * 2 ^ 12 +
        w.toNat / 2 ^ 20 % 2 * 2 ^ 11 + w.toNat / 2 ^ 21 % 2 ^ 10 * 2 : Nat) : Int))

/-- Sample words of the spec's own decode vectors, one or more of every format, decode to what they
stand for. Which of the two errors names a rejected word is the model's choice (log 12). -/
def Obligations.SampleWordsDecode : Prop :=
  decode false 0x407302B3#32 = .ok (.sub 5 6 7) ∧
  decode false 0x80030293#32 = .ok (.addi 5 6 0xFFFFF800#32) ∧
  decode false 0x41F35293#32 = .ok (.srai 5 6 31) ∧
  decode false 0xFE730FA3#32 = .ok (.sb 6 7 0xFFFFFFFF#32) ∧
  decode false 0x80628063#32 = .ok (.beq 5 6 0xFFFFF000#32) ∧
  decode false 0xFFFFF2B7#32 = .ok (.lui 5 0xFFFFF000#32) ∧
  decode false 0x8000006F#32 = .ok (.jal 0 0xFFF00000#32) ∧
  decode false 0x0000006B#32 = .error (.illegalInstruction 0x0000006B#32) ∧
  decode false 0x30200073#32 = .error (.noDispatchEntry 0x30200073#32)

/-! ### Compute instructions -/

/-- R120: LUI: its encoding and its effect; the low twelve bits of the result are 0. -/
def Obligations.LuiSetsUpperImmediate : Prop :=
  (∀ (b : Bool) (w : Word), w.extractLsb' 0 7 = 0b0110111#7 →
    decode b w = .ok (.lui (w.extractLsb' 7 5) (immU w)) ∧ (immU w).toNat = w.toNat / 2 ^ 12 * 2 ^ 12) ∧
  (∀ (s : State) (rd : Reg) (imm : Word),
    ∃ t, exec (.lui rd imm) s = .next t ∧ RegisterEffect s t rd imm (s.pc + 4))

/-- R121: AUIPC: its encoding, and pc of the instruction plus the immediate. -/
def Obligations.AuipcAddsToPc : Prop :=
  (∀ (b : Bool) (w : Word), w.extractLsb' 0 7 = 0b0010111#7 →
    decode b w = .ok (.auipc (w.extractLsb' 7 5) (immU w))) ∧
  (∀ (s : State) (rd : Reg) (imm : Word),
    ∃ t, exec (.auipc rd imm) s = .next t ∧ RegisterEffect s t rd (s.pc + imm) (s.pc + 4))

/-- R122 to R127: ADDI, SLTI, SLTIU, XORI, ORI and ANDI: their encodings, their results, and that they
change nothing else. -/
def Obligations.ImmediateOpsCompute : Prop :=
  (∀ (b : Bool) (w : Word), w.extractLsb' 0 7 = 0b0010011#7 →
    (w.extractLsb' 12 3 = 0b000#3 → decode b w = .ok (.addi (w.extractLsb' 7 5) (w.extractLsb' 15 5) (immI w))) ∧
    (w.extractLsb' 12 3 = 0b010#3 → decode b w = .ok (.slti (w.extractLsb' 7 5) (w.extractLsb' 15 5) (immI w))) ∧
    (w.extractLsb' 12 3 = 0b011#3 → decode b w = .ok (.sltiu (w.extractLsb' 7 5) (w.extractLsb' 15 5) (immI w))) ∧
    (w.extractLsb' 12 3 = 0b100#3 → decode b w = .ok (.xori (w.extractLsb' 7 5) (w.extractLsb' 15 5) (immI w))) ∧
    (w.extractLsb' 12 3 = 0b110#3 → decode b w = .ok (.ori (w.extractLsb' 7 5) (w.extractLsb' 15 5) (immI w))) ∧
    (w.extractLsb' 12 3 = 0b111#3 → decode b w = .ok (.andi (w.extractLsb' 7 5) (w.extractLsb' 15 5) (immI w)))) ∧
  (∀ (s : State) (rd rs1 : Reg) (imm : Word) (i : Instr) (v : Word),
    (i = .addi rd rs1 imm ∧ v = s.getReg rs1 + imm) ∨
    (i = .slti rd rs1 imm ∧ v = if (s.getReg rs1).toInt < imm.toInt then 1 else 0) ∨
    (i = .sltiu rd rs1 imm ∧ v = if (s.getReg rs1).toNat < imm.toNat then 1 else 0) ∨
    (i = .xori rd rs1 imm ∧ v = s.getReg rs1 ^^^ imm) ∨
    (i = .ori rd rs1 imm ∧ v = s.getReg rs1 ||| imm) ∨
    (i = .andi rd rs1 imm ∧ v = s.getReg rs1 &&& imm) →
    ∃ t, exec i s = .next t ∧ RegisterEffect s t rd v (s.pc + 4))

/-- R128 to R130: SLLI, SRLI and SRAI: encodings, and results as integer arithmetic. -/
def Obligations.ImmediateShiftsCompute : Prop :=
  (∀ (b : Bool) (w : Word), w.extractLsb' 0 7 = 0b0010011#7 →
    (w.extractLsb' 12 3 = 0b001#3 → w.extractLsb' 25 7 = 0b0000000#7 →
      decode b w = .ok (.slli (w.extractLsb' 7 5) (w.extractLsb' 15 5) (w.extractLsb' 20 5))) ∧
    (w.extractLsb' 12 3 = 0b101#3 → w.extractLsb' 25 7 = 0b0000000#7 →
      decode b w = .ok (.srli (w.extractLsb' 7 5) (w.extractLsb' 15 5) (w.extractLsb' 20 5))) ∧
    (w.extractLsb' 12 3 = 0b101#3 → w.extractLsb' 25 7 = 0b0100000#7 →
      decode b w = .ok (.srai (w.extractLsb' 7 5) (w.extractLsb' 15 5) (w.extractLsb' 20 5))) ∧
    (w.extractLsb' 12 3 = 0b001#3 → w.extractLsb' 25 7 ≠ 0b0000000#7 → ∃ e, decode b w = .error e) ∧
    (w.extractLsb' 12 3 = 0b101#3 → w.extractLsb' 25 7 ∉ [0b0000000#7, 0b0100000#7] → ∃ e, decode b w = .error e)) ∧
  (∀ (s : State) (rd rs1 : Reg) (shamt : BitVec 5) (i : Instr) (v : Word),
    (i = .slli rd rs1 shamt ∧ v = BitVec.ofNat 32 ((s.getReg rs1).toNat * 2 ^ shamt.toNat)) ∨
    (i = .srli rd rs1 shamt ∧ v = BitVec.ofNat 32 ((s.getReg rs1).toNat / 2 ^ shamt.toNat)) ∨
    (i = .srai rd rs1 shamt ∧ v = BitVec.ofInt 32 ((s.getReg rs1).toInt / 2 ^ shamt.toNat)) →
    ∃ t, exec i s = .next t ∧ RegisterEffect s t rd v (s.pc + 4))

/-- R131, R132, R134 to R136, R139, R140: ADD, SUB, SLT, SLTU, XOR, OR and AND: their encodings and
their results. -/
def Obligations.RegisterOpsCompute : Prop :=
  (∀ (b : Bool) (w : Word), w.extractLsb' 0 7 = 0b0110011#7 →
    (w.extractLsb' 25 7 = 0b0000000#7 → w.extractLsb' 12 3 = 0b000#3 →
      decode b w = .ok (.add (w.extractLsb' 7 5) (w.extractLsb' 15 5) (w.extractLsb' 20 5))) ∧
    (w.extractLsb' 25 7 = 0b0100000#7 → w.extractLsb' 12 3 = 0b000#3 →
      decode b w = .ok (.sub (w.extractLsb' 7 5) (w.extractLsb' 15 5) (w.extractLsb' 20 5))) ∧
    (w.extractLsb' 25 7 = 0b0000000#7 → w.extractLsb' 12 3 = 0b010#3 →
      decode b w = .ok (.slt (w.extractLsb' 7 5) (w.extractLsb' 15 5) (w.extractLsb' 20 5))) ∧
    (w.extractLsb' 25 7 = 0b0000000#7 → w.extractLsb' 12 3 = 0b011#3 →
      decode b w = .ok (.sltu (w.extractLsb' 7 5) (w.extractLsb' 15 5) (w.extractLsb' 20 5))) ∧
    (w.extractLsb' 25 7 = 0b0000000#7 → w.extractLsb' 12 3 = 0b100#3 →
      decode b w = .ok (.xor (w.extractLsb' 7 5) (w.extractLsb' 15 5) (w.extractLsb' 20 5))) ∧
    (w.extractLsb' 25 7 = 0b0000000#7 → w.extractLsb' 12 3 = 0b110#3 →
      decode b w = .ok (.or (w.extractLsb' 7 5) (w.extractLsb' 15 5) (w.extractLsb' 20 5))) ∧
    (w.extractLsb' 25 7 = 0b0000000#7 → w.extractLsb' 12 3 = 0b111#3 →
      decode b w = .ok (.and (w.extractLsb' 7 5) (w.extractLsb' 15 5) (w.extractLsb' 20 5)))) ∧
  (∀ (s : State) (rd rs1 rs2 : Reg) (i : Instr) (v : Word),
    (i = .add rd rs1 rs2 ∧ v = s.getReg rs1 + s.getReg rs2) ∨
    (i = .sub rd rs1 rs2 ∧ v = s.getReg rs1 - s.getReg rs2) ∨
    (i = .slt rd rs1 rs2 ∧ v = if (s.getReg rs1).toInt < (s.getReg rs2).toInt then 1 else 0) ∨
    (i = .sltu rd rs1 rs2 ∧ v = if (s.getReg rs1).toNat < (s.getReg rs2).toNat then 1 else 0) ∨
    (i = .xor rd rs1 rs2 ∧ v = s.getReg rs1 ^^^ s.getReg rs2) ∨
    (i = .or rd rs1 rs2 ∧ v = s.getReg rs1 ||| s.getReg rs2) ∨
    (i = .and rd rs1 rs2 ∧ v = s.getReg rs1 &&& s.getReg rs2) →
    ∃ t, exec i s = .next t ∧ RegisterEffect s t rd v (s.pc + 4))

/-- R133, R137, R138: SLL, SRL and SRA: their encodings, and their results as integer arithmetic by the
low five bits of x[rs2]. -/
def Obligations.RegisterShiftsCompute : Prop :=
  (∀ (b : Bool) (w : Word), w.extractLsb' 0 7 = 0b0110011#7 →
    (w.extractLsb' 25 7 = 0b0000000#7 → w.extractLsb' 12 3 = 0b001#3 →
      decode b w = .ok (.sll (w.extractLsb' 7 5) (w.extractLsb' 15 5) (w.extractLsb' 20 5))) ∧
    (w.extractLsb' 25 7 = 0b0000000#7 → w.extractLsb' 12 3 = 0b101#3 →
      decode b w = .ok (.srl (w.extractLsb' 7 5) (w.extractLsb' 15 5) (w.extractLsb' 20 5))) ∧
    (w.extractLsb' 25 7 = 0b0100000#7 → w.extractLsb' 12 3 = 0b101#3 →
      decode b w = .ok (.sra (w.extractLsb' 7 5) (w.extractLsb' 15 5) (w.extractLsb' 20 5)))) ∧
  (∀ (s : State) (rd rs1 rs2 : Reg) (i : Instr) (v : Word),
    (i = .sll rd rs1 rs2 ∧ v = BitVec.ofNat 32 ((s.getReg rs1).toNat * 2 ^ ((s.getReg rs2).toNat % 32))) ∨
    (i = .srl rd rs1 rs2 ∧ v = BitVec.ofNat 32 ((s.getReg rs1).toNat / 2 ^ ((s.getReg rs2).toNat % 32))) ∨
    (i = .sra rd rs1 rs2 ∧ v = BitVec.ofInt 32 ((s.getReg rs1).toInt / 2 ^ ((s.getReg rs2).toNat % 32))) →
    ∃ t, exec i s = .next t ∧ RegisterEffect s t rd v (s.pc + 4))

/-- R141: no computational instruction raises an exception or touches memory; each writes x[rd] and
pc + 4 and nothing else. -/
def Obligations.ComputeWritesOnlyItsRegister : Prop :=
  ∀ (i : Instr) (s : State), isCompute i = true →
    ∃ (t : State) (rd : Reg) (v : Word),
      exec i s = .next t ∧ dest i = some rd ∧ RegisterEffect s t rd v (s.pc + 4) ∧
      ∀ m : Memory, ∃ u, exec i { s with mem := m } = .next u ∧ u.getReg rd = t.getReg rd

/-! ### Control transfer -/

/-- R160: JAL: its encoding, the jump with its link, and the trap on a misaligned target, which from an
aligned pc is one whose immediate has bit 1 set. -/
def Obligations.JalLinksAndJumps : Prop :=
  (∀ (b : Bool) (w : Word), w.extractLsb' 0 7 = 0b1101111#7 →
    decode b w = .ok (.jal (w.extractLsb' 7 5) (immJ w))) ∧
  (∀ (s : State) (rd : Reg) (imm : Word),
    ((s.pc + imm).toNat % 4 = 0 →
      ∃ t, exec (.jal rd imm) s = .next t ∧ RegisterEffect s t rd (s.pc + 4) (s.pc + imm)) ∧
    ((s.pc + imm).toNat % 4 ≠ 0 →
      ∃ t, exec (.jal rd imm) s = .next t ∧ TrapEffect s t .misalignedPc (s.pc + imm))) ∧
  (∀ pc w : Word, pc.toNat % 4 = 0 → ((pc + immJ w).toNat % 4 ≠ 0 ↔ (immJ w).getLsbD 1 = true))

/-- R161: JALR: its encoding, the jump to (x[rs1] + imm) with bit 0 cleared, the old x[rs1] read before
the link is written, and the trap on a target with bit 1 set. -/
def Obligations.JalrLinksAndJumps : Prop :=
  (∀ (b : Bool) (w : Word), w.extractLsb' 0 7 = 0b1100111#7 → w.extractLsb' 12 3 = 0b000#3 →
    decode b w = .ok (.jalr (w.extractLsb' 7 5) (w.extractLsb' 15 5) (immI w))) ∧
  (∀ (s : State) (rd rs1 : Reg) (imm t : Word), t = BitVec.ofNat 32 ((s.getReg rs1 + imm).toNat / 2 * 2) →
    (t.getLsbD 1 = false →
      ∃ u, exec (.jalr rd rs1 imm) s = .next u ∧ RegisterEffect s u rd (s.pc + 4) t) ∧
    (t.getLsbD 1 = true →
      ∃ u, exec (.jalr rd rs1 imm) s = .next u ∧ TrapEffect s u .misalignedPc t))

/-- R162 to R167: the six branches: their encodings; a branch whose condition holds goes to an aligned
target, one whose condition does not hold goes to pc + 4 and never checks its target, and a misaligned
target of a taken branch, which from an aligned pc is one whose immediate has bit 1 set, traps. -/
def Obligations.BranchesFollowTheirCondition : Prop :=
  (∀ (b : Bool) (w : Word), w.extractLsb' 0 7 = 0b1100011#7 →
    (w.extractLsb' 12 3 = 0b000#3 → decode b w = .ok (.beq (w.extractLsb' 15 5) (w.extractLsb' 20 5) (immB w))) ∧
    (w.extractLsb' 12 3 = 0b001#3 → decode b w = .ok (.bne (w.extractLsb' 15 5) (w.extractLsb' 20 5) (immB w))) ∧
    (w.extractLsb' 12 3 = 0b100#3 → decode b w = .ok (.blt (w.extractLsb' 15 5) (w.extractLsb' 20 5) (immB w))) ∧
    (w.extractLsb' 12 3 = 0b101#3 → decode b w = .ok (.bge (w.extractLsb' 15 5) (w.extractLsb' 20 5) (immB w))) ∧
    (w.extractLsb' 12 3 = 0b110#3 → decode b w = .ok (.bltu (w.extractLsb' 15 5) (w.extractLsb' 20 5) (immB w))) ∧
    (w.extractLsb' 12 3 = 0b111#3 → decode b w = .ok (.bgeu (w.extractLsb' 15 5) (w.extractLsb' 20 5) (immB w)))) ∧
  (∀ (s : State) (rs1 rs2 : Reg) (imm : Word) (i : Instr) (c : Prop),
    (i = .beq rs1 rs2 imm ∧ (c ↔ s.getReg rs1 = s.getReg rs2)) ∨
    (i = .bne rs1 rs2 imm ∧ (c ↔ s.getReg rs1 ≠ s.getReg rs2)) ∨
    (i = .blt rs1 rs2 imm ∧ (c ↔ (s.getReg rs1).toInt < (s.getReg rs2).toInt)) ∨
    (i = .bge rs1 rs2 imm ∧ (c ↔ (s.getReg rs2).toInt ≤ (s.getReg rs1).toInt)) ∨
    (i = .bltu rs1 rs2 imm ∧ (c ↔ (s.getReg rs1).toNat < (s.getReg rs2).toNat)) ∨
    (i = .bgeu rs1 rs2 imm ∧ (c ↔ (s.getReg rs2).toNat ≤ (s.getReg rs1).toNat)) →
    (c → (s.pc + imm).toNat % 4 = 0 → ∃ t, exec i s = .next t ∧ PcEffect s t (s.pc + imm)) ∧
    (c → (s.pc + imm).toNat % 4 ≠ 0 → ∃ t, exec i s = .next t ∧ TrapEffect s t .misalignedPc (s.pc + imm)) ∧
    (¬ c → ∃ t, exec i s = .next t ∧ PcEffect s t (s.pc + 4))) ∧
  (∀ pc w : Word, pc.toNat % 4 = 0 → ((pc + immB w).toNat % 4 ≠ 0 ↔ (immB w).getLsbD 1 = true))

/-! ### Loads and stores -/

/-- R191 to R195, R201: LB, LH, LW, LBU and LHU: their encodings, their results from the bytes at
x[rs1] + imm, at any alignment, in the region, and the MEM_FAULT trap with that address when any byte is
outside, a load to x0 among them. -/
def Obligations.LoadsExtendTheBytes : Prop :=
  (∀ (b : Bool) (w : Word), w.extractLsb' 0 7 = 0b0000011#7 →
    (w.extractLsb' 12 3 = 0b000#3 → decode b w = .ok (.lb (w.extractLsb' 7 5) (w.extractLsb' 15 5) (immI w))) ∧
    (w.extractLsb' 12 3 = 0b001#3 → decode b w = .ok (.lh (w.extractLsb' 7 5) (w.extractLsb' 15 5) (immI w))) ∧
    (w.extractLsb' 12 3 = 0b010#3 → decode b w = .ok (.lw (w.extractLsb' 7 5) (w.extractLsb' 15 5) (immI w))) ∧
    (w.extractLsb' 12 3 = 0b100#3 → decode b w = .ok (.lbu (w.extractLsb' 7 5) (w.extractLsb' 15 5) (immI w))) ∧
    (w.extractLsb' 12 3 = 0b101#3 → decode b w = .ok (.lhu (w.extractLsb' 7 5) (w.extractLsb' 15 5) (immI w)))) ∧
  (∀ (s : State) (rd rs1 : Reg) (imm : Word) (i : Instr) (n : Nat) (v : Word),
    (i = .lb rd rs1 imm ∧ n = 1 ∧ v = (s.byteAt (s.getReg rs1 + imm).toNat).signExtend 32) ∨
    (i = .lbu rd rs1 imm ∧ n = 1 ∧ v = (s.byteAt (s.getReg rs1 + imm).toNat).setWidth 32) ∨
    (i = .lh rd rs1 imm ∧ n = 2 ∧
      v = (s.byteAt ((s.getReg rs1 + imm).toNat + 1) ++ s.byteAt (s.getReg rs1 + imm).toNat).signExtend 32) ∨
    (i = .lhu rd rs1 imm ∧ n = 2 ∧
      v = (s.byteAt ((s.getReg rs1 + imm).toNat + 1) ++ s.byteAt (s.getReg rs1 + imm).toNat).setWidth 32) ∨
    (i = .lw rd rs1 imm ∧ n = 4 ∧
      v = s.byteAt ((s.getReg rs1 + imm).toNat + 3) ++ s.byteAt ((s.getReg rs1 + imm).toNat + 2) ++
        s.byteAt ((s.getReg rs1 + imm).toNat + 1) ++ s.byteAt (s.getReg rs1 + imm).toNat) →
    (InRegion s (s.getReg rs1 + imm) n → ∃ t, exec i s = .next t ∧ RegisterEffect s t rd v (s.pc + 4)) ∧
    (¬ InRegion s (s.getReg rs1 + imm) n →
      ∃ t, exec i s = .next t ∧ TrapEffect s t .memFault (s.getReg rs1 + imm)))

/-- R196 to R198: SB, SH and SW: their encodings; they store the low bytes of x[rs2] at x[rs1] + imm, at
any alignment, in the region, and no other byte changes; the MEM_FAULT trap, with no byte written, when
any byte is outside. Bytes are read back in a memory in canonical form. -/
def Obligations.StoresPutTheLowBytes : Prop :=
  (∀ (b : Bool) (w : Word), w.extractLsb' 0 7 = 0b0100011#7 →
    (w.extractLsb' 12 3 = 0b000#3 → decode b w = .ok (.sb (w.extractLsb' 15 5) (w.extractLsb' 20 5) (immS w))) ∧
    (w.extractLsb' 12 3 = 0b001#3 → decode b w = .ok (.sh (w.extractLsb' 15 5) (w.extractLsb' 20 5) (immS w))) ∧
    (w.extractLsb' 12 3 = 0b010#3 → decode b w = .ok (.sw (w.extractLsb' 15 5) (w.extractLsb' 20 5) (immS w)))) ∧
  (∀ (s : State) (rs1 rs2 : Reg) (imm : Word) (i : Instr) (n : Nat),
    (i = .sb rs1 rs2 imm ∧ n = 1) ∨ (i = .sh rs1 rs2 imm ∧ n = 2) ∨ (i = .sw rs1 rs2 imm ∧ n = 4) →
    (Memory.wf s.mem → InRegion s (s.getReg rs1 + imm) n →
      ∃ t, exec i s = .next t ∧ StoreEffect s t (s.getReg rs1 + imm) n (s.getReg rs2)) ∧
    (¬ InRegion s (s.getReg rs1 + imm) n →
      ∃ t, exec i s = .next t ∧ TrapEffect s t .memFault (s.getReg rs1 + imm)))

/-- R55: the word a store wrote is the word a later fetch at its address reads and decodes. -/
def Obligations.StoreIsSeenByTheNextFetch : Prop :=
  ∀ (s t u : State) (rs1 rs2 : Reg) (imm : Word),
    Memory.wf s.mem → InRegion s (s.getReg rs1 + imm) 4 → exec (.sw rs1 rs2 imm) s = .next t →
    u.mem = t.mem → u.cfg = t.cfg → u.status = .running → u.pc = s.getReg rs1 + imm →
    (∀ i, decode u.cfg.trapWord6B (s.getReg rs2) = .ok i → step u = exec i u) ∧
    (∀ e, decode u.cfg.trapWord6B (s.getReg rs2) = .error e →
      ∃ v, step u = .next v ∧ TrapEffect u v .illegal (s.getReg rs2))

/-! ### System -/

/-- R211: ECALL: its encoding; without ECALL_HOST it traps with value 0; with it the next state is the
collaborator's answer, whatever that is, drawn for this hand-over (the form of the answer is the
model's, log 6, 7). -/
def Obligations.EcallTrapsOrIsHandedOver : Prop :=
  (∀ b, decode b 0x00000073#32 = .ok .ecall) ∧
  ∀ s : State,
    (s.cfg.ecallHostGiven = false → ∃ t, exec .ecall s = .next t ∧ TrapEffect s t .ecall 0) ∧
    (s.cfg.ecallHostGiven = true → ∃ (t : State) (a : EcallAnswer), exec .ecall s = .next t ∧
      a = Config.ecallHost s.hostDraws s ∧ (∀ (k : Nat) (hk : k < 31), t.getReg (BitVec.ofNat 5 (k + 1)) = a.gpr[k]) ∧
      t.pc = a.pc ∧ t.status = a.status ∧ t.exitCode = a.exitCode ∧ t.trapValue = a.trapValue ∧
      t.mem = Memory.storeAll s.cfg s.mem a.stores ∧ t.cfg = s.cfg ∧ t.hostDraws = s.hostDraws + 1)

/-- R181, R212: EBREAK, and any opcode-1101011 word when TRAP_WORD_6B is true, halt with exit_code = x10,
and the next step does nothing. -/
def Obligations.NemuTrapHaltsWithExitRegister : Prop :=
  (∀ b, decode b 0x00100073#32 = .ok .ebreak) ∧
  (∀ w : Word, w.extractLsb' 0 7 = 0b1101011#7 → ∃ funct7 rs2 rs1 funct3 rd,
    decode true w = .ok (.nemuTrap funct7 rs2 rs1 funct3 rd)) ∧
  (∀ s : State, ∃ t, exec .ebreak s = .next t ∧ HaltEffect s t (s.getReg 10) ∧ step t = .next t) ∧
  (∀ (s : State) (funct7 : BitVec 7) (rs2 rs1 : Reg) (funct3 : BitVec 3) (rd : Reg),
    ∃ t, exec (.nemuTrap funct7 rs2 rs1 funct3 rd) s = .next t ∧ HaltEffect s t (s.getReg 10) ∧ step t = .next t)

/-! ### The step -/

/-- A step runs the decoded instruction: when the status is RUNNING and the four bytes at the pc decode
to i, step is exec of i at that very state. -/
def Obligations.StepRunsTheDecodedInstruction : Prop :=
  ∀ (s : State) (i : Instr), s.status = .running → InRegion s s.pc 4 →
    decode s.cfg.trapWord6B (s.byteAt (s.pc.toNat + 3) ++ s.byteAt (s.pc.toNat + 2) ++
      s.byteAt (s.pc.toNat + 1) ++ s.byteAt s.pc.toNat) = .ok i →
    step s = exec i s

/-- R180 (with R74, R302): a fetched word that decodes to no instruction traps ILLEGAL with the word as
trap_value and changes nothing else. -/
def Obligations.IllegalWordTraps : Prop :=
  ∀ (s : State) (w : Word) (e : DecodeError), s.status = .running → InRegion s s.pc 4 →
    w = s.byteAt (s.pc.toNat + 3) ++ s.byteAt (s.pc.toNat + 2) ++ s.byteAt (s.pc.toNat + 1) ++ s.byteAt s.pc.toNat →
    decode s.cfg.trapWord6B w = .error e →
    ∃ t, step s = .next t ∧ TrapEffect s t .illegal w

/-- R48, R303 for a fetch: a fetch any byte of which is outside the region traps MEM_FAULT with the pc. -/
def Obligations.FetchOutOfRegionTraps : Prop :=
  ∀ s : State, s.status = .running → ¬ InRegion s s.pc 4 →
    ∃ t, step s = .next t ∧ TrapEffect s t .memFault s.pc

/-- R102: a step of a stopped engine changes nothing; so does every run from one. -/
def Obligations.StoppedEngineStaysAsItIs : Prop :=
  ∀ s : State, s.status ≠ .running → step s = .next s ∧ ∀ k, Sys2Proof.core.run k s = .next s

/-- R104: a run that ends, ends in one state after one number of steps, and stays in it however long the
host goes on; a safe run (no TRAPPED state on it) ends in HALTED. -/
def Obligations.RunEndsInOneState : Prop :=
  ∀ (s t : State) (k : Nat), RunEnds s t k →
    (∀ (u : State) (j : Nat), RunEnds s u j → u = t ∧ j = k) ∧
    (∀ j, Sys2Proof.core.run (k + j) s = .next t) ∧
    (SafeFor s k → t.status = .halted)

/-- Every step from every state answers a next state: no instruction and no step faults or is refused,
as every event of R301 is a change of the run status (log 9). That an ECALL handed over always gets an
answer is the model's choice (log 6). -/
def Obligations.EveryStepAnswersNext : Prop :=
  (∀ (i : Instr) (s : State), ∃ t, exec i s = .next t) ∧ (∀ s : State, ∃ t, step s = .next t)

/-- A step keeps the invariant: legal parameters, canonical memory inside the region, aligned pc. The
one premise is on the collaborator's answer, of which the spec assumes no law (log 6, 13). -/
def Obligations.StepKeepsInvariant : Prop :=
  ∀ s t : State, s.Inv → s.HostKeepsPcAligned → step s = .next t → t.Inv

/-- The host between steps (R105, R106): its calls keep the invariant and leave the report and the model's
fields alone; setPC sets the pc and nothing else, or refuses a value that is not 4-aligned; a width
outside 1, 2, 4 is refused (R44); a write that fails stores nothing and the host goes on (R43); and a
session of steps, changes and inspections in any order keeps the invariant, if every answer to a
handed-over ECALL has an aligned pc (log 6, 11, 13). -/
def Obligations.HostCallsKeepInvariant : Prop :=
  (∀ (s t : State) (cs : List HostCall), s.Inv → s.hostCalls cs = .next t → t.Inv ∧ SameModel s t ∧ SameReport s t) ∧
  (∀ (s : State) (v : Word),
    (v.toNat % 4 = 0 → ∃ t, s.setPC v = .next t ∧ PcEffect s t v) ∧
    (v.toNat % 4 ≠ 0 → s.setPC v = .refused (.misalignedSetPC v))) ∧
  (∀ (s : State) (a v : Word) (n : Nat), n ∉ [1, 2, 4] →
    s.read a n = .refused (.accessWidth n) ∧ s.write a n v = .refused (.accessWidth n)) ∧
  (∀ (s : State) (a v : Word) (n : Nat), n ∈ [1, 2, 4] → ¬ InRegion s a n →
    s.serve (.change (.write a n v)) = .next (.memoryFault, s)) ∧
  (∀ (s t : State) (moves : List HostMove) (replies : List HostReply), s.Inv →
    (∀ (k : Nat) (rs : List HostReply) (u : State),
      s.session (moves.take k) = .next (rs, u) → u.HostKeepsPcAligned) →
    s.session moves = .next (replies, t) → t.Inv)

/-- R332 step 1: loading an image that fits in the region, byte by byte with `write`, places its bytes,
disturbs no other byte and nothing else of the state. -/
def Obligations.LoadingPlacesTheImage : Prop :=
  ∀ (s : State) (a : Word) (image : List Byte), s.cfg.wf = true → Memory.wf s.mem → InRegion s a image.length →
    ∃ t, s.hostCalls (imageCalls a image) = .next t ∧
      (∀ (k : Nat) (hk : k < image.length), t.byteAt (a.toNat + k) = image[k]) ∧
      SameBytesOutside s t a.toNat image.length ∧
      SameRegisters s t ∧ t.pc = s.pc ∧ SameReport s t ∧ SameModel s t

/-- R308 and R181 as one rule of the whole engine: a step that leaves RUNNING, other than a handed-over
ECALL, changes only status and trap_value, or only status and exit_code, and the engine then stops. -/
def Obligations.StoppingStepIsPrecise : Prop :=
  ∀ s t : State, s.status = .running → ¬ s.handsOver → step s = .next t →
    (∀ c, t.status = .trapped c → TrapEffect s t c t.trapValue) ∧
    (t.status = .halted → HaltEffect s t (s.getReg 10)) ∧
    (t.status ≠ .running → step t = .next t)

/-- R103: after a step of instruction i that stays RUNNING the pc is the target of a taken transfer or
pc + 4; after one that stops it is the pc of the instruction. -/
def Obligations.PcAdvancesByRule : Prop :=
  ∀ (s t : State) (i : Instr), s.fetch = .run i → ¬ s.handsOver → step s = .next t →
    (t.status = .running → t.pc = nextPc s i) ∧ (t.status ≠ .running → t.pc = s.pc)

/-- R23: an instruction writes at most the register of its rd field; one without an rd field, and one
that stops the engine, writes none. -/
def Obligations.AtMostOneRegisterWritten : Prop :=
  ∀ (i : Instr) (s t : State), exec i s = .next t → (i = .ecall → s.cfg.ecallHostGiven = false) →
    (∀ r, dest i ≠ some r → t.getReg r = s.getReg r) ∧
    (t.status ≠ s.status → SameRegisters s t)

/-- Every byte outside the bytes an instruction stores to reads as before, for every instruction: all of
memory for one that is no store. -/
def Obligations.MemoryFrame : Prop :=
  ∀ (i : Instr) (s t : State), exec i s = .next t → (i = .ecall → s.cfg.ecallHostGiven = false) →
    (storedBytes s i = none → SameBytes s t) ∧
    (∀ a n, storedBytes s i = some (a, n) → n ≤ 4 ∧ SameBytesOutside s t a n) ∧
    (t.status ≠ s.status → SameBytes s t)

/-- R29 and R30: exit_code changes only in a step that halts, and then to x10; trap_value changes only
together with a TRAPPED status. -/
def Obligations.ReportRegistersWrittenOnlyAtTheEnd : Prop :=
  ∀ s t : State, ¬ s.handsOver → step s = .next t →
    (t.exitCode ≠ s.exitCode → t.status = .halted ∧ t.exitCode = s.getReg 10) ∧
    (s.status = .running → t.status = .halted → t.exitCode = s.getReg 10) ∧
    (t.trapValue ≠ s.trapValue → s.status = .running ∧ ∃ c, t.status = .trapped c)

/-- The parameters never change in a step, and the model's counter moves only at a hand-over. That the
parameters stand in State, that an answer to an ECALL cannot change them, and the counter itself are the
model's choices (log 8, 6, 7). -/
def Obligations.ParametersNeverChange : Prop :=
  ∀ s t : State, step s = .next t →
    t.cfg = s.cfg ∧ (t.hostDraws ≠ s.hostDraws → s.handsOver ∧ t.hostDraws = s.hostDraws + 1)

/-- R301's events by instruction kind: JAL, JALR and the branches can raise only MISALIGNED_PC, the loads
and stores only MEM_FAULT, ECALL only ECALL, EBREAK and the trap word only the program end, and the
computational instructions nothing. -/
def Obligations.EachInstructionRaisesOneKind : Prop :=
  ∀ (i : Instr) (s t : State), exec i s = .next t → s.status = .running →
    (i = .ecall → s.cfg.ecallHostGiven = false) →
    (∀ c, t.status = .trapped c →
      (c = .misalignedPc ∧ ((∃ rd imm, i = .jal rd imm) ∨ (∃ rd rs1 imm, i = .jalr rd rs1 imm) ∨
        (∃ rs1 rs2 imm, i = .beq rs1 rs2 imm ∨ i = .bne rs1 rs2 imm ∨ i = .blt rs1 rs2 imm ∨
          i = .bge rs1 rs2 imm ∨ i = .bltu rs1 rs2 imm ∨ i = .bgeu rs1 rs2 imm))) ∨
      (c = .memFault ∧ ((∃ rd rs1 imm, i = .lb rd rs1 imm ∨ i = .lh rd rs1 imm ∨ i = .lw rd rs1 imm ∨
          i = .lbu rd rs1 imm ∨ i = .lhu rd rs1 imm) ∨
        (∃ rs1 rs2 imm, i = .sb rs1 rs2 imm ∨ i = .sh rs1 rs2 imm ∨ i = .sw rs1 rs2 imm))) ∨
      (c = .ecall ∧ i = .ecall)) ∧
    (t.status = .halted →
      i = .ebreak ∨ ∃ funct7 rs2 rs1 funct3 rd, i = .nemuTrap funct7 rs2 rs1 funct3 rd)

/-! ### Names, pseudo-instructions -/

/-- R35: a name is found exactly when it is one of the listed ones, and it gives that index; `pc` is no
register name. -/
def Obligations.RegisterNamesAreTheListedOnes : Prop :=
  (∀ (name : List Byte) (r : Reg), registerIndexByName name = some r ↔
    name = bytesOf (numericName r.toNat) ∨ (∃ abi, abiNames[r.toNat]? = some abi ∧ name = bytesOf abi) ∨
    (name = bytesOf "fp" ∧ r = 8) ∨ (name = bytesOf "0" ∧ r = 0)) ∧
  registerIndexByName (bytesOf "pc") = none

/-- R80's `li`: its expansion leaves the 32-bit value in the register, for every value, and the pc after
the last of its instructions. -/
def Obligations.LiExpansionLoadsItsValue : Prop :=
  ∀ (s : State) (rd : Reg) (imm : Word),
    (∀ i ∈ Pseudo.expand s.pc (.li rd imm), i.wf = true) ∧
    ∃ t, execAll (Pseudo.expand s.pc (.li rd imm)) s = .next t ∧
      RegisterEffect s t rd imm (s.pc + 4 * BitVec.ofNat 32 (Pseudo.expand s.pc (.li rd imm)).length)

/-- R80's `call` and `tail`: their expansions go to any aligned target, `call` with the address after
the pair in x1. -/
def Obligations.CallAndTailReachTheirTarget : Prop :=
  ∀ (s : State) (target : Word), target.toNat % 4 = 0 →
    (∃ t, execAll (Pseudo.expand s.pc (.call target)) s = .next t ∧ RegisterEffect s t 1 (s.pc + 8) target) ∧
    (∃ (t : State) (v : Word), execAll (Pseudo.expand s.pc (.tail target)) s = .next t ∧ RegisterEffect s t 6 v target)

/-! ### The evaluator -/

/-- R221 to R224: every token the tokenizer gives has between 1 and 31 bytes of text and the tag R222
emits for that text; the texts are the input without its blanks, in order. And the scan takes a whole
lexeme: one that the text after it does not lengthen is one token, before the tokens of that text; a
blank before a text changes nothing. -/
def Obligations.TokensAreTheText : Prop :=
  (∀ (text : List Byte) (toks : List Token), tokenize text = .ok toks →
    (∀ t ∈ toks, 1 ≤ t.text.length ∧ t.text.length ≤ 31 ∧ t.tag.isFor t.text) ∧
    (toks.map (·.text)).flatten = text.filter fun b => !(b == 0x20#8 || b == 0x09#8)) ∧
  (∀ (rest : List Byte) (toks : List Token), tokenize rest = .ok toks →
    (∀ (tag : TokenTag) (m : List Byte), tag.isFor m → m.length ≤ 31 →
      (∀ b ∈ rest.head?, b ∉ bytesOf tag.moreChars) →
      tokenize (m ++ rest) = .ok (⟨tag, m⟩ :: toks)) ∧
    (∀ b ∈ [0x20#8, 0x09#8], tokenize (b :: rest) = .ok toks))

/-- R220: the tokenizer fails with nothing but LexError, at an offset inside the text. -/
def Obligations.LexErrorOffsetIsInsideTheText : Prop :=
  ∀ (text : List Byte) (e : EvalFailure), tokenize text = .error e → ∃ p, e = .lexError p ∧ p < text.length

/-- R224, R225, R257, R259: what a single terminal is and what it evaluates to. `0x` and hex digits are one
HEX token, never a decimal 0 and a rest, decimal digits one DEC token, and their values are read in base
16 and 10, modulo 2^32; `$` and a name is one REG token, of value the pc for `pc`, the register found for
a register name, else UnknownRegister; a lexeme of more than 31 bytes is LexError at its first byte; any
other single token is MalformedSpan. -/
def Obligations.TerminalsAreOneTokenAndTheirValue : Prop :=
  ∀ s : State,
    (∀ (digits : List Nat) (m : List Byte), isNumeral 16 digits m →
      (m.length ≤ 29 → tokenize (bytesOf "0x" ++ m) = .ok [⟨.hex, bytesOf "0x" ++ m⟩] ∧
        evaluate s (bytesOf "0x" ++ m) = .ok (BitVec.ofNat 32 (Nat.ofDigits 16 digits.reverse))) ∧
      (30 ≤ m.length → evaluate s (bytesOf "0x" ++ m) = .error (.lexError 0))) ∧
    (∀ (digits : List Nat) (m : List Byte), isNumeral 10 digits m →
      (m.length ≤ 31 → tokenize m = .ok [⟨.dec, m⟩] ∧
        evaluate s m = .ok (BitVec.ofNat 32 (Nat.ofDigits 10 digits.reverse))) ∧
      (32 ≤ m.length → evaluate s m = .error (.lexError 0))) ∧
    (∀ name : List Byte, madeOf nameChars name →
      (name.length ≤ 30 → tokenize (bytesOf "$" ++ name) = .ok [⟨.reg, bytesOf "$" ++ name⟩] ∧
        (name = bytesOf "pc" → evaluate s (bytesOf "$" ++ name) = .ok s.pc) ∧
        (∀ r, registerIndexByName name = some r → evaluate s (bytesOf "$" ++ name) = .ok (s.getReg r)) ∧
        (name ≠ bytesOf "pc" → registerIndexByName name = none →
          evaluate s (bytesOf "$" ++ name) = .error .unknownRegister)) ∧
      (31 ≤ name.length → evaluate s (bytesOf "$" ++ name) = .error (.lexError 0))) ∧
    (∀ (t : Token) (n : Nat), t.tag ∉ [.hex, .dec, .reg] → evalSpan s n [t] = .error .malformedSpan)

/-- R278 on texts: a balanced text that is not empty gives, in parentheses, what it gives alone. -/
def Obligations.ParenthesesChangeNothing : Prop :=
  ∀ (s : State) (text : List Byte) (toks : List Token),
    tokenize text = .ok toks → toks ≠ [] → balanced toks = true →
    evaluate s (bytesOf "(" ++ text ++ bytesOf ")") = evaluate s text

/-- R255, R261, R263: a span l op r whose operands are balanced, with no looser operator outside
parentheses in l and no operator as loose as op outside parentheses in r, is split at op, and the left
operand's failure comes first. So equal operators group to the left. -/
def Obligations.BinarySplitFollowsPrecedence : Prop :=
  ∀ (s : State) (l r : List Token) (op : Token) (n : Nat),
    l ≠ [] → r ≠ [] → balanced l = true → balanced r = true → op.tag.isBinary = true →
    topPrec 0 l ≤ op.tag.prec → topPrec 0 r < op.tag.prec → l.length + 1 + r.length ≤ n →
    evalSpan s n (l ++ op :: r) = combine op.tag (evalSpan s n l) (evalSpan s n r)

/-- R254 and R262: a `-` or a `*` is the unary NEG or DEREF exactly when it is first or follows an operator
or `(`, and no other token changes; `evaluate` evaluates the stream so read (R251). A span that starts
with a unary operator and has no binary operator outside parentheses is the operator applied to the
rest; so unary operators group to the right. -/
def Obligations.UnaryAppliesToTheRest : Prop :=
  (∀ toks : List Token, (disambiguate toks).length = toks.length ∧
    ∀ (k : Nat) (t : Token), toks[k]? = some t → ∃ u, (disambiguate toks)[k]? = some u ∧ u.text = t.text ∧
      (unaryPlace toks k → t.tag = .minus → u.tag = .neg) ∧
      (unaryPlace toks k → t.tag = .star → u.tag = .deref) ∧
      (¬ (unaryPlace toks k ∧ (t.tag = .minus ∨ t.tag = .star)) → u.tag = t.tag)) ∧
  (∀ (s : State) (text : List Byte) (toks : List Token),
    tokenize text = .ok toks → toks ≠ [] → balanced toks = true →
    evaluate s text = evalSpan s toks.length (disambiguate toks)) ∧
  (∀ (s : State) (op : Token) (r : List Token) (n : Nat),
    op.tag.isUnary = true → r ≠ [] → balanced r = true → topPrec 0 r = 0 → 1 + r.length ≤ n →
    evalSpan s n (op :: r) =
      match evalSpan s n r with
      | .error e => .error e
      | .ok v => applyUnary s op.tag v)

/-- R264 to R272: the operators as integer arithmetic on signed values. -/
def Obligations.EvaluatorArithmetic : Prop :=
  ∀ a b : Word,
    applyBinary .plus a b = .ok (BitVec.ofInt 32 (a.toInt + b.toInt)) ∧
    applyBinary .minus a b = .ok (BitVec.ofInt 32 (a.toInt - b.toInt)) ∧
    applyBinary .star a b = .ok (BitVec.ofInt 32 (a.toInt * b.toInt)) ∧
    (b = 0 → applyBinary .slash a b = .error .divisionByZero) ∧
    (b ≠ 0 → ∃ q, applyBinary .slash a b = .ok q ∧
      (¬ (a.toInt = -2147483648 ∧ b.toInt = -1) → q.toInt = a.toInt.tdiv b.toInt) ∧
      (a.toInt = -2147483648 ∧ b.toInt = -1 → q.toInt = -2147483648)) ∧
    applyBinary .eq a b = .ok (if a = b then 1 else 0) ∧
    applyBinary .neq a b = .ok (if a ≠ b then 1 else 0) ∧
    applyBinary .and a b = .ok (if a ≠ 0 ∧ b ≠ 0 then 1 else 0) ∧
    applyBinary .or a b = .ok (if a ≠ 0 ∨ b ≠ 0 then 1 else 0) ∧
    ∀ s : State, applyUnary s .neg a = .ok (BitVec.ofInt 32 (-a.toInt))

/-- R273: a dereference is the four bytes at the operand's value, at any alignment, or MemoryFault. -/
def Obligations.DereferenceReadsAWord : Prop :=
  ∀ (s : State) (a : Word),
    (InRegion s a 4 → applyUnary s .deref a =
      .ok (s.byteAt (a.toNat + 3) ++ s.byteAt (a.toNat + 2) ++ s.byteAt (a.toNat + 1) ++ s.byteAt a.toNat)) ∧
    (¬ InRegion s a 4 → applyUnary s .deref a = .error .memoryFault)

/-- R275: what evaluate gives depends on nothing but the text, the registers, the pc and the bytes of
memory: two states that agree on them give the same result. -/
def Obligations.EvaluateReadsOnlyRegistersPcAndMemory : Prop :=
  ∀ (s t : State) (text : List Byte),
    SameRegisters s t → t.pc = s.pc → SameBytes s t →
    t.cfg.memBase = s.cfg.memBase → t.cfg.memSize = s.cfg.memSize →
    evaluate t text = evaluate s text

/-- R277 (with R252, R253): the order of the failures that come before the recursion, and that
UnbalancedParens comes from the balance check alone. -/
def Obligations.EarlyFailuresInOrder : Prop :=
  ∀ (s : State) (text : List Byte),
    (∀ p, evaluate s text = .error (.lexError p) ↔ tokenize text = .error (.lexError p)) ∧
    (evaluate s text = .error .unbalancedParens ↔ ∃ toks, tokenize text = .ok toks ∧ balanced toks = false) ∧
    (tokenize text = .ok [] → evaluate s text = .error .malformedSpan)
end

