-- ==== Sys2Proof/Laws/Decode.lean ====
section
/-! SUPPORT. Laws/Decode.lean: the fields of an encoded word, the immediates as functions of the fields,
and which instruction a legal word's fields select (spec/30_encoding.md R61 to R73). -/

namespace Sys2Proof

/-! ### Encoding and extracting are inverse on fields (R61, R72) -/

@[simp] theorem opcodeOf_encodeFields (f : Fields) : opcodeOf (encodeFields f) = f.opcode := by
  simp only [opcodeOf, encodeFields, BitVec.extractLsb'_append_eq_right]

theorem extract_append_low {m n start len : Nat} (a : BitVec m) (b : BitVec n) (h : n ≤ start) :
    (a ++ b).extractLsb' start len = a.extractLsb' (start - n) len := by
  apply BitVec.eq_of_getLsbD_eq
  intro i hi
  rw [BitVec.getLsbD_extractLsb', BitVec.getLsbD_extractLsb', BitVec.getLsbD_append,
    if_neg (by omega), show start + i - n = start - n + i by omega]

theorem extract_self {n len : Nat} (a : BitVec n) (h : len = n) :
    a.extractLsb' 0 len = a.cast h.symm := by
  subst h
  apply BitVec.eq_of_getLsbD_eq
  intro i hi
  simp [hi]

@[simp] theorem rdOf_encodeFields (f : Fields) : rdOf (encodeFields f) = f.rd := by
  rw [rdOf, encodeFields, extract_append_low _ _ (by omega), BitVec.extractLsb'_append_eq_right]

@[simp] theorem funct3Of_encodeFields (f : Fields) : funct3Of (encodeFields f) = f.funct3 := by
  rw [funct3Of, encodeFields, extract_append_low _ _ (by omega), extract_append_low _ _ (by omega),
    BitVec.extractLsb'_append_eq_right]

@[simp] theorem rs1Of_encodeFields (f : Fields) : rs1Of (encodeFields f) = f.rs1 := by
  rw [rs1Of, encodeFields, extract_append_low _ _ (by omega), extract_append_low _ _ (by omega),
    extract_append_low _ _ (by omega), BitVec.extractLsb'_append_eq_right]

@[simp] theorem rs2Of_encodeFields (f : Fields) : rs2Of (encodeFields f) = f.rs2 := by
  rw [rs2Of, encodeFields, extract_append_low _ _ (by omega), extract_append_low _ _ (by omega),
    extract_append_low _ _ (by omega), extract_append_low _ _ (by omega), BitVec.extractLsb'_append_eq_right]

@[simp] theorem funct7Of_encodeFields (f : Fields) : funct7Of (encodeFields f) = f.funct7 := by
  rw [funct7Of, encodeFields, extract_append_low _ _ (by omega), extract_append_low _ _ (by omega),
    extract_append_low _ _ (by omega), extract_append_low _ _ (by omega), extract_append_low _ _ (by omega),
    extract_self _ rfl]
  rfl

/-- The bits of two adjacent fields are the bits of one wider field. -/
theorem extract_append_extract {n start a b : Nat} (w : BitVec n) :
    w.extractLsb' (start + b) a ++ w.extractLsb' start b = w.extractLsb' start (a + b) := by
  apply BitVec.eq_of_getLsbD_eq
  intro i hi
  rw [BitVec.getLsbD_append, BitVec.getLsbD_extractLsb', BitVec.getLsbD_extractLsb',
    BitVec.getLsbD_extractLsb']
  split
  · rename_i h; simp [h, hi]
  · rename_i h
    simp [show i - b < a by omega, hi, show start + b + (i - b) = start + i by omega]

/-- A word is its six raw fields side by side (R61, R62). -/
theorem word_of_fields (w : Word) :
    funct7Of w ++ rs2Of w ++ rs1Of w ++ funct3Of w ++ rdOf w ++ opcodeOf w = w := by
  have h1 : funct7Of w ++ rs2Of w = w.extractLsb' 20 12 := extract_append_extract w
  have h2 : w.extractLsb' 20 12 ++ rs1Of w = w.extractLsb' 15 17 := extract_append_extract w
  have h3 : w.extractLsb' 15 17 ++ funct3Of w = w.extractLsb' 12 20 := extract_append_extract w
  have h4 : w.extractLsb' 12 20 ++ rdOf w = w.extractLsb' 7 25 := extract_append_extract w
  have h5 : w.extractLsb' 7 25 ++ opcodeOf w = w.extractLsb' 0 32 := extract_append_extract w
  rw [h1, h2, h3, h4, h5, extract_self _ rfl]
  rfl

/-! ### Bits of one word -/

/-- A field of a field. -/
theorem extract_extract {n s1 l1 s2 l2 : Nat} (w : BitVec n) (h : s2 + l2 ≤ l1) :
    (w.extractLsb' s1 l1).extractLsb' s2 l2 = w.extractLsb' (s1 + s2) l2 := by
  apply BitVec.eq_of_getLsbD_eq
  intro i hi
  simp only [BitVec.getLsbD_extractLsb', hi, decide_true, Bool.true_and,
    show s2 + i < l1 by omega, show s1 + (s2 + i) = s1 + s2 + i by omega]

/-- A field below the sign of a sign-extended value is the value's own. -/
theorem extract_signExtend {n m start len : Nat} (v : BitVec n) (h : start + len ≤ n) (hm : n ≤ m) :
    (v.signExtend m).extractLsb' start len = v.extractLsb' start len := by
  apply BitVec.eq_of_getLsbD_eq
  intro i hi
  simp only [BitVec.getLsbD_extractLsb', BitVec.getLsbD_signExtend, hi, decide_true, Bool.true_and,
    show start + i < m by omega, show start + i < n by omega, if_true]

/-! ### The immediates of an encoded word, as functions of its fields (R64 to R68) -/

theorem immI_fields (w : Word) : immI w = (funct7Of w ++ rs2Of w).signExtend 32 := by
  rw [immI, funct7Of, rs2Of, show (w.extractLsb' 25 7 ++ w.extractLsb' 20 5) = w.extractLsb' 20 12 from
    extract_append_extract w]

theorem immS_fields (w : Word) : immS w = (funct7Of w ++ rdOf w).signExtend 32 := rfl

theorem immB_fields (w : Word) :
    immB w = ((funct7Of w).extractLsb' 6 1 ++ (rdOf w).extractLsb' 0 1 ++ (funct7Of w).extractLsb' 0 6 ++
      (rdOf w).extractLsb' 1 4 ++ 0#1).signExtend 32 := by
  rw [immB, funct7Of, rdOf, extract_extract w (by omega), extract_extract w (by omega),
    extract_extract w (by omega), extract_extract w (by omega)]

theorem immU_fields (w : Word) : immU w = (funct7Of w ++ rs2Of w ++ rs1Of w ++ funct3Of w) ++ 0#12 := by
  have h1 : funct7Of w ++ rs2Of w = w.extractLsb' 20 12 := extract_append_extract w
  have h2 : w.extractLsb' 20 12 ++ rs1Of w = w.extractLsb' 15 17 := extract_append_extract w
  have h3 : w.extractLsb' 15 17 ++ funct3Of w = w.extractLsb' 12 20 := extract_append_extract w
  rw [h1, h2, h3, immU]

theorem immJ_fields (w : Word) :
    immJ w = ((funct7Of w).extractLsb' 6 1 ++ (rs1Of w ++ funct3Of w) ++ (rs2Of w).extractLsb' 0 1 ++
      ((funct7Of w).extractLsb' 0 6 ++ (rs2Of w).extractLsb' 1 4) ++ 0#1).signExtend 32 := by
  have h1 : rs1Of w ++ funct3Of w = w.extractLsb' 12 8 := extract_append_extract w
  have h2 : (funct7Of w).extractLsb' 0 6 ++ (rs2Of w).extractLsb' 1 4 = w.extractLsb' 21 10 := by
    rw [funct7Of, rs2Of, extract_extract w (by omega), extract_extract w (by omega)]
    exact extract_append_extract w
  rw [h1, h2, immJ, funct7Of, rs2Of, extract_extract w (by omega), extract_extract w (by omega)]

/-! ### The immediate a format's encoding gives back (R64 to R68, R72) -/

theorem fitsImm12_iff (imm : Word) : fitsImm12 imm = true ↔ (imm.extractLsb' 0 12).signExtend 32 = imm := by
  simp [fitsImm12]

theorem immI_encode (opcode : BitVec 7) (funct3 : BitVec 3) (rd rs1 : Reg) {imm : Word}
    (h : fitsImm12 imm = true) : immI (encodeFields (fieldsI opcode funct3 rd rs1 imm)) = imm := by
  rw [immI_fields, funct7Of_encodeFields, rs2Of_encodeFields]
  have e : imm.extractLsb' 5 7 ++ imm.extractLsb' 0 5 = imm.extractLsb' 0 12 := extract_append_extract imm
  simp only [fieldsI, e]
  exact (fitsImm12_iff imm).mp h

theorem immS_encode (funct3 : BitVec 3) (rs1 rs2 : Reg) {imm : Word} (h : fitsImm12 imm = true) :
    immS (encodeFields (fieldsS funct3 rs1 rs2 imm)) = imm := by
  rw [immS_fields, funct7Of_encodeFields, rdOf_encodeFields]
  have e : imm.extractLsb' 5 7 ++ imm.extractLsb' 0 5 = imm.extractLsb' 0 12 := extract_append_extract imm
  simp only [fieldsS, e]
  exact (fitsImm12_iff imm).mp h

theorem immB_encode (funct3 : BitVec 3) (rs1 rs2 : Reg) {imm : Word} (h : fitsImmB imm = true) :
    immB (encodeFields (fieldsB funct3 rs1 rs2 imm)) = imm := by
  simp only [fitsImmB, Bool.and_eq_true, beq_iff_eq] at h
  rw [immB_fields, funct7Of_encodeFields, rdOf_encodeFields]
  simp only [fieldsB]
  have h1 : (imm.extractLsb' 12 1 ++ imm.extractLsb' 5 6).extractLsb' 6 1 = imm.extractLsb' 12 1 := by
    rw [extract_append_low _ _ (by omega)]; exact extract_self _ rfl
  have h2 : (imm.extractLsb' 1 4 ++ imm.extractLsb' 11 1).extractLsb' 0 1 = imm.extractLsb' 11 1 :=
    BitVec.extractLsb'_append_eq_right
  have h3 : (imm.extractLsb' 12 1 ++ imm.extractLsb' 5 6).extractLsb' 0 6 = imm.extractLsb' 5 6 :=
    BitVec.extractLsb'_append_eq_right
  have h4 : (imm.extractLsb' 1 4 ++ imm.extractLsb' 11 1).extractLsb' 1 4 = imm.extractLsb' 1 4 := by
    rw [extract_append_low _ _ (by omega)]; exact extract_self _ rfl
  have e1 : imm.extractLsb' 12 1 ++ imm.extractLsb' 11 1 = imm.extractLsb' 11 2 := extract_append_extract imm
  have e2 : imm.extractLsb' 11 2 ++ imm.extractLsb' 5 6 = imm.extractLsb' 5 8 := extract_append_extract imm
  have e3 : imm.extractLsb' 5 8 ++ imm.extractLsb' 1 4 = imm.extractLsb' 1 12 := extract_append_extract imm
  have e4 : imm.extractLsb' 1 12 ++ imm.extractLsb' 0 1 = imm.extractLsb' 0 13 := extract_append_extract imm
  rw [h1, h2, h3, h4, e1, e2, e3, ← h.2, e4]
  exact h.1

theorem immU_encode (opcode : BitVec 7) (rd : Reg) {imm : Word} (h : fitsImmU imm = true) :
    immU (encodeFields (fieldsU opcode rd imm)) = imm := by
  simp only [fitsImmU, beq_iff_eq] at h
  rw [immU_fields, funct7Of_encodeFields, rs2Of_encodeFields, rs1Of_encodeFields, funct3Of_encodeFields]
  simp only [fieldsU]
  have e1 : imm.extractLsb' 25 7 ++ imm.extractLsb' 20 5 = imm.extractLsb' 20 12 := extract_append_extract imm
  have e2 : imm.extractLsb' 20 12 ++ imm.extractLsb' 15 5 = imm.extractLsb' 15 17 := extract_append_extract imm
  have e3 : imm.extractLsb' 15 17 ++ imm.extractLsb' 12 3 = imm.extractLsb' 12 20 := extract_append_extract imm
  have e4 : imm.extractLsb' 12 20 ++ imm.extractLsb' 0 12 = imm.extractLsb' 0 32 := extract_append_extract imm
  rw [e1, e2, e3, ← h, e4, extract_self _ rfl]
  rfl

theorem immJ_encode (rd : Reg) {imm : Word} (h : fitsImmJ imm = true) :
    immJ (encodeFields (fieldsJ rd imm)) = imm := by
  simp only [fitsImmJ, Bool.and_eq_true, beq_iff_eq] at h
  rw [immJ_fields, funct7Of_encodeFields, rs2Of_encodeFields, rs1Of_encodeFields, funct3Of_encodeFields]
  simp only [fieldsJ]
  have h1 : (imm.extractLsb' 20 1 ++ imm.extractLsb' 5 6).extractLsb' 6 1 = imm.extractLsb' 20 1 := by
    rw [extract_append_low _ _ (by omega)]; exact extract_self _ rfl
  have h2 : (imm.extractLsb' 1 4 ++ imm.extractLsb' 11 1).extractLsb' 0 1 = imm.extractLsb' 11 1 :=
    BitVec.extractLsb'_append_eq_right
  have h3 : (imm.extractLsb' 20 1 ++ imm.extractLsb' 5 6).extractLsb' 0 6 = imm.extractLsb' 5 6 :=
    BitVec.extractLsb'_append_eq_right
  have h4 : (imm.extractLsb' 1 4 ++ imm.extractLsb' 11 1).extractLsb' 1 4 = imm.extractLsb' 1 4 := by
    rw [extract_append_low _ _ (by omega)]; exact extract_self _ rfl
  have e1 : imm.extractLsb' 15 5 ++ imm.extractLsb' 12 3 = imm.extractLsb' 12 8 := extract_append_extract imm
  have e2 : imm.extractLsb' 5 6 ++ imm.extractLsb' 1 4 = imm.extractLsb' 1 10 := extract_append_extract imm
  have e3 : imm.extractLsb' 20 1 ++ imm.extractLsb' 12 8 = imm.extractLsb' 12 9 := extract_append_extract imm
  have e4 : imm.extractLsb' 12 9 ++ imm.extractLsb' 11 1 = imm.extractLsb' 11 10 := extract_append_extract imm
  have e5 : imm.extractLsb' 11 10 ++ imm.extractLsb' 1 10 = imm.extractLsb' 1 20 := extract_append_extract imm
  have e6 : imm.extractLsb' 1 20 ++ imm.extractLsb' 0 1 = imm.extractLsb' 0 21 := extract_append_extract imm
  rw [h1, h2, h3, h4, e1, e2, e3, e4, e5, ← h.2, e6]
  exact h.1

/-! ### The decoder in terms of the fields -/

/-- What the decoder finds, once the format of the opcode is known. -/
theorem decodeFields_of_format {trapWord6B : Bool} {w : Word} {fmt : Format}
    (h : formatOf trapWord6B (opcodeOf w) = some fmt) :
    decodeFields trapWord6B w = .ok ⟨fmt, opcodeOf w, rdOf w, rs1Of w, rs2Of w, funct3Of w, funct7Of w, immOf fmt w⟩ := by
  simp only [decodeFields, h]

/-- The fields of an encoded legal record are the record (R72). -/
theorem decodeFields_encode {trapWord6B : Bool} {f : Fields} (hf : formatOf trapWord6B f.opcode = some f.fmt)
    (hi : immOf f.fmt (encodeFields f) = f.imm) : decodeFields trapWord6B (encodeFields f) = .ok f := by
  rw [decodeFields_of_format (fmt := f.fmt) (by rw [opcodeOf_encodeFields]; exact hf)]
  simp only [opcodeOf_encodeFields, rdOf_encodeFields, rs1Of_encodeFields, rs2Of_encodeFields,
    funct3Of_encodeFields, funct7Of_encodeFields, hi]

/-- The decoder's answer once fields and dispatch are known. -/
theorem decode_of_fields {trapWord6B : Bool} {w : Word} {f : Fields} {i : Instr}
    (hf : decodeFields trapWord6B w = .ok f) (hl : (lookup f).bind (·.select f) = some i) :
    decode trapWord6B w = .ok i := by
  simp only [decode, hf, hl]

/-! ### Every way the decoder can give an instruction (R73, R74, R210) -/

/-- The decoded view of a word whose format is known. -/
def fieldsOf (fmt : Format) (w : Word) : Fields :=
  ⟨fmt, opcodeOf w, rdOf w, rs1Of w, rs2Of w, funct3Of w, funct7Of w, immOf fmt w⟩

/-- A decoded word has a format, and one entry of the table matches its fields and selects the
instruction. -/
theorem decode_cases {trapWord6B : Bool} {w : Word} {i : Instr} (h : decode trapWord6B w = .ok i) :
    ∃ fmt, formatOf trapWord6B (opcodeOf w) = some fmt ∧
      ∃ e ∈ dispatchTable, e.matches (fieldsOf fmt w) = true ∧ e.select (fieldsOf fmt w) = some i := by
  unfold decode at h
  cases hf : formatOf trapWord6B (opcodeOf w) with
  | none => simp [decodeFields, hf] at h
  | some fmt =>
    rw [decodeFields_of_format hf] at h
    refine ⟨fmt, rfl, ?_⟩
    change (match (lookup (fieldsOf fmt w)).bind (·.select (fieldsOf fmt w)) with
      | none => .error (DecodeError.noDispatchEntry w)
      | some i => .ok i) = Except.ok i at h
    cases hl : lookup (fieldsOf fmt w) with
    | none => simp [hl] at h
    | some e =>
      refine ⟨e, List.mem_of_find?_eq_some hl, by simpa using List.find?_some hl, ?_⟩
      cases hs : e.select (fieldsOf fmt w) with
      | none => simp [hl, hs] at h
      | some j => simp [hl, hs] at h; rw [h]

theorem selectSys_cases {f : Fields} {i : Instr} (h : selectSys f = some i) :
    f.rd = 0#5 ∧ f.rs1 = 0#5 ∧ ((i = .ecall ∧ f.imm = 0#32) ∨ (i = .ebreak ∧ f.imm = 1#32)) := by
  unfold selectSys at h
  split at h
  · rename_i hc; injection h with h; exact ⟨hc.1, hc.2.1, .inl ⟨h.symm, hc.2.2⟩⟩
  · split at h
    · rename_i hc; injection h with h; exact ⟨hc.1, hc.2.1, .inr ⟨h.symm, hc.2.2⟩⟩
    · simp at h

end Sys2Proof
end

