-- ==== Sys2Proof/Laws/Memory.lean ====
section
/-! SUPPORT. Laws/Memory.lean: reads after writes, and that every memory operation keeps the canonical
form (R40 to R47). -/

namespace Sys2Proof.Machine

/-! ### One byte -/

@[simp] theorem Memory.get_nil (a : Nat) : Memory.get [] a = Config.unlistedByte := rfl

theorem Memory.get_cons (k : Nat) (b : Byte) (m : Memory) (a : Nat) :
    Memory.get ((k, b) :: m) a = if a = k then b else Memory.get m a := rfl

/-- An address no cell lists reads as an unlisted address. -/
theorem Memory.get_of_not_listed {m : Memory} {a : Nat} (h : ∀ c ∈ m, c.1 ≠ a) :
    Memory.get m a = Config.unlistedByte := by
  induction m with
  | nil => rfl
  | cons c m ih =>
    obtain ⟨k, b⟩ := c
    have hk : a ≠ k := fun e => h (k, b) (by simp) e.symm
    rw [Memory.get_cons, if_neg hk]
    exact ih fun c hc => h c (by simp [hc])

/-- A write leaves every other byte alone. -/
theorem Memory.get_set_other {m : Memory} {a b : Nat} (h : b ≠ a) (v : Byte) :
    Memory.get (Memory.set m a v) b = Memory.get m b := by
  induction m with
  | nil => simp only [Memory.set]; split <;> simp [Memory.get_cons, h]
  | cons c m ih =>
    obtain ⟨k, w⟩ := c
    simp only [Memory.set]
    split
    · split <;> simp [Memory.get_cons, h]
    · split
      · rename_i hak; subst hak; split <;> simp [Memory.get_cons, h]
      · simp only [Memory.get_cons, ih]

/-- A read after a write to the same place gives the value written. -/
theorem Memory.get_set_same {m : Memory} (hm : Memory.wf m) (a : Nat) (v : Byte) :
    Memory.get (Memory.set m a v) a = v := by
  induction m with
  | nil => simp only [Memory.set]; split <;> simp_all [Memory.get_cons]
  | cons c m ih =>
    obtain ⟨k, w⟩ := c
    have hlt : ∀ c ∈ m, k < c.1 := (List.pairwise_cons.mp hm.1).1
    have hm' : Memory.wf m := ⟨(List.pairwise_cons.mp hm.1).2, fun c hc => hm.2 c (by simp [hc])⟩
    simp only [Memory.set]
    split
    · rename_i hak
      split
      · rename_i hv
        rw [hv]
        refine Memory.get_of_not_listed fun c hc => ?_
        rcases List.mem_cons.mp hc with rfl | hc
        · exact fun e => by simp at e; omega
        · exact fun e => by have := hlt c hc; omega
      · simp [Memory.get_cons]
    · split
      · rename_i hak
        split
        · rename_i hv
          rw [hv]
          exact Memory.get_of_not_listed fun c hc e => by have := hlt c hc; omega
        · simp [Memory.get_cons]
      · rename_i h1 h2
        rw [Memory.get_cons, if_neg h2, ih hm']

/-- Every listed address of a written memory is a listed one or the written one. -/
theorem Memory.mem_set {m : Memory} {a : Nat} {v : Byte} {c : Host.Cell} (h : c ∈ Memory.set m a v) :
    c ∈ m ∨ (c = (a, v) ∧ v ≠ Config.unlistedByte) := by
  induction m with
  | nil =>
    simp only [Memory.set] at h
    split at h
    · simp at h
    · rename_i hv; exact .inr ⟨by simpa using h, hv⟩
  | cons d m ih =>
    obtain ⟨k, w⟩ := d
    simp only [Memory.set] at h
    split at h
    · split at h
      · exact .inl h
      · rename_i hv
        rcases List.mem_cons.mp h with h | h
        · exact .inr ⟨h, hv⟩
        · exact .inl h
    · split at h
      · split at h
        · exact .inl (List.mem_cons_of_mem _ h)
        · rename_i hv
          rcases List.mem_cons.mp h with h | h
          · exact .inr ⟨h, hv⟩
          · exact .inl (List.mem_cons_of_mem _ h)
      · rcases List.mem_cons.mp h with h | h
        · exact .inl (by simp [h])
        · rcases ih h with h | h
          · exact .inl (List.mem_cons_of_mem _ h)
          · exact .inr h

/-- A write keeps the canonical form. -/
theorem Memory.wf_set {m : Memory} (hm : Memory.wf m) (a : Nat) (v : Byte) :
    Memory.wf (Memory.set m a v) := by
  refine ⟨?_, fun c hc => ?_⟩
  · induction m with
    | nil => simp only [Memory.set]; split <;> simp
    | cons d m ih =>
      obtain ⟨k, w⟩ := d
      obtain ⟨hlt, htail⟩ := List.pairwise_cons.mp hm.1
      have hm' : Memory.wf m := ⟨htail, fun c hc => hm.2 c (by simp [hc])⟩
      simp only [Memory.set]
      split
      · rename_i hak
        split
        · exact hm.1
        · refine List.pairwise_cons.mpr ⟨fun c hc => ?_, hm.1⟩
          rcases List.mem_cons.mp hc with rfl | hc
          · exact hak
          · exact Nat.lt_trans hak (hlt c hc)
      · split
        · rename_i hak
          split
          · exact htail
          · exact List.pairwise_cons.mpr ⟨fun c hc => hak ▸ hlt c hc, htail⟩
        · rename_i h1 h2
          refine List.pairwise_cons.mpr ⟨fun c hc => ?_, ih hm'⟩
          rcases Memory.mem_set hc with hc | ⟨rfl, -⟩
          · exact hlt c hc
          · show k < a; omega
  · rcases Memory.mem_set hc with hc | ⟨rfl, hv⟩
    · exact hm.2 c hc
    · exact hv

theorem Memory.within_set {p : Config.Params} {m : Memory} (hm : Memory.within p m) {a : Nat} (v : Byte)
    (ha : p.memBase.toNat ≤ a ∧ a < p.memBase.toNat + p.memSize) : Memory.within p (Memory.set m a v) := by
  intro c hc
  rcases Memory.mem_set hc with hc | ⟨rfl, -⟩
  · exact hm c hc
  · exact ha

/-! ### The bytes of an access -/

theorem Memory.wf_writeBytes {m : Memory} (hm : Memory.wf m) (a : Nat) (v : Word) (n : Nat) :
    Memory.wf (Memory.writeBytes m a v n) := by
  induction n generalizing m a v with
  | zero => exact hm
  | succ n ih => exact ih (Memory.wf_set hm a _) (a + 1) (v >>> 8)

theorem Memory.within_writeBytes {p : Config.Params} {m : Memory} (hm : Memory.within p m) {a n : Nat} (v : Word)
    (ha : p.memBase.toNat ≤ a ∧ a + n ≤ p.memBase.toNat + p.memSize) :
    Memory.within p (Memory.writeBytes m a v n) := by
  induction n generalizing m a v with
  | zero => exact hm
  | succ n ih =>
    exact ih (Memory.within_set hm _ ⟨ha.1, by omega⟩) (v >>> 8) ⟨by omega, by omega⟩

/-- A write leaves every byte outside its own alone (R43, R47). -/
theorem Memory.get_writeBytes_outside {m : Memory} {a b n : Nat} (v : Word) (h : b < a ∨ a + n ≤ b) :
    Memory.get (Memory.writeBytes m a v n) b = Memory.get m b := by
  induction n generalizing m a v with
  | zero => rfl
  | succ n ih =>
    rw [Memory.writeBytes, ih (v >>> 8) (by omega), Memory.get_set_other (by omega)]

theorem extract_shift (v : Word) (k : Nat) :
    (v >>> 8).extractLsb' (8 * k) 8 = v.extractLsb' (8 * (k + 1)) 8 := by
  apply BitVec.eq_of_getLsbD_eq
  intro i hi
  simp only [BitVec.getLsbD_extractLsb', BitVec.getLsbD_ushiftRight]
  congr 2
  omega

theorem setWidth_eq_extract (v : Word) : v.setWidth 8 = v.extractLsb' 0 8 := by
  apply BitVec.eq_of_getLsbD_eq
  intro i hi
  simp [hi]

/-- Byte k of the value stands at a + k after a write (R43, R45). -/
theorem Memory.get_writeBytes_inside {m : Memory} (hm : Memory.wf m) {a k n : Nat} (v : Word) (h : k < n) :
    Memory.get (Memory.writeBytes m a v n) (a + k) = v.extractLsb' (8 * k) 8 := by
  induction n generalizing m a v k with
  | zero => omega
  | succ n ih =>
    rw [Memory.writeBytes]
    cases k with
    | zero =>
      rw [Memory.get_writeBytes_outside (v >>> 8) (by omega), Nat.add_zero, Memory.get_set_same hm]
      exact setWidth_eq_extract v
    | succ k =>
      have := ih (Memory.wf_set hm a (v.setWidth 8)) (a := a + 1) (k := k) (v >>> 8) (by omega)
      rw [show a + (k + 1) = a + 1 + k by omega, this, extract_shift]

/-- A read depends on its own bytes alone (R42, R47). -/
theorem Memory.readBytes_congr {m m' : Memory} {a n : Nat}
    (h : ∀ k, k < n → Memory.get m' (a + k) = Memory.get m (a + k)) :
    Memory.readBytes m' a n = Memory.readBytes m a n := by
  induction n generalizing a with
  | zero => rfl
  | succ n ih =>
    rw [Memory.readBytes, Memory.readBytes, ih fun k hk => ?_]
    · rw [show Memory.get m' a = Memory.get m a from h 0 (by omega)]
    · have := h (k + 1) (by omega)
      rwa [show a + (k + 1) = a + 1 + k by omega] at this

/-- Byte k of a read is the byte at a + k (R42, R45). -/
theorem Memory.extract_readBytes (m : Memory) (a : Nat) {k n : Nat} (hk : k < n) (hn : n ≤ 4) :
    (Memory.readBytes m a n).extractLsb' (8 * k) 8 = Memory.get m (a + k) := by
  induction n generalizing a k with
  | zero => omega
  | succ n ih =>
    cases k with
    | zero =>
      apply BitVec.eq_of_getLsbD_eq
      intro i hi
      simp only [Memory.readBytes, BitVec.getLsbD_extractLsb', BitVec.getLsbD_or, BitVec.getLsbD_setWidth,
        BitVec.getLsbD_shiftLeft, hi, Nat.mul_zero, Nat.zero_add, Nat.add_zero, decide_true, Bool.true_and,
        Bool.not_true, Bool.and_false, Bool.false_and, Bool.or_false]
      rw [decide_eq_true (by omega), Bool.true_and]
    | succ k =>
      rw [show a + (k + 1) = a + 1 + k by omega, ← ih (a + 1) (by omega : k < n) (by omega)]
      apply BitVec.eq_of_getLsbD_eq
      intro i hi
      have h8 : (Memory.get m a).getLsbD (8 * (k + 1) + i) = false :=
        BitVec.getLsbD_of_ge _ _ (by omega)
      simp only [Memory.readBytes, BitVec.getLsbD_extractLsb', BitVec.getLsbD_or, BitVec.getLsbD_setWidth,
        BitVec.getLsbD_shiftLeft, hi, decide_true, Bool.true_and, h8, Bool.and_false, Bool.false_or]
      rw [decide_eq_true (by omega : 8 * (k + 1) + i < 32), decide_eq_false (by omega : ¬ 8 * (k + 1) + i < 8)]
      simp only [Bool.not_false, Bool.true_and]
      congr 1
      omega

/-- A read's bits above its bytes are 0: the raw bits are zero-extended (R42). -/
theorem Memory.readBytes_high (m : Memory) (a : Nat) {i n : Nat} (h : 8 * n ≤ i) :
    (Memory.readBytes m a n).getLsbD i = false := by
  induction n generalizing a i with
  | zero => simp [Memory.readBytes]
  | succ n ih =>
    have h8 : (Memory.get m a).getLsbD i = false := BitVec.getLsbD_of_ge _ _ (by omega)
    simp only [Memory.readBytes, BitVec.getLsbD_or, BitVec.getLsbD_setWidth, BitVec.getLsbD_shiftLeft, h8,
      Bool.and_false, Bool.false_or, ih (a + 1) (i := i - 8) (by omega)]

/-! ### The collaborator's stores -/

theorem Memory.wf_storeAll (p : Config.Params) {m : Memory} (hm : Memory.wf m) (cs : List Host.Cell) :
    Memory.wf (Memory.storeAll p m cs) := by
  induction cs generalizing m with
  | nil => exact hm
  | cons c cs ih =>
    obtain ⟨a, b⟩ := c
    rw [Memory.storeAll]
    apply ih
    split
    · exact Memory.wf_set hm a b
    · exact hm

theorem Memory.within_storeAll (p : Config.Params) {m : Memory} (hm : Memory.within p m) (cs : List Host.Cell) :
    Memory.within p (Memory.storeAll p m cs) := by
  induction cs generalizing m with
  | nil => exact hm
  | cons c cs ih =>
    obtain ⟨a, b⟩ := c
    rw [Memory.storeAll]
    apply ih
    split
    · rename_i h; exact Memory.within_set hm b h
    · exact hm

end Sys2Proof.Machine
end

