-- ==== Sys2Proof/Laws/State.lean ====
section
/-! SUPPORT. Laws/State.lean: one lemma per field per update of State, and the reset values (R34). -/

namespace Sys2Proof.Machine

/-! ### jumpTo, advance, raise, halt, applyAnswer -/

@[simp] theorem State.jumpTo_cfg (s : State) (t : Word) : (s.jumpTo t).cfg = s.cfg := rfl
@[simp] theorem State.jumpTo_gpr (s : State) (t : Word) : (s.jumpTo t).gpr = s.gpr := rfl
@[simp] theorem State.jumpTo_pc (s : State) (t : Word) : (s.jumpTo t).pc = t := rfl
@[simp] theorem State.jumpTo_status (s : State) (t : Word) : (s.jumpTo t).status = s.status := rfl
@[simp] theorem State.jumpTo_exitCode (s : State) (t : Word) : (s.jumpTo t).exitCode = s.exitCode := rfl
@[simp] theorem State.jumpTo_trapValue (s : State) (t : Word) : (s.jumpTo t).trapValue = s.trapValue := rfl
@[simp] theorem State.jumpTo_mem (s : State) (t : Word) : (s.jumpTo t).mem = s.mem := rfl
@[simp] theorem State.jumpTo_hostDraws (s : State) (t : Word) : (s.jumpTo t).hostDraws = s.hostDraws := rfl

@[simp] theorem State.advance_cfg (s : State) : (s.advance).cfg = s.cfg := rfl
@[simp] theorem State.advance_gpr (s : State) : (s.advance).gpr = s.gpr := rfl
@[simp] theorem State.advance_pc (s : State) : (s.advance).pc = s.pc + 4#32 := rfl
@[simp] theorem State.advance_status (s : State) : (s.advance).status = s.status := rfl
@[simp] theorem State.advance_exitCode (s : State) : (s.advance).exitCode = s.exitCode := rfl
@[simp] theorem State.advance_trapValue (s : State) : (s.advance).trapValue = s.trapValue := rfl
@[simp] theorem State.advance_mem (s : State) : (s.advance).mem = s.mem := rfl
@[simp] theorem State.advance_hostDraws (s : State) : (s.advance).hostDraws = s.hostDraws := rfl

@[simp] theorem State.raise_cfg (s : State) (c : TrapCode) (v : Word) : (s.raise c v).cfg = s.cfg := rfl
@[simp] theorem State.raise_gpr (s : State) (c : TrapCode) (v : Word) : (s.raise c v).gpr = s.gpr := rfl
@[simp] theorem State.raise_pc (s : State) (c : TrapCode) (v : Word) : (s.raise c v).pc = s.pc := rfl
@[simp] theorem State.raise_status (s : State) (c : TrapCode) (v : Word) : (s.raise c v).status = .trapped c := rfl
@[simp] theorem State.raise_exitCode (s : State) (c : TrapCode) (v : Word) : (s.raise c v).exitCode = s.exitCode := rfl
@[simp] theorem State.raise_trapValue (s : State) (c : TrapCode) (v : Word) : (s.raise c v).trapValue = v := rfl
@[simp] theorem State.raise_mem (s : State) (c : TrapCode) (v : Word) : (s.raise c v).mem = s.mem := rfl
@[simp] theorem State.raise_hostDraws (s : State) (c : TrapCode) (v : Word) : (s.raise c v).hostDraws = s.hostDraws := rfl

@[simp] theorem State.halt_cfg (s : State) (code : Word) : (s.halt code).cfg = s.cfg := rfl
@[simp] theorem State.halt_gpr (s : State) (code : Word) : (s.halt code).gpr = s.gpr := rfl
@[simp] theorem State.halt_pc (s : State) (code : Word) : (s.halt code).pc = s.pc := rfl
@[simp] theorem State.halt_status (s : State) (code : Word) : (s.halt code).status = .halted := rfl
@[simp] theorem State.halt_exitCode (s : State) (code : Word) : (s.halt code).exitCode = code := rfl
@[simp] theorem State.halt_trapValue (s : State) (code : Word) : (s.halt code).trapValue = s.trapValue := rfl
@[simp] theorem State.halt_mem (s : State) (code : Word) : (s.halt code).mem = s.mem := rfl
@[simp] theorem State.halt_hostDraws (s : State) (code : Word) : (s.halt code).hostDraws = s.hostDraws := rfl

@[simp] theorem State.applyAnswer_cfg (s : State) (a : EcallAnswer) : (s.applyAnswer a).cfg = s.cfg := rfl
@[simp] theorem State.applyAnswer_gpr (s : State) (a : EcallAnswer) : (s.applyAnswer a).gpr = a.gpr := rfl
@[simp] theorem State.applyAnswer_pc (s : State) (a : EcallAnswer) : (s.applyAnswer a).pc = a.pc := rfl
@[simp] theorem State.applyAnswer_status (s : State) (a : EcallAnswer) : (s.applyAnswer a).status = a.status := rfl
@[simp] theorem State.applyAnswer_exitCode (s : State) (a : EcallAnswer) : (s.applyAnswer a).exitCode = a.exitCode := rfl
@[simp] theorem State.applyAnswer_trapValue (s : State) (a : EcallAnswer) : (s.applyAnswer a).trapValue = a.trapValue := rfl
@[simp] theorem State.applyAnswer_mem (s : State) (a : EcallAnswer) : (s.applyAnswer a).mem = Memory.storeAll s.cfg s.mem a.stores := rfl
@[simp] theorem State.applyAnswer_hostDraws (s : State) (a : EcallAnswer) : (s.applyAnswer a).hostDraws = s.hostDraws + 1 := rfl

/-! ### setReg: only `gpr` can change -/

@[simp] theorem State.setReg_cfg (s : State) (r : Reg) (v : Word) : (s.setReg r v).cfg = s.cfg := by
  unfold State.setReg; split <;> rfl
@[simp] theorem State.setReg_pc (s : State) (r : Reg) (v : Word) : (s.setReg r v).pc = s.pc := by
  unfold State.setReg; split <;> rfl
@[simp] theorem State.setReg_status (s : State) (r : Reg) (v : Word) : (s.setReg r v).status = s.status := by
  unfold State.setReg; split <;> rfl
@[simp] theorem State.setReg_exitCode (s : State) (r : Reg) (v : Word) : (s.setReg r v).exitCode = s.exitCode := by
  unfold State.setReg; split <;> rfl
@[simp] theorem State.setReg_trapValue (s : State) (r : Reg) (v : Word) : (s.setReg r v).trapValue = s.trapValue := by
  unfold State.setReg; split <;> rfl
@[simp] theorem State.setReg_mem (s : State) (r : Reg) (v : Word) : (s.setReg r v).mem = s.mem := by
  unfold State.setReg; split <;> rfl
@[simp] theorem State.setReg_hostDraws (s : State) (r : Reg) (v : Word) : (s.setReg r v).hostDraws = s.hostDraws := by
  unfold State.setReg; split <;> rfl

/-! ### Registers: getReg reads `gpr` alone, and reads after writes (R21, R22) -/

theorem State.getReg_congr {s t : State} (h : t.gpr = s.gpr) (r : Reg) : t.getReg r = s.getReg r := by
  simp only [State.getReg, h]

@[simp] theorem State.getReg_zero (s : State) : s.getReg 0#5 = 0#32 := by simp [State.getReg]

@[simp] theorem State.setReg_zero (s : State) (v : Word) : s.setReg 0#5 v = s := by simp [State.setReg]

@[simp] theorem State.getReg_jumpTo (s : State) (t : Word) (r : Reg) : (s.jumpTo t).getReg r = s.getReg r :=
  State.getReg_congr rfl r

@[simp] theorem State.getReg_advance (s : State) (r : Reg) : s.advance.getReg r = s.getReg r :=
  State.getReg_congr rfl r

@[simp] theorem State.getReg_raise (s : State) (c : TrapCode) (v : Word) (r : Reg) :
    (s.raise c v).getReg r = s.getReg r := State.getReg_congr rfl r

@[simp] theorem State.getReg_halt (s : State) (code : Word) (r : Reg) :
    (s.halt code).getReg r = s.getReg r := State.getReg_congr rfl r

/-- A nonzero register's index in `gpr` is its own. -/
theorem Reg.index_inj {r q : Reg} (hr : r ≠ 0#5) (hq : q ≠ 0#5) (h : r.toNat - 1 = q.toNat - 1) : r = q := by
  have h1 : r.toNat ≠ 0 := fun e => hr (BitVec.eq_of_toNat_eq e)
  have h2 : q.toNat ≠ 0 := fun e => hq (BitVec.eq_of_toNat_eq e)
  exact BitVec.eq_of_toNat_eq (by omega)

theorem State.getReg_setReg_same (s : State) {r : Reg} (hr : r ≠ 0#5) (v : Word) :
    (s.setReg r v).getReg r = v := by
  simp [State.getReg, State.setReg, hr]

theorem State.getReg_setReg_other (s : State) {r q : Reg} (h : q ≠ r) (v : Word) :
    (s.setReg r v).getReg q = s.getReg q := by
  by_cases hr : r = 0#5
  · subst hr; simp
  by_cases hq : q = 0#5
  · subst hq; simp
  have hne : r.toNat - 1 ≠ q.toNat - 1 := fun e => h (Reg.index_inj hr hq e).symm
  simp [State.getReg, State.setReg, hr, hq, hne]

/-! ### Reset (R34) -/

@[simp] theorem State.reset_status : State.reset.status = .running := rfl
@[simp] theorem State.reset_exitCode : State.reset.exitCode = 0#32 := rfl
@[simp] theorem State.reset_trapValue : State.reset.trapValue = 0#32 := rfl
@[simp] theorem State.reset_mem : State.reset.mem = [] := rfl
@[simp] theorem State.reset_pc : State.reset.pc = Config.resetPc := rfl
@[simp] theorem State.reset_cfg : State.reset.cfg = Config.Params.suggested := rfl

end Sys2Proof.Machine
end

