-- ==== Sys2Proof/Laws/Effects.lean ====
section
/-! SUPPORT. Laws/Effects.lean: what each shared operation of a handler can do, in the terms of
Safety.lean; claims about instructions cite these instead of unfolding the operations. -/

namespace Sys2Proof.Machine

/-! ### Predicates and their arithmetic -/

theorem inRange_iff (p : Config.Params) (a : Word) (n : Nat) :
    inRange p a n = true ↔ p.memBase.toNat ≤ a.toNat ∧ a.toNat + n ≤ p.memBase.toNat + p.memSize := by
  simp [inRange]

theorem inRange_iff_inRegion (s : State) (a : Word) (n : Nat) :
    inRange s.cfg a n = true ↔ InRegion s a n := inRange_iff s.cfg a n

theorem aligned4_iff (a : Word) : aligned4 a = true ↔ a.toNat % 4 = 0 := by
  have h : (a.extractLsb' 0 2).toNat = a.toNat % 4 := by simp [BitVec.extractLsb'_toNat]
  simp only [aligned4, beq_iff_eq]
  constructor
  · intro e; rw [← h, e]; rfl
  · intro e; exact BitVec.eq_of_toNat_eq (by rw [h, e]; rfl)

theorem aligned4_false_iff (a : Word) : aligned4 a = false ↔ a.toNat % 4 ≠ 0 := by
  rw [← not_iff_not, Bool.not_eq_false, aligned4_iff]; simp

theorem lessSigned_iff (a b : Word) : lessSigned a b = true ↔ a.toInt < b.toInt :=
  BitVec.slt_iff_toInt_lt

theorem lessUnsigned_iff (a b : Word) : lessUnsigned a b = true ↔ a.toNat < b.toNat := by
  simp [lessUnsigned, BitVec.ult]

/-! ### The memory ports (R42, R43) -/

theorem memRead_of_inRegion {s : State} {a : Word} {w : Width} (h : InRegion s a w.bytes) :
    s.memRead a w = some (Memory.readBytes s.mem a.toNat w.bytes) := by
  rw [State.memRead, if_pos ((inRange_iff_inRegion s a _).mpr h)]

theorem memRead_of_not_inRegion {s : State} {a : Word} {w : Width} (h : ¬ InRegion s a w.bytes) :
    s.memRead a w = none := by
  rw [State.memRead, if_neg (mt (inRange_iff_inRegion s a _).mp h)]

theorem memWrite_of_inRegion {s : State} {a : Word} {w : Width} (v : Word) (h : InRegion s a w.bytes) :
    s.memWrite a w v = some { s with mem := Memory.writeBytes s.mem a.toNat v w.bytes } := by
  rw [State.memWrite, if_pos ((inRange_iff_inRegion s a _).mpr h)]

theorem memWrite_of_not_inRegion {s : State} {a : Word} {w : Width} (v : Word) (h : ¬ InRegion s a w.bytes) :
    s.memWrite a w v = none := by
  rw [State.memWrite, if_neg (mt (inRange_iff_inRegion s a _).mp h)]

/-! ### Equalities that need no more than the fields -/

theorem SameBytes.of_mem {s t : State} (h : t.mem = s.mem) : SameBytes s t :=
  fun a => by rw [State.byteAt, State.byteAt, h]

theorem SameRegisters.of_gpr {s t : State} (h : t.gpr = s.gpr) : SameRegisters s t :=
  fun r => State.getReg_congr h r

/-! ### Effects of the shared operations -/

theorem jumpTo_effect (s : State) (t : Word) : PcEffect s (s.jumpTo t) t :=
  ⟨.of_gpr rfl, rfl, .of_mem rfl, ⟨rfl, rfl, rfl⟩, ⟨rfl, rfl⟩⟩

theorem raise_effect (s : State) (c : TrapCode) (v : Word) : TrapEffect s (s.raise c v) c v :=
  ⟨rfl, rfl, .of_gpr rfl, rfl, .of_mem rfl, rfl, ⟨rfl, rfl⟩⟩

theorem halt_effect (s : State) (code : Word) : HaltEffect s (s.halt code) code :=
  ⟨rfl, rfl, .of_gpr rfl, rfl, .of_mem rfl, rfl, ⟨rfl, rfl⟩⟩

/-- A register write followed by a jump: the effect of every handler with a destination. -/
theorem setReg_jumpTo_effect (s : State) (rd : Reg) (v t : Word) :
    RegisterEffect s ((s.setReg rd v).jumpTo t) rd v t := by
  refine ⟨?_, fun hrd => ?_, fun r hr => ?_, rfl, .of_mem (by simp), ⟨by simp, by simp, by simp⟩,
    ⟨by simp, by simp⟩⟩
  · simp
  · rw [State.getReg_jumpTo, State.getReg_setReg_same s hrd]
  · rw [State.getReg_jumpTo, State.getReg_setReg_other s hr]

theorem completeReg_effect (s : State) (rd : Reg) (v : Word) :
    ∃ t, s.completeReg rd v = .next t ∧ RegisterEffect s t rd v (s.pc + 4) := by
  refine ⟨(s.setReg rd v).jumpTo ((s.setReg rd v).pc + 4#32), rfl, ?_⟩
  rw [State.setReg_pc]
  exact setReg_jumpTo_effect s rd v _

/-- `transfer` to an aligned target with a link (R168). -/
theorem transfer_link_effect (s : State) (rd : Reg) (v : Word) {t : Word} (ht : t.toNat % 4 = 0) :
    ∃ u, s.transfer (s.setReg rd v) t = .next u ∧ RegisterEffect s u rd v t := by
  rw [State.transfer, if_pos ((aligned4_iff t).mpr ht)]
  exact ⟨_, rfl, setReg_jumpTo_effect s rd v t⟩

/-- `transfer` to an aligned target with no link (R168). -/
theorem transfer_effect (s : State) {t : Word} (ht : t.toNat % 4 = 0) :
    ∃ u, s.transfer s t = .next u ∧ PcEffect s u t := by
  rw [State.transfer, if_pos ((aligned4_iff t).mpr ht)]
  exact ⟨_, rfl, jumpTo_effect s t⟩

/-- `transfer` to a misaligned target traps, whatever it would have written (R168, R304). -/
theorem transfer_traps (s s' : State) {t : Word} (ht : t.toNat % 4 ≠ 0) :
    ∃ u, s.transfer s' t = .next u ∧ TrapEffect s u .misalignedPc t := by
  rw [State.transfer, if_neg (mt (aligned4_iff t).mp ht)]
  exact ⟨_, rfl, raise_effect s _ _⟩

theorem branch_not_taken (s : State) (imm : Word) :
    ∃ u, s.branch false imm = .next u ∧ PcEffect s u (s.pc + 4) :=
  ⟨_, rfl, jumpTo_effect s _⟩

theorem load_effect {s : State} {w : Width} {ea : Word} (extend : Word → Word) (rd : Reg)
    (h : InRegion s ea w.bytes) :
    ∃ t, s.load w ea extend rd = .next t ∧
      RegisterEffect s t rd (extend (Memory.readBytes s.mem ea.toNat w.bytes)) (s.pc + 4) := by
  rw [State.load, memRead_of_inRegion h]
  exact completeReg_effect s rd _

theorem load_traps {s : State} {w : Width} {ea : Word} (extend : Word → Word) (rd : Reg)
    (h : ¬ InRegion s ea w.bytes) :
    ∃ t, s.load w ea extend rd = .next t ∧ TrapEffect s t .memFault ea := by
  rw [State.load, memRead_of_not_inRegion h]
  exact ⟨_, rfl, raise_effect s _ _⟩

theorem store_effect {s : State} {w : Width} {ea : Word} (v : Word) (hm : Memory.wf s.mem)
    (h : InRegion s ea w.bytes) :
    ∃ t, s.store w ea v = .next t ∧ StoreEffect s t ea w.bytes v := by
  rw [State.store, memWrite_of_inRegion v h]
  refine ⟨_, rfl, fun k hk => ?_, fun b hb => ?_, .of_gpr rfl, rfl, ⟨rfl, rfl, rfl⟩, ⟨rfl, rfl⟩⟩
  · exact Memory.get_writeBytes_inside hm v hk
  · exact Memory.get_writeBytes_outside v hb

theorem store_traps {s : State} {w : Width} {ea : Word} (v : Word) (h : ¬ InRegion s ea w.bytes) :
    ∃ t, s.store w ea v = .next t ∧ TrapEffect s t .memFault ea := by
  rw [State.store, memWrite_of_not_inRegion v h]
  exact ⟨_, rfl, raise_effect s _ _⟩

/-! ### Inversions: every way an operation can answer next -/

theorem transfer_cases {s s' u : State} {t : Word} (h : s.transfer s' t = .next u) :
    (t.toNat % 4 = 0 ∧ u = s'.jumpTo t) ∨ (t.toNat % 4 ≠ 0 ∧ u = s.raise .misalignedPc t) := by
  unfold State.transfer at h
  split at h
  · rename_i ha; exact .inl ⟨(aligned4_iff t).mp ha, by injection h with h; exact h.symm⟩
  · rename_i ha
    exact .inr ⟨mt (aligned4_iff t).mpr ha, by injection h with h; exact h.symm⟩

theorem branch_cases {s u : State} {taken : Bool} {imm : Word} (h : s.branch taken imm = .next u) :
    (taken = true ∧ (s.pc + imm).toNat % 4 = 0 ∧ u = s.jumpTo (s.pc + imm)) ∨
    (taken = true ∧ (s.pc + imm).toNat % 4 ≠ 0 ∧ u = s.raise .misalignedPc (s.pc + imm)) ∨
    (taken = false ∧ u = s.advance) := by
  cases taken with
  | false => exact .inr (.inr ⟨rfl, by injection h with h; exact h.symm⟩)
  | true =>
    rcases transfer_cases (s := s) (s' := s) (t := s.pcRel imm) (u := u) h with ⟨ha, hu⟩ | ⟨ha, hu⟩
    · exact .inl ⟨rfl, ha, hu⟩
    · exact .inr (.inl ⟨rfl, ha, hu⟩)

theorem load_cases {s u : State} {w : Width} {ea : Word} {extend : Word → Word} {rd : Reg}
    (h : s.load w ea extend rd = .next u) :
    (InRegion s ea w.bytes ∧
      u = (s.setReg rd (extend (Memory.readBytes s.mem ea.toNat w.bytes))).advance) ∨
    (¬ InRegion s ea w.bytes ∧ u = s.raise .memFault ea) := by
  by_cases hr : InRegion s ea w.bytes
  · rw [State.load, memRead_of_inRegion hr] at h
    exact .inl ⟨hr, by injection h with h; exact h.symm⟩
  · rw [State.load, memRead_of_not_inRegion hr] at h
    exact .inr ⟨hr, by injection h with h; exact h.symm⟩

theorem store_cases {s u : State} {w : Width} {ea v : Word} (h : s.store w ea v = .next u) :
    (InRegion s ea w.bytes ∧
      u = State.advance { s with mem := Memory.writeBytes s.mem ea.toNat v w.bytes }) ∨
    (¬ InRegion s ea w.bytes ∧ u = s.raise .memFault ea) := by
  by_cases hr : InRegion s ea w.bytes
  · rw [State.store, memWrite_of_inRegion v hr] at h
    exact .inl ⟨hr, by injection h with h; exact h.symm⟩
  · rw [State.store, memWrite_of_not_inRegion v hr] at h
    exact .inr ⟨hr, by injection h with h; exact h.symm⟩

/-! ### The cases of an instruction and of a step, said once -/

/-- Every way exec can answer next: a register write with pc + 4, a jump with or without a link, a
store, a halt, a trap, or the hand-over of an ECALL. -/
inductive ExecCase (i : Instr) (s t : State) : Prop where
  | wrote (rd : Reg) (v : Word) (hd : dest i = some rd) (hp : nextPc s i = s.pc + 4)
      (ht : t = (s.setReg rd v).advance)
  | linked (rd : Reg) (hd : dest i = some rd) (ha : (nextPc s i).toNat % 4 = 0)
      (ht : t = (s.setReg rd (s.pc + 4)).jumpTo (nextPc s i))
  | jumped (hd : dest i = none) (ha : (nextPc s i).toNat % 4 = 0) (ht : t = s.jumpTo (nextPc s i))
  | fell (hd : dest i = none) (hp : nextPc s i = s.pc + 4) (ht : t = s.advance)
  | stored (a : Word) (w : Width) (v : Word) (hd : dest i = none) (hp : nextPc s i = s.pc + 4)
      (hb : storedBytes s i = some (a.toNat, w.bytes)) (hr : InRegion s a w.bytes)
      (ht : t = State.advance { s with mem := Memory.writeBytes s.mem a.toNat v w.bytes })
  | halted (ht : t = s.halt (s.getReg Config.exitReg))
  | trapped (c : TrapCode) (v : Word) (ht : t = s.raise c v)
  | handed (hi : i = .ecall) (hh : s.cfg.ecallHostGiven = true) (ht : t = s.handOver)

theorem jalrTarget_eq (s : State) (rs1 : Reg) (imm : Word) :
    s.jalrTarget rs1 imm = BitVec.ofNat 32 ((s.getReg rs1 + imm).toNat / 2 * 2) := by
  generalize hx : s.getReg rs1 + imm = x
  have h : ∀ i, i < 32 → (0xFFFFFFFE#32).getLsbD i = decide (1 ≤ i) := by decide
  rw [State.jalrTarget, hx]
  have e : (x.toNat / 2 * 2) = ((x >>> 1) <<< 1).toNat := by
    rw [BitVec.toNat_shiftLeft, BitVec.toNat_ushiftRight, Nat.shiftRight_eq_div_pow, Nat.shiftLeft_eq,
      Nat.mod_eq_of_lt]
    have := x.isLt; omega
  rw [e, BitVec.ofNat_toNat, BitVec.setWidth_eq]
  apply BitVec.eq_of_getLsbD_eq
  intro i hi
  rw [BitVec.getLsbD_and, h i hi, BitVec.getLsbD_shiftLeft, BitVec.getLsbD_ushiftRight]
  by_cases h0 : i < 1
  · simp [h0, show ¬ 1 ≤ i by omega]
  · simp [h0, hi, show 1 ≤ i by omega, show 1 + (i - 1) = i by omega]

theorem completeReg_case {i : Instr} {s t : State} {rd : Reg} {v : Word}
    (h : s.completeReg rd v = .next t) (hd : dest i = some rd) (hp : nextPc s i = s.pc + 4) : ExecCase i s t :=
  .wrote rd v hd hp (by injection h with h; exact h.symm)

theorem load_case {i : Instr} {s t : State} {w : Width} {ea : Word} {extend : Word → Word} {rd : Reg}
    (h : s.load w ea extend rd = .next t) (hd : dest i = some rd) (hp : nextPc s i = s.pc + 4) : ExecCase i s t := by
  rcases load_cases h with ⟨-, ht⟩ | ⟨-, ht⟩
  · exact .wrote rd _ hd hp ht
  · exact .trapped _ _ ht

theorem store_case {i : Instr} {s t : State} {w : Width} {ea v : Word}
    (h : s.store w ea v = .next t) (hd : dest i = none) (hp : nextPc s i = s.pc + 4)
    (hb : storedBytes s i = some (ea.toNat, w.bytes)) : ExecCase i s t := by
  rcases store_cases h with ⟨hr, ht⟩ | ⟨-, ht⟩
  · exact .stored ea w v hd hp hb hr ht
  · exact .trapped _ _ ht

theorem link_case {i : Instr} {s t : State} {rd : Reg} {tgt : Word}
    (h : s.transfer (s.setReg rd s.link) tgt = .next t) (hd : dest i = some rd) (hn : nextPc s i = tgt) :
    ExecCase i s t := by
  rcases transfer_cases h with ⟨ha, ht⟩ | ⟨-, ht⟩
  · exact .linked rd hd (hn ▸ ha) (hn ▸ ht)
  · exact .trapped _ _ ht

theorem branch_case {i : Instr} {s t : State} {taken : Bool} {imm : Word}
    (h : s.branch taken imm = .next t) (hd : dest i = none)
    (hn : nextPc s i = if taken = true then s.pc + imm else s.pc + 4) : ExecCase i s t := by
  rcases branch_cases h with ⟨hb, ha, ht⟩ | ⟨-, -, ht⟩ | ⟨hb, ht⟩
  · rw [hb, if_pos rfl] at hn
    exact .jumped hd (hn ▸ ha) (hn ▸ ht)
  · exact .trapped _ _ ht
  · rw [hb, if_neg (by simp)] at hn
    exact .fell hd hn ht

theorem exec_cases {i : Instr} {s t : State} (h : exec i s = .next t) : ExecCase i s t := by
  cases i with
  | lui | auipc | addi | slti | sltiu | xori | ori | andi => exact completeReg_case h rfl rfl
  | slli | srli | srai => exact completeReg_case h rfl rfl
  | add | sub | sll | slt | sltu | xor | srl | sra | or | and => exact completeReg_case h rfl rfl
  | lb | lh | lw | lbu | lhu => exact load_case h rfl rfl
  | sb | sh | sw => exact store_case h rfl rfl rfl
  | jal rd imm => exact link_case h rfl rfl
  | jalr rd rs1 imm => exact link_case h rfl (jalrTarget_eq s rs1 imm).symm
  | beq rs1 rs2 imm => exact branch_case h rfl (by simp [nextPc, equalWords])
  | bne rs1 rs2 imm => exact branch_case h rfl (by simp [nextPc, equalWords])
  | blt rs1 rs2 imm => exact branch_case h rfl (by simp [nextPc, lessSigned_iff])
  | bge rs1 rs2 imm =>
    exact branch_case h rfl (by
      simp only [nextPc, Bool.not_eq_true', ← Bool.not_eq_true, lessSigned_iff, Int.not_lt])
  | bltu rs1 rs2 imm => exact branch_case h rfl (by simp [nextPc, lessUnsigned_iff])
  | bgeu rs1 rs2 imm =>
    exact branch_case h rfl (by
      simp only [nextPc, Bool.not_eq_true', ← Bool.not_eq_true, lessUnsigned_iff, Nat.not_lt])
  | ecall =>
    by_cases hh : s.cfg.ecallHostGiven = true
    · rw [exec, execEcall, if_pos hh] at h
      exact .handed rfl hh (by injection h with h; exact h.symm)
    · rw [exec, execEcall, if_neg hh] at h
      exact .trapped _ _ (by injection h with h; exact h.symm)
  | ebreak => exact .halted (by injection h with h; exact h.symm)
  | nemuTrap => exact .halted (by injection h with h; exact h.symm)

/-- No instruction faults or is refused (R301: every event is a change of the status). -/
theorem exec_answers (i : Instr) (s : State) : ∃ t, exec i s = .next t := by
  have ht : ∀ s' t, ∃ u, s.transfer s' t = .next u := fun s' t => by
    unfold State.transfer; split <;> exact ⟨_, rfl⟩
  have hb : ∀ taken imm, ∃ u, s.branch taken imm = .next u := fun taken imm => by
    unfold State.branch; split
    · exact ht _ _
    · exact ⟨_, rfl⟩
  have hl : ∀ w ea extend rd, ∃ u, s.load w ea extend rd = .next u := fun w ea extend rd => by
    unfold State.load; split <;> exact ⟨_, rfl⟩
  have hs : ∀ w ea v, ∃ u, s.store w ea v = .next u := fun w ea v => by
    unfold State.store; split <;> exact ⟨_, rfl⟩
  cases i with
  | jal | jalr => exact ht _ _
  | beq | bne | blt | bge | bltu | bgeu => exact hb _ _
  | lb | lh | lw | lbu | lhu => exact hl _ _ _ _
  | sb | sh | sw => exact hs _ _ _
  | ecall => simp only [exec, execEcall]; split <;> exact ⟨_, rfl⟩
  | _ => exact ⟨_, rfl⟩

/-! ### Fetch -/

theorem fetch_of_stopped {s : State} (h : s.status ≠ .running) : s.fetch = .stopped := by
  simp [State.fetch, h]

theorem fetch_of_running {s : State} (h : s.status = .running) :
    s.fetch = match s.memRead s.pc .word with
      | none => .outOfRange
      | some w =>
        match decode s.cfg.trapWord6B w with
        | .error _ => .illegal w
        | .ok i => .run i := by
  unfold State.fetch
  exact if_neg (by simp [h])

theorem fetch_running {s : State} (h : s.fetch ≠ .stopped) : s.status = .running := by
  by_contra hs; exact h (fetch_of_stopped hs)

/-- Every way a step can answer next. -/
inductive StepCase (s t : State) : Prop where
  | stopped (hs : s.status ≠ .running) (ht : t = s)
  | fetchFault (hs : s.status = .running) (hf : s.fetch = .outOfRange) (ht : t = s.raise .memFault s.pc)
  | illegal (w : Word) (hs : s.status = .running) (hf : s.fetch = .illegal w) (ht : t = s.raise .illegal w)
  | ran (i : Instr) (hs : s.status = .running) (hf : s.fetch = .run i) (hc : ExecCase i s t)

theorem step_cases {s t : State} (h : step s = .next t) : StepCase s t := by
  unfold step at h
  cases hf : s.fetch with
  | stopped =>
    rw [hf] at h
    refine .stopped (fun hs => ?_) (by injection h with h; exact h.symm)
    rw [fetch_of_running hs] at hf
    split at hf
    · simp at hf
    · split at hf <;> simp at hf
  | outOfRange =>
    rw [hf] at h
    exact .fetchFault (fetch_running (by simp [hf])) hf (by injection h with h; exact h.symm)
  | illegal w =>
    rw [hf] at h
    exact .illegal w (fetch_running (by simp [hf])) hf (by injection h with h; exact h.symm)
  | run i =>
    rw [hf] at h
    exact .ran i (fetch_running (by simp [hf])) hf (exec_cases h)

/-! ### Runs (R104) -/

theorem run_zero (s : State) : Sys2Proof.core.run 0 s = .next s := rfl

theorem run_succ_of_step {s t : State} (h : step s = .next t) (k : Nat) :
    Sys2Proof.core.run (k + 1) s = Sys2Proof.core.run k t := by
  have h' : Sys2Proof.core.step s = .next t := h
  simp only [Host.Core.run, h']

/-- No step faults or is refused (R301). -/
theorem step_answers (s : State) : ∃ t, step s = .next t := by
  unfold step
  cases s.fetch with
  | stopped => exact ⟨_, rfl⟩
  | outOfRange => exact ⟨_, rfl⟩
  | illegal w => exact ⟨_, rfl⟩
  | run i => exact exec_answers i s

/-- The fetch of a running engine whose pc is in the region, by the bytes there (R45, R48). -/
theorem fetch_of_bytes {s : State} {w : Word} (hs : s.status = .running) (hr : InRegion s s.pc 4)
    (hw : Memory.readBytes s.mem s.pc.toNat 4 = w) :
    s.fetch = match decode s.cfg.trapWord6B w with
      | .error _ => .illegal w
      | .ok i => .run i := by
  rw [fetch_of_running hs, memRead_of_inRegion (w := .word) hr, ← hw]
  rfl

end Sys2Proof.Machine
end

