-- ==== Sys2Proof/Laws/Evaluator.lean ====
section
/-! SUPPORT. Laws/Evaluator.lean: disambiguation, the balance walk, the search for the dominant operator and the
bound of the recursion (spec/47_expr_evaluator.md R252, R254, R256, R260, R261). -/

namespace Sys2Proof.Machine

/-! ### Disambiguation -/

/-- Each token of the disambiguated stream: the token at its place, its tag reclassified by the tag
before it (R254). -/
theorem disambiguateFrom_getElem? (before : Option TokenTag) (toks : List Token) {k : Nat} {t : Token}
    (h : toks[k]? = some t) :
    (disambiguateFrom before toks)[k]? = some
      ⟨reclassify (if k = 0 then before else (disambiguateFrom before toks)[k - 1]?.map (·.tag)) t.tag, t.text⟩ := by
  induction toks generalizing before k with
  | nil => simp at h
  | cons x xs ih =>
    cases k with
    | zero => simp only [List.getElem?_cons_zero, Option.some.injEq] at h; subst h; rfl
    | succ k =>
      rw [List.getElem?_cons_succ] at h
      rw [disambiguateFrom, List.getElem?_cons_succ, ih _ h]
      cases k <;> simp

theorem length_disambiguateFrom (before : Option TokenTag) (toks : List Token) :
    (disambiguateFrom before toks).length = toks.length := by
  induction toks generalizing before with
  | nil => rfl
  | cons x xs ih => simp [disambiguateFrom, ih]

/-! ### The balance walk -/

/-- What a list of tokens adds to the paren balance. -/
def depthSum : List Token → Int
  | [] => 0
  | t :: toks => t.tag.depthChange + depthSum toks

theorem depthSum_append (l r : List Token) : depthSum (l ++ r) = depthSum l + depthSum r := by
  induction l with
  | nil => simp [depthSum]
  | cons t l ih => simp only [List.cons_append, depthSum, ih]; omega

/-- One step of the balance walk (R252). -/
theorem balancedFrom_cons {d : Nat} {t : Token} {toks : List Token} (h : balancedFrom d (t :: toks) = true) :
    ∃ d' : Nat, (d' : Int) = d + t.tag.depthChange ∧ balancedFrom d' toks = true := by
  cases ht : t.tag
  case lparen => exact ⟨d + 1, by simp [TokenTag.depthChange], by simpa [balancedFrom, ht] using h⟩
  case rparen =>
    cases d with
    | zero => simp [balancedFrom, ht] at h
    | succ d => exact ⟨d, by simp [TokenTag.depthChange], by simpa [balancedFrom, ht] using h⟩
  all_goals exact ⟨d, by simp [TokenTag.depthChange], by simpa [balancedFrom, ht] using h⟩

/-- A walk that ends at 0 has come back from where it started. -/
theorem depthSum_of_balancedFrom {d : Nat} {toks : List Token} (h : balancedFrom d toks = true) :
    (d : Int) + depthSum toks = 0 := by
  induction toks generalizing d with
  | nil => simpa [balancedFrom, depthSum] using h
  | cons t toks ih =>
    obtain ⟨d', hd, h'⟩ := balancedFrom_cons h
    have := ih h'
    simp only [depthSum]
    omega

theorem depthSum_of_balanced {toks : List Token} (h : balanced toks = true) : depthSum toks = 0 := by
  have := depthSum_of_balancedFrom h
  omega

/-- A span whose balance is back at 0 before its end is not fully parenthesized (R260). -/
theorem closesOnlyAtEnd_of_balanced_prefix {d : Nat} {l r : List Token} (hl : l ≠ []) (hr : r ≠ [])
    (h : balancedFrom d l = true) : closesOnlyAtEnd d (l ++ r) = false := by
  induction l generalizing d with
  | nil => exact absurd rfl hl
  | cons t l ih =>
    obtain ⟨d', hd, h'⟩ := balancedFrom_cons h
    simp only [List.cons_append, closesOnlyAtEnd, ← hd]
    by_cases h0 : d' = 0
    · simp [h0, hr]
    · have hl' : l ≠ [] := by
        rintro rfl
        exact h0 (by simpa [balancedFrom] using h')
      simp [h0, ih hl' h']

/-! ### The search for the dominant operator (R261) -/

/-- The largest precedence of a list and one more token (R255). -/
theorem topPrec_append_singleton (d e : Int) (l : List Token) (t : Token) (he : e = d + depthSum l) :
    topPrec d (l ++ [t]) = max (topPrec d l) (if e = 0 ∧ t.tag.isBinary then t.tag.prec else 0) := by
  induction l generalizing d with
  | nil =>
    obtain rfl : e = d := by simpa [depthSum] using he
    simp only [List.nil_append, topPrec]
    split <;> simp
  | cons u l ih =>
    simp only [depthSum] at he
    simp only [List.cons_append, topPrec]
    split
    · rename_i hu
      have hz : u.tag.depthChange = 0 := by
        have := hu.2
        cases ht : u.tag <;> simp [ht, TokenTag.isBinary] at this <;> rfl
      rw [ih d (by omega), Nat.max_assoc]
    · rw [ih (d + u.tag.depthChange) (by omega)]

/-- What the search has found when it has walked over `pre` from the right, at the depth that the
tokens of `pre` add up to: nothing above the operators of `pre` outside its parentheses, and nothing
new if they are no looser than the best so far. -/
theorem dominantBinary_walk (pre left : List Token) (best : Option Nat) (bestPrec : Nat) :
    ∃ best' bestPrec', dominantBinary (pre.reverse ++ left) best bestPrec (depthSum pre) =
        dominantBinary left best' bestPrec' 0 ∧
      bestPrec' ≤ max bestPrec (topPrec 0 pre) ∧
      (topPrec 0 pre ≤ bestPrec → best' = best ∧ bestPrec' = bestPrec) := by
  induction pre using List.reverseRecOn generalizing best bestPrec with
  | nil => exact ⟨best, bestPrec, rfl, by simp [topPrec], fun _ => ⟨rfl, rfl⟩⟩
  | append_singleton pre t ih =>
    have hsum : depthSum (pre ++ [t]) = depthSum pre + t.tag.depthChange := by
      rw [depthSum_append]; simp [depthSum]
    rw [List.reverse_append, List.reverse_singleton, List.singleton_append, List.cons_append, dominantBinary,
      hsum, topPrec_append_singleton 0 (depthSum pre) pre t (by omega)]
    by_cases hr : t.tag = .rparen
    · obtain ⟨b, p, h1, h2, h3⟩ := ih best bestPrec
      rw [if_pos hr, show depthSum pre + t.tag.depthChange + 1 = depthSum pre by
        simp only [hr, TokenTag.depthChange]; omega]
      exact ⟨b, p, h1, by omega, fun h => h3 (by omega)⟩
    by_cases hl : t.tag = .lparen
    · obtain ⟨b, p, h1, h2, h3⟩ := ih best bestPrec
      rw [if_neg hr, if_pos hl, show depthSum pre + t.tag.depthChange - 1 = depthSum pre by
        simp only [hl, TokenTag.depthChange]; omega]
      exact ⟨b, p, h1, by omega, fun h => h3 (by omega)⟩
    have hz : t.tag.depthChange = 0 := by cases ht : t.tag <;> simp_all [TokenTag.depthChange]
    rw [if_neg hr, if_neg hl, hz, Int.add_zero]
    by_cases hb : depthSum pre = 0 ∧ t.tag.isBinary = true ∧ t.tag.prec > bestPrec
    · rw [if_pos hb, if_pos ⟨hb.1, hb.2.1⟩]
      obtain ⟨b, p, h1, h2, -⟩ := ih (some (pre.reverse ++ left).length) t.tag.prec
      exact ⟨b, p, h1, by omega, fun h => by omega⟩
    · rw [if_neg hb]
      obtain ⟨b, p, h1, h2, h3⟩ := ih best bestPrec
      exact ⟨b, p, h1, by omega, fun h => h3 (by omega)⟩

/-- The search finds an operator between two balanced parts when no operator of the left part is looser
and none of the right part is as loose (R261, R263). -/
theorem dominant_split {l r : List Token} {op : Token} (hl : balanced l = true) (hr : balanced r = true)
    (hop : op.tag.isBinary = true) (h1 : topPrec 0 l ≤ op.tag.prec) (h2 : topPrec 0 r < op.tag.prec) :
    dominant (l ++ op :: r) = .binary l.length := by
  have hrev : (l ++ op :: r).reverse = r.reverse ++ (op :: l.reverse) := by simp
  obtain ⟨b, p, e1, hp, -⟩ := dominantBinary_walk r (op :: l.reverse) none 0
  rw [depthSum_of_balanced hr] at e1
  obtain ⟨b', p', e2, -, hsame⟩ := dominantBinary_walk l [] (some l.reverse.length) op.tag.prec
  rw [depthSum_of_balanced hl, List.append_nil] at e2
  have hnl : op.tag ≠ .lparen := by rintro h; simp [h, TokenTag.isBinary] at hop
  have hnr : op.tag ≠ .rparen := by rintro h; simp [h, TokenTag.isBinary] at hop
  have hfound : dominantBinary (l ++ op :: r).reverse none 0 0 = some l.length := by
    rw [hrev, e1, dominantBinary, if_neg hnr, if_neg hnl, if_pos ⟨rfl, hop, by omega⟩, e2, (hsame h1).1]
    simp [dominantBinary]
  simp only [dominant, hfound]

/-- No operator is found in a balanced list with none outside its parentheses (R261). -/
theorem dominantBinary_none {toks : List Token} (h : balanced toks = true) (h0 : topPrec 0 toks = 0)
    (left : List Token) : dominantBinary (toks.reverse ++ left) none 0 0 = dominantBinary left none 0 0 := by
  obtain ⟨b, p, e, -, hsame⟩ := dominantBinary_walk toks left none 0
  rw [depthSum_of_balanced h] at e
  rw [e, (hsame (by omega)).1, (hsame (by omega)).2]

/-! ### The recursion's bound (R256, R276) -/

theorem length_interior (t u : Token) (toks : List Token) :
    (interior (t :: u :: toks)).length = toks.length := by
  simp [interior]

/-- Every bound that is at least the span's length gives the same result. -/
theorem evalSpan_bound (s : State) {n m : Nat} {span : List Token} (hn : span.length ≤ n) (hm : span.length ≤ m) :
    evalSpan s n span = evalSpan s m span := by
  induction n generalizing m span with
  | zero =>
    obtain rfl : span = [] := List.eq_nil_of_length_eq_zero (by omega)
    cases m <;> rfl
  | succ n ih =>
    match span, m with
    | [], 0 => rfl
    | [], _ + 1 => rfl
    | [t], m + 1 => rfl
    | t :: u :: toks, m + 1 =>
      simp only [List.length_cons] at hn hm
      have hin : evalSpan s n (interior (t :: u :: toks)) = evalSpan s m (interior (t :: u :: toks)) :=
        ih (by rw [length_interior]; omega) (by rw [length_interior]; omega)
      have hun : evalSpan s n (u :: toks) = evalSpan s m (u :: toks) :=
        ih (by simp only [List.length_cons]; omega) (by simp only [List.length_cons]; omega)
      simp only [evalSpan, hin, hun]
      split
      · rfl
      · cases hd : dominant (t :: u :: toks) with
        | nowhere => rfl
        | unary => rfl
        | binary k =>
          cases hk : (t :: u :: toks)[k]? with
          | none => simp only [hk]
          | some op =>
            simp only [hk]
            split
            · rfl
            · rename_i hend
              have hlt : k < (t :: u :: toks).length := (List.getElem?_eq_some_iff.mp hk).1
              simp only [List.length_cons] at hend hlt
              rw [ih (m := m) (span := (t :: u :: toks).take k) (by simp; omega) (by simp; omega),
                ih (m := m) (span := (t :: u :: toks).drop (k + 1)) (by simp; omega) (by simp; omega)]

/-! ### One level of the recursion (R256) -/

/-- A fully parenthesized span is its interior (R256, R260). -/
theorem evalSpan_parens (s : State) (n : Nat) {span : List Token} (h2 : 2 ≤ span.length)
    (hp : fullyParenthesized span = true) :
    evalSpan s (n + 1) span =
      if interior span = [] then .error .malformedSpan else evalSpan s n (interior span) := by
  match span, h2 with
  | t :: u :: toks, _ => rw [evalSpan, if_pos hp]

/-- A span whose dominant operator is its first, unary token (R256, R262). -/
theorem evalSpan_unary (s : State) (n : Nat) {op : Token} {r : List Token} (hr : r ≠ [])
    (hp : fullyParenthesized (op :: r) = false) (hd : dominant (op :: r) = .unary) :
    evalSpan s (n + 1) (op :: r) =
      match evalSpan s n r with
      | .error e => .error e
      | .ok v => applyUnary s op.tag v := by
  match r, hr with
  | u :: toks, _ =>
    cases he : evalSpan s n (u :: toks) <;> simp only [evalSpan, hp, hd, he, Bool.false_eq_true, if_false]

/-- A span whose dominant operator is a binary one between two parts (R256, R263). -/
theorem evalSpan_binary (s : State) (n : Nat) {l r : List Token} {op : Token} (hl : l ≠ []) (hr : r ≠ [])
    (hp : fullyParenthesized (l ++ op :: r) = false) (hd : dominant (l ++ op :: r) = .binary l.length) :
    evalSpan s (n + 1) (l ++ op :: r) = combine op.tag (evalSpan s n l) (evalSpan s n r) := by
  have hget : (l ++ op :: r)[l.length]? = some op := by simp
  have htake : (l ++ op :: r).take l.length = l := by simp
  have hdrop : (l ++ op :: r).drop (l.length + 1) = r := by simp
  have hlen : ¬ (l.length = 0 ∨ l.length + 1 = (l ++ op :: r).length) := by
    have h1 := List.length_pos_iff.mpr hl
    have h2 := List.length_pos_iff.mpr hr
    simp only [List.length_append, List.length_cons]
    omega
  generalize hs : l ++ op :: r = span at hp hd hget htake hdrop hlen
  match span, hs with
  | [], hs => simp at hs
  | [t], hs =>
    have := congrArg List.length hs
    have h1 := List.length_pos_iff.mpr hl
    have h2 := List.length_pos_iff.mpr hr
    simp only [List.length_append, List.length_cons, List.length_nil] at this
    omega
  | t :: u :: toks, _ =>
    rw [evalSpan, if_neg (by simp [hp]), hd]
    simp only [hget, if_neg hlen, htake, hdrop]
    cases evalSpan s n l with
    | error e => rfl
    | ok a => cases evalSpan s n r <;> rfl

end Sys2Proof.Machine
end

