-- ==== Sys2Proof/Laws/Operands.lean ====
section
/-! SUPPORT. Laws/Operands.lean: the operand forms and comparisons as integer arithmetic (R10, R142), and
what a load's extension makes of the bytes read (R191 to R195). -/

namespace Sys2Proof.Machine

/-! ### Shifts and comparisons -/

theorem shiftAmount_toNat (v : Word) : (shiftAmount v).toNat = v.toNat % 32 := by
  simp [shiftAmount, BitVec.extractLsb'_toNat]

theorem shiftLeft_eq (v : Word) (n : BitVec 5) : shiftLeft v n = BitVec.ofNat 32 (v.toNat * 2 ^ n.toNat) := by
  apply BitVec.eq_of_toNat_eq
  simp [shiftLeft, Nat.shiftLeft_eq]

theorem shiftRightLogical_eq (v : Word) (n : BitVec 5) :
    shiftRightLogical v n = BitVec.ofNat 32 (v.toNat / 2 ^ n.toNat) := by
  apply BitVec.eq_of_toNat_eq
  rw [shiftRightLogical, BitVec.toNat_ushiftRight, Nat.shiftRight_eq_div_pow, BitVec.toNat_ofNat, Nat.mod_eq_of_lt]
  exact Nat.lt_of_le_of_lt (Nat.div_le_self _ _) v.isLt

theorem shiftRightArith_eq (v : Word) (n : BitVec 5) :
    shiftRightArith v n = BitVec.ofInt 32 (v.toInt / 2 ^ n.toNat) := by
  rw [shiftRightArith, BitVec.sshiftRight, Int.shiftRight_eq_div_pow]
  norm_cast

theorem boolWord_lessSigned (a b : Word) : boolWord (lessSigned a b) = if a.toInt < b.toInt then 1 else 0 := by
  simp [boolWord, lessSigned, BitVec.slt]

theorem boolWord_lessUnsigned (a b : Word) : boolWord (lessUnsigned a b) = if a.toNat < b.toNat then 1 else 0 := by
  simp [boolWord, lessUnsigned, BitVec.ult]

/-! ### Bytes of a read -/

/-- Two words with the same four bytes are equal. -/
theorem word_ext_bytes {x y : Word} (h : ∀ k, k < 4 → x.extractLsb' (8 * k) 8 = y.extractLsb' (8 * k) 8) : x = y := by
  apply BitVec.eq_of_getLsbD_eq
  intro i hi
  have := congrArg (·.getLsbD (i % 8)) (h (i / 8) (by omega))
  simp only [BitVec.getLsbD_extractLsb', decide_eq_true (Nat.mod_lt i (by omega : 8 > 0)), Bool.true_and] at this
  rwa [show 8 * (i / 8) + i % 8 = i by omega] at this

/-- A read is the word with the bytes read and zeros above them (R42). -/
theorem Memory.readBytes_eq {m : Memory} {a n : Nat} {x : Word} (hn : n ≤ 4)
    (h : ∀ k, k < n → x.extractLsb' (8 * k) 8 = Memory.get m (a + k))
    (hz : ∀ i, 8 * n ≤ i → x.getLsbD i = false) : Memory.readBytes m a n = x := by
  apply word_ext_bytes
  intro k hk
  by_cases hkn : k < n
  · rw [Memory.extract_readBytes m a hkn hn, h k hkn]
  · apply BitVec.eq_of_getLsbD_eq
    intro i hi
    simp only [BitVec.getLsbD_extractLsb', hi, decide_true, Bool.true_and]
    rw [Memory.readBytes_high m a (by omega), hz _ (by omega)]

theorem extract_lo_append {m n : Nat} (a : BitVec m) (b : BitVec n) : (a ++ b).extractLsb' 0 n = b :=
  BitVec.extractLsb'_append_eq_right

theorem Memory.readBytes_word (m : Memory) (a : Nat) :
    Memory.readBytes m a 4 =
      Memory.get m (a + 3) ++ Memory.get m (a + 2) ++ Memory.get m (a + 1) ++ Memory.get m a := by
  refine Memory.readBytes_eq (by omega) (fun k hk => ?_) (fun i hi => BitVec.getLsbD_of_ge _ _ (by omega))
  apply BitVec.eq_of_getLsbD_eq
  intro i hi
  rcases (by omega : k = 0 ∨ k = 1 ∨ k = 2 ∨ k = 3) with rfl | rfl | rfl | rfl
  all_goals simp only [BitVec.getLsbD_extractLsb', BitVec.getLsbD_append, hi, decide_true, Bool.true_and]
  · simp [hi]
  · simp [hi, show ¬ 8 + i < 8 by omega]
  · simp [hi, show ¬ 16 + i < 8 by omega, show ¬ 16 + i - 8 < 8 by omega, show 16 + i - 8 - 8 = i by omega]
  · simp [show ¬ 24 + i < 8 by omega, show ¬ 24 + i - 8 < 8 by omega, show ¬ 24 + i - 8 - 8 < 8 by omega,
      show 24 + i - 8 - 8 - 8 = i by omega]

theorem Memory.readBytes_low8 (m : Memory) (a : Nat) :
    (Memory.readBytes m a 1).extractLsb' 0 8 = Memory.get m a :=
  Memory.extract_readBytes m a (k := 0) (by omega) (by omega)

theorem Memory.readBytes_low16 (m : Memory) (a : Nat) :
    (Memory.readBytes m a 2).extractLsb' 0 16 = Memory.get m (a + 1) ++ Memory.get m a := by
  have h0 := Memory.extract_readBytes m a (k := 0) (n := 2) (by omega) (by omega)
  have h1 := Memory.extract_readBytes m a (k := 1) (n := 2) (by omega) (by omega)
  rw [← h1, ← show (Memory.readBytes m a 2).extractLsb' 0 8 = Memory.get m a from h0]
  apply BitVec.eq_of_getLsbD_eq
  intro i hi
  simp only [BitVec.getLsbD_append, BitVec.getLsbD_extractLsb', hi, decide_true, Bool.true_and]
  split
  · rename_i h; simp [h]
  · rename_i h; simp [show i - 8 < 8 by omega, show 8 + (i - 8) = i by omega]

end Sys2Proof.Machine
end

