-- ==== Sys2Proof/Laws/PerInstr.lean ====
section
/-! SUPPORT. Laws/PerInstr.lean: the family TableBits: the encoding of every instruction carries the
fixed bits of its row of spec/opcode_table.json, whatever its operands. -/

namespace Sys2Proof.Laws

open Sys2Proof Sys2Proof.Machine

/-- Word w has the row's match under its mask. -/
def TableBits.Statement (i : Instr) : Prop := (rowOf i).covers (encode i)

/-- The mask of a row that fixes the opcode alone selects the opcode. -/
theorem mask_opcode (f : Fields) (p : Word) (hp : f.opcode = p.extractLsb' 0 7) (hz : p.extractLsb' 7 25 = 0#25) :
    encodeFields f &&& 0x0000007F#32 = p := by
  have hf := opcodeOf_encodeFields f
  rw [hp] at hf
  generalize encodeFields f = w at hf
  apply BitVec.eq_of_getLsbD_eq
  intro k hk
  have hm : ∀ k, k < 32 → (0x0000007F#32).getLsbD k = decide (k < 7) := by decide
  rw [BitVec.getLsbD_and, hm k hk]
  by_cases h : k < 7
  · have e := congrArg (·.getLsbD k) hf
    simp only [opcodeOf, BitVec.getLsbD_extractLsb', h, decide_true, Bool.true_and, Nat.zero_add] at e
    simp [h, e]
  · have e := congrArg (·.getLsbD (k - 7)) hz
    simp only [BitVec.getLsbD_extractLsb', show k - 7 < 25 by omega, decide_true, Bool.true_and,
      show 7 + (k - 7) = k by omega, BitVec.getLsbD_zero] at e
    simp [h, e]

/-- The mask of a row that fixes opcode and funct3 selects the two. -/
theorem mask_funct3 (f : Fields) (p : Word) (hp : f.opcode = p.extractLsb' 0 7)
    (h3 : f.funct3 = p.extractLsb' 12 3) (hz : p.extractLsb' 7 5 = 0#5) (hy : p.extractLsb' 15 17 = 0#17) :
    encodeFields f &&& 0x0000707F#32 = p := by
  have hf := opcodeOf_encodeFields f
  have hg := funct3Of_encodeFields f
  rw [hp] at hf
  rw [h3] at hg
  generalize encodeFields f = w at hf hg
  apply BitVec.eq_of_getLsbD_eq
  intro k hk
  have hm : ∀ k, k < 32 → (0x0000707F#32).getLsbD k = decide (k < 7 ∨ 12 ≤ k ∧ k < 15) := by decide
  rw [BitVec.getLsbD_and, hm k hk]
  rcases (by omega : k < 7 ∨ (7 ≤ k ∧ k < 12) ∨ (12 ≤ k ∧ k < 15) ∨ 15 ≤ k) with h | h | h | h
  · have e := congrArg (·.getLsbD k) hf
    simp only [opcodeOf, BitVec.getLsbD_extractLsb', h, decide_true, Bool.true_and, Nat.zero_add] at e
    simp [h, e]
  · have e := congrArg (·.getLsbD (k - 7)) hz
    simp only [BitVec.getLsbD_extractLsb', show k - 7 < 5 by omega, decide_true, Bool.true_and,
      show 7 + (k - 7) = k by omega, BitVec.getLsbD_zero] at e
    simp [show ¬ k < 7 by omega, show ¬ (12 ≤ k) by omega, e]
  · have e := congrArg (·.getLsbD (k - 12)) hg
    simp only [funct3Of, BitVec.getLsbD_extractLsb', show k - 12 < 3 by omega, decide_true, Bool.true_and,
      show 12 + (k - 12) = k by omega] at e
    simp [h, e]
  · have e := congrArg (·.getLsbD (k - 15)) hy
    simp only [BitVec.getLsbD_extractLsb', show k - 15 < 17 by omega, decide_true, Bool.true_and,
      show 15 + (k - 15) = k by omega, BitVec.getLsbD_zero] at e
    simp [show ¬ k < 7 by omega, show ¬ (k < 15) by omega, e]

/-- The mask of a row that fixes opcode, funct3 and funct7 selects the three. -/
theorem mask_funct7 (f : Fields) (p : Word) (hp : f.opcode = p.extractLsb' 0 7)
    (h3 : f.funct3 = p.extractLsb' 12 3) (h7 : f.funct7 = p.extractLsb' 25 7)
    (hz : p.extractLsb' 7 5 = 0#5) (hy : p.extractLsb' 15 10 = 0#10) :
    encodeFields f &&& 0xFE00707F#32 = p := by
  have hf := opcodeOf_encodeFields f
  have hg := funct3Of_encodeFields f
  have hq := funct7Of_encodeFields f
  rw [hp] at hf
  rw [h3] at hg
  rw [h7] at hq
  generalize encodeFields f = w at hf hg hq
  apply BitVec.eq_of_getLsbD_eq
  intro k hk
  have hm : ∀ k, k < 32 → (0xFE00707F#32).getLsbD k = decide (k < 7 ∨ (12 ≤ k ∧ k < 15) ∨ 25 ≤ k) := by decide
  rw [BitVec.getLsbD_and, hm k hk]
  rcases (by omega : k < 7 ∨ (7 ≤ k ∧ k < 12) ∨ (12 ≤ k ∧ k < 15) ∨ (15 ≤ k ∧ k < 25) ∨ 25 ≤ k) with
    h | h | h | h | h
  · have e := congrArg (·.getLsbD k) hf
    simp only [opcodeOf, BitVec.getLsbD_extractLsb', h, decide_true, Bool.true_and, Nat.zero_add] at e
    simp [h, e]
  · have e := congrArg (·.getLsbD (k - 7)) hz
    simp only [BitVec.getLsbD_extractLsb', show k - 7 < 5 by omega, decide_true, Bool.true_and,
      show 7 + (k - 7) = k by omega, BitVec.getLsbD_zero] at e
    simp [show ¬ k < 7 by omega, show ¬ (12 ≤ k) by omega, show ¬ (25 ≤ k) by omega, e]
  · have e := congrArg (·.getLsbD (k - 12)) hg
    simp only [funct3Of, BitVec.getLsbD_extractLsb', show k - 12 < 3 by omega, decide_true, Bool.true_and,
      show 12 + (k - 12) = k by omega] at e
    simp [h, e]
  · have e := congrArg (·.getLsbD (k - 15)) hy
    simp only [BitVec.getLsbD_extractLsb', show k - 15 < 10 by omega, decide_true, Bool.true_and,
      show 15 + (k - 15) = k by omega, BitVec.getLsbD_zero] at e
    simp [show ¬ k < 7 by omega, show ¬ (k < 15) by omega, show ¬ (25 ≤ k) by omega, e]
  · have e := congrArg (·.getLsbD (k - 25)) hq
    simp only [funct7Of, BitVec.getLsbD_extractLsb', show k - 25 < 7 by omega, decide_true, Bool.true_and,
      show 25 + (k - 25) = k by omega] at e
    simp [h, e]

/-- The funct7 of a shift-immediate word is the row's (R69). -/
theorem funct7_fieldsShift (funct3 : BitVec 3) (funct7 : BitVec 7) (rd rs1 : Reg) (shamt : BitVec 5) :
    (fieldsShift funct3 funct7 rd rs1 shamt).funct7 = funct7 := by
  show ((funct7 ++ shamt).signExtend 32).extractLsb' 5 7 = funct7
  rw [extract_signExtend _ (by omega) (by omega), extract_append_low _ _ (by omega)]
  exact extract_self _ rfl

theorem TableBits.lui (rd : Reg) (imm : Word) : TableBits.Statement (.lui rd imm) :=
  mask_opcode _ 0x00000037#32 rfl (by decide)

theorem TableBits.auipc (rd : Reg) (imm : Word) : TableBits.Statement (.auipc rd imm) :=
  mask_opcode _ 0x00000017#32 rfl (by decide)

theorem TableBits.addi (rd rs1 : Reg) (imm : Word) : TableBits.Statement (.addi rd rs1 imm) :=
  mask_funct3 _ 0x00000013#32 rfl rfl (by decide) (by decide)

theorem TableBits.slti (rd rs1 : Reg) (imm : Word) : TableBits.Statement (.slti rd rs1 imm) :=
  mask_funct3 _ 0x00002013#32 rfl rfl (by decide) (by decide)

theorem TableBits.sltiu (rd rs1 : Reg) (imm : Word) : TableBits.Statement (.sltiu rd rs1 imm) :=
  mask_funct3 _ 0x00003013#32 rfl rfl (by decide) (by decide)

theorem TableBits.xori (rd rs1 : Reg) (imm : Word) : TableBits.Statement (.xori rd rs1 imm) :=
  mask_funct3 _ 0x00004013#32 rfl rfl (by decide) (by decide)

theorem TableBits.ori (rd rs1 : Reg) (imm : Word) : TableBits.Statement (.ori rd rs1 imm) :=
  mask_funct3 _ 0x00006013#32 rfl rfl (by decide) (by decide)

theorem TableBits.andi (rd rs1 : Reg) (imm : Word) : TableBits.Statement (.andi rd rs1 imm) :=
  mask_funct3 _ 0x00007013#32 rfl rfl (by decide) (by decide)

theorem TableBits.slli (rd rs1 : Reg) (shamt : BitVec 5) : TableBits.Statement (.slli rd rs1 shamt) :=
  mask_funct7 _ 0x00001013#32 rfl rfl (funct7_fieldsShift _ 0b0000000#7 _ _ _) (by decide) (by decide)

theorem TableBits.srli (rd rs1 : Reg) (shamt : BitVec 5) : TableBits.Statement (.srli rd rs1 shamt) :=
  mask_funct7 _ 0x00005013#32 rfl rfl (funct7_fieldsShift _ 0b0000000#7 _ _ _) (by decide) (by decide)

theorem TableBits.srai (rd rs1 : Reg) (shamt : BitVec 5) : TableBits.Statement (.srai rd rs1 shamt) :=
  mask_funct7 _ 0x40005013#32 rfl rfl (funct7_fieldsShift _ 0b0100000#7 _ _ _) (by decide) (by decide)

theorem TableBits.add (rd rs1 rs2 : Reg) : TableBits.Statement (.add rd rs1 rs2) :=
  mask_funct7 _ 0x00000033#32 rfl rfl rfl (by decide) (by decide)

theorem TableBits.sub (rd rs1 rs2 : Reg) : TableBits.Statement (.sub rd rs1 rs2) :=
  mask_funct7 _ 0x40000033#32 rfl rfl rfl (by decide) (by decide)

theorem TableBits.sll (rd rs1 rs2 : Reg) : TableBits.Statement (.sll rd rs1 rs2) :=
  mask_funct7 _ 0x00001033#32 rfl rfl rfl (by decide) (by decide)

theorem TableBits.slt (rd rs1 rs2 : Reg) : TableBits.Statement (.slt rd rs1 rs2) :=
  mask_funct7 _ 0x00002033#32 rfl rfl rfl (by decide) (by decide)

theorem TableBits.sltu (rd rs1 rs2 : Reg) : TableBits.Statement (.sltu rd rs1 rs2) :=
  mask_funct7 _ 0x00003033#32 rfl rfl rfl (by decide) (by decide)

theorem TableBits.xor (rd rs1 rs2 : Reg) : TableBits.Statement (.xor rd rs1 rs2) :=
  mask_funct7 _ 0x00004033#32 rfl rfl rfl (by decide) (by decide)

theorem TableBits.srl (rd rs1 rs2 : Reg) : TableBits.Statement (.srl rd rs1 rs2) :=
  mask_funct7 _ 0x00005033#32 rfl rfl rfl (by decide) (by decide)

theorem TableBits.sra (rd rs1 rs2 : Reg) : TableBits.Statement (.sra rd rs1 rs2) :=
  mask_funct7 _ 0x40005033#32 rfl rfl rfl (by decide) (by decide)

theorem TableBits.or (rd rs1 rs2 : Reg) : TableBits.Statement (.or rd rs1 rs2) :=
  mask_funct7 _ 0x00006033#32 rfl rfl rfl (by decide) (by decide)

theorem TableBits.and (rd rs1 rs2 : Reg) : TableBits.Statement (.and rd rs1 rs2) :=
  mask_funct7 _ 0x00007033#32 rfl rfl rfl (by decide) (by decide)

theorem TableBits.jal (rd : Reg) (imm : Word) : TableBits.Statement (.jal rd imm) :=
  mask_opcode _ 0x0000006F#32 rfl (by decide)

theorem TableBits.jalr (rd rs1 : Reg) (imm : Word) : TableBits.Statement (.jalr rd rs1 imm) :=
  mask_funct3 _ 0x00000067#32 rfl rfl (by decide) (by decide)

theorem TableBits.beq (rs1 rs2 : Reg) (imm : Word) : TableBits.Statement (.beq rs1 rs2 imm) :=
  mask_funct3 _ 0x00000063#32 rfl rfl (by decide) (by decide)

theorem TableBits.bne (rs1 rs2 : Reg) (imm : Word) : TableBits.Statement (.bne rs1 rs2 imm) :=
  mask_funct3 _ 0x00001063#32 rfl rfl (by decide) (by decide)

theorem TableBits.blt (rs1 rs2 : Reg) (imm : Word) : TableBits.Statement (.blt rs1 rs2 imm) :=
  mask_funct3 _ 0x00004063#32 rfl rfl (by decide) (by decide)

theorem TableBits.bge (rs1 rs2 : Reg) (imm : Word) : TableBits.Statement (.bge rs1 rs2 imm) :=
  mask_funct3 _ 0x00005063#32 rfl rfl (by decide) (by decide)

theorem TableBits.bltu (rs1 rs2 : Reg) (imm : Word) : TableBits.Statement (.bltu rs1 rs2 imm) :=
  mask_funct3 _ 0x00006063#32 rfl rfl (by decide) (by decide)

theorem TableBits.bgeu (rs1 rs2 : Reg) (imm : Word) : TableBits.Statement (.bgeu rs1 rs2 imm) :=
  mask_funct3 _ 0x00007063#32 rfl rfl (by decide) (by decide)

theorem TableBits.lb (rd rs1 : Reg) (imm : Word) : TableBits.Statement (.lb rd rs1 imm) :=
  mask_funct3 _ 0x00000003#32 rfl rfl (by decide) (by decide)

theorem TableBits.lh (rd rs1 : Reg) (imm : Word) : TableBits.Statement (.lh rd rs1 imm) :=
  mask_funct3 _ 0x00001003#32 rfl rfl (by decide) (by decide)

theorem TableBits.lw (rd rs1 : Reg) (imm : Word) : TableBits.Statement (.lw rd rs1 imm) :=
  mask_funct3 _ 0x00002003#32 rfl rfl (by decide) (by decide)

theorem TableBits.lbu (rd rs1 : Reg) (imm : Word) : TableBits.Statement (.lbu rd rs1 imm) :=
  mask_funct3 _ 0x00004003#32 rfl rfl (by decide) (by decide)

theorem TableBits.lhu (rd rs1 : Reg) (imm : Word) : TableBits.Statement (.lhu rd rs1 imm) :=
  mask_funct3 _ 0x00005003#32 rfl rfl (by decide) (by decide)

theorem TableBits.sb (rs1 rs2 : Reg) (imm : Word) : TableBits.Statement (.sb rs1 rs2 imm) :=
  mask_funct3 _ 0x00000023#32 rfl rfl (by decide) (by decide)

theorem TableBits.sh (rs1 rs2 : Reg) (imm : Word) : TableBits.Statement (.sh rs1 rs2 imm) :=
  mask_funct3 _ 0x00001023#32 rfl rfl (by decide) (by decide)

theorem TableBits.sw (rs1 rs2 : Reg) (imm : Word) : TableBits.Statement (.sw rs1 rs2 imm) :=
  mask_funct3 _ 0x00002023#32 rfl rfl (by decide) (by decide)

theorem TableBits.ecall : TableBits.Statement (.ecall) :=
  rfl

theorem TableBits.ebreak : TableBits.Statement (.ebreak) :=
  rfl

theorem TableBits.nemuTrap (funct7 : BitVec 7) (rs2 rs1 : Reg) (funct3 : BitVec 3) (rd : Reg) : TableBits.Statement (.nemuTrap funct7 rs2 rs1 funct3 rd) :=
  mask_opcode _ 0x0000006B#32 rfl (by decide)

end Sys2Proof.Laws
end

