-- ==== Sys2Proof/Laws/Session.lean ====
section
/-! SUPPORT. Session.lean: what one move of a session can do, and how sessions compose. -/

namespace Sys2Proof.Machine

theorem hostCall_of_not_inRegion {s : State} {a v : Word} {n : Nat} {w : Width}
    (hw : widthOfBytes n = some w) (h : ¬ InRegion s a w.bytes) :
    s.hostCall (.write a n v) = .fault (.outOfRange a) := by
  simp only [State.hostCall, State.write, hw, memWrite_of_not_inRegion v h]

theorem widthOfBytes_none {n : Nat} (h : n ∉ [1, 2, 4]) : widthOfBytes n = none := by
  simp only [List.mem_cons, List.not_mem_nil, or_false, not_or] at h
  simp [widthOfBytes, h]

theorem widthOfBytes_some {n : Nat} (h : n ∈ [1, 2, 4]) :
    ∃ w, widthOfBytes n = some w ∧ w.bytes = n := by
  simp only [List.mem_cons, List.not_mem_nil, or_false] at h
  rcases h with rfl | rfl | rfl
  · exact ⟨.byte, rfl, rfl⟩
  · exact ⟨.half, rfl, rfl⟩
  · exact ⟨.word, rfl, rfl⟩

/-- Everything a move can do: a step; a change that succeeds; a write that fails and an inspection,
which leave the state as it is. -/
theorem serve_cases {s t : State} {m : HostMove} {reply : HostReply} (h : s.serve m = .next (reply, t)) :
    (m = .step ∧ step s = .next t ∧ reply = .status t.status) ∨
    (∃ c, m = .change c ∧ s.hostCall c = .next t ∧ reply = .done) ∨
    (∃ c r, m = .change c ∧ s.hostCall c = .fault r ∧ reply = .memoryFault ∧ t = s) ∨
    (∃ q, m = .inspect q ∧ s.answer q = .next reply ∧ t = s) := by
  cases m with
  | step =>
    obtain ⟨u, hu⟩ := step_answers s
    simp only [State.serve, hu, Host.Outcome.next.injEq, Prod.mk.injEq] at h
    obtain ⟨rfl, rfl⟩ := h
    exact .inl ⟨rfl, hu, rfl⟩
  | change c =>
    refine .inr ?_
    cases hc : s.hostCall c with
    | next u =>
      simp only [State.serve, hc, Host.Outcome.next.injEq, Prod.mk.injEq] at h
      obtain ⟨rfl, rfl⟩ := h
      exact .inl ⟨c, rfl, hc, rfl⟩
    | fault r =>
      simp only [State.serve, hc, Host.Outcome.next.injEq, Prod.mk.injEq] at h
      obtain ⟨rfl, rfl⟩ := h
      exact .inr (.inl ⟨c, r, rfl, hc, rfl, rfl⟩)
    | refused r => simp [State.serve, hc] at h
  | inspect q =>
    refine .inr (.inr (.inr ⟨q, rfl, ?_⟩))
    cases hq : s.answer q with
    | next u =>
      simp only [State.serve, hq, Host.Outcome.next.injEq, Prod.mk.injEq] at h
      exact ⟨by rw [h.1], h.2.symm⟩
    | fault r => simp [State.serve, hq] at h
    | refused r => simp [State.serve, hq] at h

@[simp] theorem session_nil (s : State) : s.session [] = .next ([], s) := rfl

/-- A session of one move and more: the move, then the rest from where it leads. -/
theorem session_cons_cases {s u : State} {m : HostMove} {ms : List HostMove} {replies : List HostReply}
    (h : s.session (m :: ms) = .next (replies, u)) :
    ∃ reply t rest, s.serve m = .next (reply, t) ∧ t.session ms = .next (rest, u) ∧ replies = reply :: rest := by
  cases hm : s.serve m with
  | fault r => simp [State.session, hm] at h
  | refused r => simp [State.session, hm] at h
  | next p =>
    obtain ⟨reply, t⟩ := p
    cases ht : t.session ms with
    | fault r => simp [State.session, hm, ht] at h
    | refused r => simp [State.session, hm, ht] at h
    | next q =>
      obtain ⟨rest, v⟩ := q
      simp only [State.session, hm, ht, Host.Outcome.next.injEq, Prod.mk.injEq] at h
      obtain ⟨rfl, rfl⟩ := h
      exact ⟨reply, t, rest, rfl, ht, rfl⟩

theorem session_cons {s t u : State} {m : HostMove} {ms : List HostMove} {reply : HostReply}
    {rest : List HostReply} (hm : s.serve m = .next (reply, t)) (ht : t.session ms = .next (rest, u)) :
    s.session (m :: ms) = .next (reply :: rest, u) := by
  simp only [State.session, hm, ht]

/-- A session of k steps is R104's run of k steps. -/
theorem session_of_steps (k : Nat) (s : State) :
    ∃ replies t, s.session (List.replicate k .step) = .next (replies, t) ∧ Sys2Proof.core.run k s = .next t := by
  induction k generalizing s with
  | zero => exact ⟨[], s, rfl, rfl⟩
  | succ k ih =>
    obtain ⟨t, ht⟩ := step_answers s
    obtain ⟨replies, u, hu, hrun⟩ := ih t
    exact ⟨_, u, session_cons (by rw [State.serve, ht]) hu, by rw [run_succ_of_step ht, hrun]⟩

end Sys2Proof.Machine
end

