-- ==== Sys2Proof/Laws/Tokenizer.lean ====
section
/-! SUPPORT. Laws/Tokenizer.lean: the character classes, what the first matching rule is, and how the scan
moves over a lexeme (spec/46_expr_tokenizer.md R222 to R224). -/

namespace Sys2Proof.Machine

/-! ### Character classes -/

theorem isDigit_iff : ∀ b : Byte, isDigit b = true ↔ b ∈ bytesOf "0123456789" := by decide

theorem isHexDigit_iff : ∀ b : Byte, isHexDigit b = true ↔ b ∈ bytesOf (lowerDigits ++ upperDigits) := by
  decide

theorem isNameByte_iff : ∀ b : Byte, isNameByte b = true ↔ b ∈ bytesOf nameChars := by decide

/-- No digit is blank or begins a fixed pattern. -/
theorem digit_begins_no_pattern : ∀ b : Byte, isDigit b = true →
    isBlank b = false ∧ b ∉ bytesOf "+=!*/-()&|" := by decide

/-- The greedy match of a class takes all of a run of it, up to a byte that is not of the class. -/
theorem greedyLen_run {cls : Byte → Bool} {m rest : List Byte} (hm : ∀ b ∈ m, cls b = true)
    (hr : ∀ b ∈ rest.head?, cls b = false) : greedyLen cls (m ++ rest) = m.length := by
  induction m with
  | nil => cases rest with
    | nil => rfl
    | cons b rest => simp [greedyLen, hr b rfl]
  | cons b m ih =>
    have := ih (fun c hc => hm c (List.mem_cons_of_mem _ hc))
    simp only [greedyLen, List.cons_append] at this ⊢
    simp [hm b, this]

/-- What a greedy match takes is a run of the class. -/
theorem take_greedyLen (cls : Byte → Bool) (t : List Byte) : t.take (greedyLen cls t) = t.takeWhile cls :=
  (List.prefix_iff_eq_take.mp (List.takeWhile_prefix cls)).symm

theorem mem_takeWhile {cls : Byte → Bool} {t : List Byte} : ∀ b ∈ t.takeWhile cls, cls b = true := by
  induction t with
  | nil => simp
  | cons c t ih =>
    intro b hb
    by_cases hc : cls c = true
    · rw [List.takeWhile_cons, if_pos hc] at hb
      rcases List.mem_cons.mp hb with rfl | hb
      · exact hc
      · exact ih b hb
    · rw [List.takeWhile_cons, if_neg hc] at hb
      exact absurd hb List.not_mem_nil

/-! ### The first rule that matches -/

theorem take_literalLen {pattern t : List Byte} (h : literalLen pattern t ≠ 0) :
    t.take (literalLen pattern t) = pattern := by
  unfold literalLen at h ⊢
  split
  · rename_i hp; exact (List.prefix_iff_eq_take.mp (List.isPrefixOf_iff_prefix.mp hp)).symm
  · rename_i hp; exact absurd (if_neg hp) h

theorem take_prefixedLen {pattern : List Byte} {cls : Byte → Bool} {t : List Byte}
    (h : prefixedLen pattern cls t ≠ 0) :
    ∃ run, run ≠ [] ∧ (∀ b ∈ run, cls b = true) ∧ t.take (prefixedLen pattern cls t) = pattern ++ run := by
  unfold prefixedLen at h ⊢
  split
  · rename_i hp
    obtain ⟨rest, rfl⟩ := List.isPrefixOf_iff_prefix.mp hp.1
    rw [List.drop_left] at hp ⊢
    refine ⟨rest.takeWhile cls, fun h0 => hp.2 (by simp [greedyLen, h0]), mem_takeWhile, ?_⟩
    rw [List.take_length_add_append, take_greedyLen]
  · rename_i hp; exact absurd (if_neg hp) h

/-- No rule matches more bytes than there are. -/
theorem matchLen_le (t : List Byte) (r : LexRule) : r.matchLen t ≤ t.length := by
  have greedy (cls : Byte → Bool) (u : List Byte) : greedyLen cls u ≤ u.length :=
    (List.takeWhile_sublist _).length_le
  have lit (p : List Byte) : literalLen p t ≤ t.length := by
    unfold literalLen
    split
    · exact (List.isPrefixOf_iff_prefix.mp ‹_›).length_le
    · exact Nat.zero_le _
  have pre (p : List Byte) (cls : Byte → Bool) : prefixedLen p cls t ≤ t.length := by
    unfold prefixedLen
    split
    · rename_i h
      have h1 := (List.isPrefixOf_iff_prefix.mp h.1).length_le
      have h2 := greedy cls (t.drop p.length)
      rw [List.length_drop] at h2
      omega
    · exact Nat.zero_le _
  cases r <;> first | exact greedy _ _ | exact lit _ | exact pre _ _

theorem isFor_ne_nil {tag : TokenTag} {m : List Byte} (h : tag.isFor m) : m ≠ [] := by
  cases tag <;> simp only [TokenTag.isFor] at h
  case hex => obtain ⟨_, _, rfl⟩ := h; exact List.cons_ne_nil _ _
  case reg => obtain ⟨_, _, rfl⟩ := h; exact List.cons_ne_nil _ _
  case dec => exact h.1
  all_goals subst h; exact List.cons_ne_nil _ _

/-- The rule taken matches at least one byte, and the bytes it matches are a text of its tag (R222). -/
theorem firstRule_sound {t : List Byte} {r : LexRule} (h : firstRule t = some r) :
    r.matchLen t ≠ 0 ∧ ∀ tag, r.emits = some tag → tag.isFor (t.take (r.matchLen t)) := by
  have h0 : r.matchLen t ≠ 0 := by
    have := List.find?_some h
    simpa using this
  refine ⟨h0, fun tag htag => ?_⟩
  have run {cls : Byte → Bool} {chars : String} (hc : ∀ b, cls b = true ↔ b ∈ bytesOf chars) (m : List Byte)
      (hm : m ≠ []) (hall : ∀ b ∈ m, cls b = true) : madeOf chars m :=
    ⟨hm, fun b hb => (hc b).mp (hall b hb)⟩
  cases r <;> simp only [LexRule.emits, reduceCtorEq, Option.some.injEq] at htag <;> subst htag
  case hex =>
    obtain ⟨m, hm, hall, he⟩ := take_prefixedLen h0
    exact ⟨m, run isHexDigit_iff m hm hall, he⟩
  case reg =>
    obtain ⟨m, hm, hall, he⟩ := take_prefixedLen h0
    exact ⟨m, run isNameByte_iff m hm hall, he⟩
  case dec =>
    have he := take_greedyLen isDigit t
    refine run isDigit_iff _ ?_ ?_
    · rw [LexRule.matchLen, he]; rintro h1
      exact h0 (by simp [LexRule.matchLen, greedyLen, h1])
    · rw [LexRule.matchLen, he]; exact mem_takeWhile
  all_goals exact take_literalLen h0

/-- The rule taken is the first in the order that matches. -/
theorem firstRule_eq {t : List Byte} {r : LexRule} (k : Nat) (hk : LexRule.inOrder[k]? = some r)
    (hb : ∀ q ∈ LexRule.inOrder.take k, q.matchLen t = 0) (hr : r.matchLen t ≠ 0) : firstRule t = some r := by
  obtain ⟨hlt, hget⟩ := List.getElem?_eq_some_iff.mp hk
  refine List.find?_eq_some_iff_append.mpr ⟨by simpa using hr, LexRule.inOrder.take k, LexRule.inOrder.drop (k + 1), ?_,
    fun q hq => by simp [hb q hq]⟩
  rw [← hget, List.getElem_cons_drop, List.take_append_drop]

/-- The rules before the literals match nothing at a byte that begins none of them. -/
theorem fixedRules_zero {b : Byte} (t : List Byte) (hb : isBlank b = false) (hp : b ∉ bytesOf "+=!*/-()&|") :
    ∀ q ∈ LexRule.inOrder.take 11, q.matchLen (b :: t) = 0 := by
  simp [bytesOf] at hp
  simp [LexRule.inOrder, LexRule.matchLen, greedyLen, literalLen, bytesOf, hb, hp, eq_comm (b := b)]

/-- At a lexeme that the text after it does not lengthen, the rule of its tag is taken and matches all of
it. A decimal 0 before an `x` is the one exception (R225). -/
theorem firstRule_of_isFor {tag : TokenTag} {m rest : List Byte} (h : tag.isFor m)
    (hend : ∀ b ∈ rest.head?, b ∉ bytesOf tag.moreChars) (hx : rest.head? ≠ some 0x78#8) :
    ∃ r, firstRule (m ++ rest) = some r ∧ r.emits = some tag ∧ r.matchLen (m ++ rest) = m.length := by
  have run {cls : Byte → Bool} {chars : String} (hc : ∀ b, cls b = true ↔ b ∈ bytesOf chars) (ds : List Byte)
      (hd : ∀ b ∈ ds, b ∈ bytesOf chars) (he : ∀ b ∈ rest.head?, b ∉ bytesOf chars) :
      greedyLen cls (ds ++ rest) = ds.length :=
    greedyLen_run (fun b hb => (hc b).mpr (hd b hb))
      (fun b hb => by rw [Bool.eq_false_iff]; exact fun h => he b hb ((hc b).mp h))
  have prefixed {cls : Byte → Bool} {chars : String} (pattern : List Byte)
      (hc : ∀ b, cls b = true ↔ b ∈ bytesOf chars) (ds : List Byte)
      (hd : madeOf chars ds) (he : ∀ b ∈ rest.head?, b ∉ bytesOf chars) :
      prefixedLen pattern cls (pattern ++ ds ++ rest) = (pattern ++ ds).length := by
    rw [prefixedLen, List.append_assoc, List.drop_left, run hc ds hd.2 he, if_pos ⟨by simp, by simpa using hd.1⟩,
      List.length_append]
  have fixed (r : LexRule) (k : Nat) (hk : LexRule.inOrder[k]? = some r) (pattern : List Byte)
      (hr : ∀ t, r.matchLen t = literalLen pattern t) (hne : pattern.length ≠ 0)
      (hb : ∀ q ∈ LexRule.inOrder.take k, q.matchLen (pattern ++ rest) = 0) :
      ∃ r', firstRule (pattern ++ rest) = some r' ∧ r'.emits = r.emits ∧
        r'.matchLen (pattern ++ rest) = pattern.length := by
    have hlen : r.matchLen (pattern ++ rest) = pattern.length := by simp [hr, literalLen]
    exact ⟨r, firstRule_eq k hk hb (by rwa [hlen]), rfl, hlen⟩
  cases tag <;> simp only [TokenTag.isFor] at h
  case hex =>
    obtain ⟨ds, hds, rfl⟩ := h
    have hlen : LexRule.hex.matchLen (bytesOf "0x" ++ ds ++ rest) = _ := prefixed _ isHexDigit_iff ds hds hend
    exact ⟨.hex, firstRule_eq 11 rfl (fixedRules_zero (b := 0x30#8) (bytesOf "x" ++ ds ++ rest) rfl (by decide))
      (by rw [hlen]; simp [bytesOf]), rfl, hlen⟩
  case dec =>
    have hlen : LexRule.dec.matchLen (m ++ rest) = m.length := run isDigit_iff m h.2 hend
    obtain ⟨d, ds, rfl⟩ := List.exists_cons_of_ne_nil h.1
    obtain ⟨h1, h2⟩ := digit_begins_no_pattern d ((isDigit_iff d).mpr (h.2 d List.mem_cons_self))
    have hhex : LexRule.hex.matchLen (d :: ds ++ rest) = 0 := by
      refine if_neg fun hp => ?_
      obtain ⟨more, hmore⟩ := List.isPrefixOf_iff_prefix.mp hp.1
      cases ds with
      | nil => cases rest <;> simp_all [bytesOf]
      | cons e ds =>
        have he : e = 0x78#8 := by
          have := congrArg (fun l => l[1]?) hmore
          simpa [bytesOf] using this.symm
        have := h.2 e (by simp)
        rw [he] at this
        exact absurd this (by decide)
    refine ⟨.dec, firstRule_eq 12 rfl ?_ (by rw [hlen]; simp), rfl, hlen⟩
    intro q hq
    rcases List.mem_append.mp (show q ∈ LexRule.inOrder.take 11 ++ [.hex] from hq) with hq | hq
    · exact fixedRules_zero (ds ++ rest) h1 h2 q hq
    · rw [List.mem_singleton.mp hq]; exact hhex
  case reg =>
    obtain ⟨ds, hds, rfl⟩ := h
    have hlen : LexRule.reg.matchLen (bytesOf "$" ++ ds ++ rest) = _ := prefixed _ isNameByte_iff ds hds hend
    refine ⟨.reg, firstRule_eq 13 rfl ?_ (by rw [hlen]; simp [bytesOf]), rfl, hlen⟩
    simp [LexRule.inOrder, LexRule.matchLen, greedyLen, literalLen, prefixedLen, bytesOf, isBlank, isDigit, byteIn]
  all_goals subst h
  case plus => exact fixed .plus 1 rfl _ (fun _ => rfl) (by decide) (by simp [LexRule.inOrder, LexRule.matchLen, greedyLen, isBlank, literalLen, bytesOf])
  case eq => exact fixed .eq 2 rfl _ (fun _ => rfl) (by decide) (by simp [LexRule.inOrder, LexRule.matchLen, greedyLen, isBlank, literalLen, bytesOf])
  case neq => exact fixed .neq 3 rfl _ (fun _ => rfl) (by decide) (by simp [LexRule.inOrder, LexRule.matchLen, greedyLen, isBlank, literalLen, bytesOf])
  case star => exact fixed .star 4 rfl _ (fun _ => rfl) (by decide) (by simp [LexRule.inOrder, LexRule.matchLen, greedyLen, isBlank, literalLen, bytesOf])
  case slash => exact fixed .slash 5 rfl _ (fun _ => rfl) (by decide) (by simp [LexRule.inOrder, LexRule.matchLen, greedyLen, isBlank, literalLen, bytesOf])
  case minus => exact fixed .minus 6 rfl _ (fun _ => rfl) (by decide) (by simp [LexRule.inOrder, LexRule.matchLen, greedyLen, isBlank, literalLen, bytesOf])
  case lparen => exact fixed .lparen 7 rfl _ (fun _ => rfl) (by decide) (by simp [LexRule.inOrder, LexRule.matchLen, greedyLen, isBlank, literalLen, bytesOf])
  case rparen => exact fixed .rparen 8 rfl _ (fun _ => rfl) (by decide) (by simp [LexRule.inOrder, LexRule.matchLen, greedyLen, isBlank, literalLen, bytesOf])
  case and => exact fixed .and 9 rfl _ (fun _ => rfl) (by decide) (by simp [LexRule.inOrder, LexRule.matchLen, greedyLen, isBlank, literalLen, bytesOf])
  case or => exact fixed .or 10 rfl _ (fun _ => rfl) (by decide) (by simp [LexRule.inOrder, LexRule.matchLen, greedyLen, isBlank, literalLen, bytesOf])

/-! ### The scan -/

/-- The scan passes over the bytes of the match taken last. -/
theorem scan_skip (m rest : List Byte) (pos : Nat) :
    scan (m ++ rest) pos m.length = scan rest (pos + m.length) 0 := by
  induction m generalizing pos with
  | nil => rfl
  | cons c m ih =>
    rw [List.cons_append, List.length_cons, scan, ih, Nat.add_assoc, Nat.add_comm 1]

/-- The tokens do not depend on the offset, which only an error reports. -/
theorem scan_offset {t : List Byte} {pos skip : Nat} {toks : List Token} (h : scan t pos skip = .ok toks)
    (pos' : Nat) : scan t pos' skip = .ok toks := by
  induction t generalizing pos pos' skip toks with
  | nil => exact h
  | cons c t ih =>
    cases skip with
    | succ skip => exact ih h _
    | zero =>
      rw [scan] at h ⊢
      split at h
      · exact absurd h (by simp)
      · split at h
        · exact ih h _
        · split at h
          · exact absurd h (by simp)
          · rename_i hlen
            rw [if_neg hlen]
            split at h
            · exact absurd h (by simp)
            · rename_i hs; rw [ih hs]; exact h

/-- A step of the scan at a match of a rule, at the head of a text: a token if the rule emits a tag. -/
theorem scan_match {m rest : List Byte} {r : LexRule} {pos : Nat} (hf : firstRule (m ++ rest) = some r)
    (hlen : r.matchLen (m ++ rest) = m.length) (hm : m ≠ []) :
    scan (m ++ rest) pos 0 =
      match r.emits with
      | none => scan rest (pos + m.length) 0
      | some tag =>
        if m.length > Config.tokenTextMax then .error (.lexError pos)
        else
          match scan rest (pos + m.length) 0 with
          | .error e => .error e
          | .ok toks => .ok (⟨tag, m⟩ :: toks) := by
  obtain ⟨c, cs, rfl⟩ := List.exists_cons_of_ne_nil hm
  rw [List.cons_append] at hf hlen ⊢
  have hpos : pos + 1 + cs.length = pos + (c :: cs).length := by simp; omega
  have hskip : scan (cs ++ rest) (pos + 1) ((c :: cs).length - 1) = scan rest (pos + (c :: cs).length) 0 :=
    hpos ▸ scan_skip cs rest (pos + 1)
  have htake : (c :: (cs ++ rest)).take (c :: cs).length = c :: cs := by simp
  cases he : r.emits with
  | none => simp only [scan, hf, hlen, he, hskip]
  | some tag =>
    cases hs : scan rest (pos + (c :: cs).length) 0 <;> simp only [scan, hf, hlen, htake, he, hskip, hs]

/-- A non-empty text whose scan succeeds begins with the match of some rule. -/
theorem firstRule_of_scan {c : Byte} {t : List Byte} {pos : Nat} {toks : List Token}
    (h : scan (c :: t) pos 0 = .ok toks) : ∃ r, firstRule (c :: t) = some r := by
  rw [scan] at h
  split at h
  · exact absurd h (by simp)
  · exact ⟨_, ‹_›⟩

end Sys2Proof.Machine
end

