-- ==== Sys2Proof/Tests/Slice0.lean ====
section
/-! SUPPORT. Tests/Slice0.lean: checks of the model against the spec's own vectors (spec/95_test_vectors.md)
and worked examples (41_compute.md to 45_system.md), and a witness for the hypotheses of every obligation.
Expected results are the spec's. -/

namespace Sys2Proof.Tests

open Sys2Proof Sys2Proof.Machine

/-! ### Helpers -/

/-- Registers and bytes written one after the other. -/
def setAll (s : State) (regs : List (Nat × Word)) (bytes : List (Nat × Byte)) : State :=
  let t := regs.foldl (fun s p => s.setReg (BitVec.ofNat 5 p.1) p.2) s
  { t with mem := bytes.foldl (fun m p => Memory.set m p.1 p.2) t.mem }

/-- 95_test_vectors.md section 0: RUNNING, pc 0x80100000, the word w there, and the row's registers and
bytes. -/
def start (cfg : Config.Params) (regs : List (Nat × Word)) (bytes : List (Nat × Byte)) (w : Word) : State :=
  let s := setAll { State.reset with cfg := cfg } regs bytes
  { s with mem := Memory.writeBytes s.mem 0x80100000 w 4 }

def defaults : Config.Params := Config.Params.suggested

/-- The defaults with TRAP_WORD_6B = true. -/
def trapWordGiven : Config.Params := { defaults with trapWord6B := true }

/-- The defaults with an ECALL_HOST. -/
def hostGiven : Config.Params := { defaults with ecallHostGiven := true }

/-- The result column of a vector: what changed. -/
inductive Expect where
  | ran (pc : Word) (regs : List (Nat × Word)) (bytes : List (Nat × Byte))
  | halted (exitCode : Word)
  | trapped (code : TrapCode) (value : Word)

/-- The whole state after the step: every field the row does not name is as it was. -/
def Expect.apply (s : State) : Expect → State
  | .ran pc regs bytes => { setAll s regs bytes with pc := pc }
  | .halted exitCode => { s with status := .halted, exitCode := exitCode }
  | .trapped code value => { s with status := .trapped code, trapValue := value }

/-- One step from s gives the expected state. -/
def gives (s : State) (e : Expect) : Bool :=
  match step s with
  | .next t => t == e.apply s
  | _ => false

/-- Each word decodes to its instruction, and the instruction encodes to the word. -/
def codes (l : List (Word × Instr)) : Bool :=
  l.all fun p => decide (decode false p.1 = .ok p.2) && encode p.2 == p.1

/-- Each text evaluates to its result. -/
def evals (s : State) (l : List (String × Except EvalFailure Word)) : Bool :=
  l.all fun p => decide (evaluate s (bytesOf p.1) = p.2)

/-- A value read as signed, as the evaluator vectors write it. -/
def int (n : Int) : Except EvalFailure Word := .ok (BitVec.ofInt 32 n)

/-! ### WellFormed: one ill-formed term for each check (R64 to R68) -/

theorem test_wf_imm_i : (Instr.addi 1 2 0x00000800#32).wf = false := by decide
theorem test_wf_imm_i_low : (Instr.lw 1 2 0xFFFFF7FF#32).wf = false := by decide
theorem test_wf_imm_s : (Instr.sw 1 2 0x00000800#32).wf = false := by decide
theorem test_wf_imm_b_range : (Instr.beq 1 2 0x00001000#32).wf = false := by decide
theorem test_wf_imm_b_odd : (Instr.beq 1 2 0x00000007#32).wf = false := by decide
theorem test_wf_imm_u : (Instr.lui 1 0x12345001#32).wf = false := by decide
theorem test_wf_imm_j_range : (Instr.jal 1 0x00100000#32).wf = false := by decide
theorem test_wf_imm_j_odd : (Instr.jal 1 0x00000003#32).wf = false := by decide
theorem test_wf_extremes :
    [Instr.addi 1 2 0x7FF#32, .addi 1 2 0xFFFFF800#32, .sw 1 2 0xFFFFF800#32, .beq 1 2 0xFFE#32,
      .beq 1 2 0xFFFFF000#32, .lui 1 0xFFFFF000#32, .jal 1 0xFFFFE#32, .jal 1 0xFFF00000#32].all (·.wf) = true := by
  decide

/-! ### Decoding: every constructor by a word of the spec's examples (R120 to R212) -/

theorem test_decode_upper :
    codes [(0x123452B7, .lui 5 0x12345000), (0xFFFFF2B7, .lui 5 0xFFFFF000), (0x00001317, .auipc 6 0x00001000)] = true := by
  decide

theorem test_decode_op_imm :
    codes [(0xFFF00293, .addi 5 0 0xFFFFFFFF), (0x80030293, .addi 5 6 0xFFFFF800), (0xFFF32293, .slti 5 6 0xFFFFFFFF),
      (0xFFF33293, .sltiu 5 6 0xFFFFFFFF), (0xFFF34293, .xori 5 6 0xFFFFFFFF), (0x0F036293, .ori 5 6 0xF0),
      (0x0FF37293, .andi 5 6 0xFF)] = true := by decide

theorem test_decode_shift_imm :
    codes [(0x01F31293, .slli 5 6 31), (0x00435293, .srli 5 6 4), (0x40435293, .srai 5 6 4),
      (0x41F35293, .srai 5 6 31)] = true := by decide

theorem test_decode_op :
    codes [(0x007302B3, .add 5 6 7), (0x407302B3, .sub 5 6 7), (0x007312B3, .sll 5 6 7), (0x007322B3, .slt 5 6 7),
      (0x007332B3, .sltu 5 6 7), (0x007342B3, .xor 5 6 7), (0x007352B3, .srl 5 6 7), (0x407352B3, .sra 5 6 7),
      (0x007362B3, .or 5 6 7), (0x007372B3, .and 5 6 7)] = true := by decide

theorem test_decode_jumps :
    codes [(0x001000EF, .jal 1 2048), (0x8000006F, .jal 0 0xFFF00000), (0x006000EF, .jal 1 6),
      (0x000080E7, .jalr 1 1 0), (0xFFF302E7, .jalr 5 6 0xFFFFFFFF)] = true := by decide

theorem test_decode_branches :
    codes [(0x00628463, .beq 5 6 8), (0x80628063, .beq 5 6 0xFFFFF000), (0x7E628FE3, .beq 5 6 4094),
      (0xFE629CE3, .bne 5 6 0xFFFFFFF8), (0xFE029CE3, .bne 5 0 0xFFFFFFF8), (0x0062C663, .blt 5 6 12),
      (0x0062D663, .bge 5 6 12), (0x0062E863, .bltu 5 6 16), (0x0062F863, .bgeu 5 6 16)] = true := by decide

theorem test_decode_loads :
    codes [(0x00030283, .lb 5 6 0), (0x00231283, .lh 5 6 2), (0xFFC32283, .lw 5 6 0xFFFFFFFC), (0x00034283, .lbu 5 6 0),
      (0x00235283, .lhu 5 6 2)] = true := by decide

theorem test_decode_stores :
    codes [(0xFE730FA3, .sb 6 7 0xFFFFFFFF), (0x007310A3, .sh 6 7 1), (0x007321A3, .sw 6 7 3)] = true := by decide

theorem test_decode_system : codes [(0x00000073, .ecall), (0x00100073, .ebreak)] = true := by decide

/-- R78: with TRAP_WORD_6B the opcode alone decides, whatever the other bits are. -/
theorem test_decode_trap_word :
    decode true 0x0000006B = .ok (.nemuTrap 0 0 0 0 0) ∧
    decode true 0xFFFFFFEB = .ok (.nemuTrap 127 31 31 7 31) ∧
    encode (.nemuTrap 127 31 31 7 31) = 0xFFFFFFEB := by decide

/-- Section 2's raw fields of an S word, a B word and a J word. -/
theorem test_decode_fields :
    decodeFields false 0xFE730FA3 = .ok ⟨.S, 0b0100011, 31, 6, 7, 0b000, 0b1111111, 0xFFFFFFFF⟩ ∧
    decodeFields false 0xFE029CE3 = .ok ⟨.B, 0b1100011, 25, 5, 0, 0b001, 0b1111111, 0xFFFFFFF8⟩ ∧
    decodeFields false 0x001000EF = .ok ⟨.J, 0b1101111, 1, 0, 1, 0b000, 0b0000000, 2048⟩ := by decide

/-- VI1 to VI20: every class of illegal word. -/
theorem test_decode_illegal :
    ([0x001000F3, 0x00108073, 0x00200073, 0x30200073, 0x10500073, 0xC0001073, 0x0000100F, 0x0000000F, 0x02C58533,
      0x00000000, 0xFFFFFFFF, 0x0000006B, 0x00003003, 0x00002063, 0x00003023, 0x00001067, 0x02031293, 0x60035293,
      0x40006033, 0x00000001] : List Word).all
      (fun w => match decode false w with | .error _ => true | .ok _ => false) = true := by decide

/-- Fewer than four bytes are no word, and the bytes after one are left over (R60). -/
theorem test_decode_bytes :
    decodeBytes false [0x73, 0x00, 0x10] = .error (.shortInput 3) ∧
    decodeBytes false [0x73, 0x00, 0x10, 0x00, 0xAA] = .ok (.ebreak, [0xAA]) := by decide

/-- Every row of the table: its match, with every operand bit 0, decodes to the row's instruction, and
placed at the pc it is what the next step runs. -/
theorem test_table_rows :
    (opcodeTable.all fun row =>
      match decodeTableWord 32 row.pattern.toNat with
      | some i => rowOf i == row && (State.reset.withFetchWord 32 row.pattern.toNat).fetch == .run i
      | none => false) = true := by decide

/-! ### One step: the vectors of 95_test_vectors.md section 3 -/

/-- VC1: `lui x5,0xFFFFF`. -/
theorem test_VC1_lui :
    gives (start defaults [] [] 0xFFFFF2B7) (.ran 0x80100004 [(5, 0xFFFFF000)] []) = true := by
  decide

/-- VC2: `lui x0,0x12345`. -/
theorem test_VC2_lui :
    gives (start defaults [] [] 0x12345037) (.ran 0x80100004 [] []) = true := by
  decide

/-- VC3: `auipc x5,0x80000`. -/
theorem test_VC3_auipc :
    gives (start defaults [] [] 0x80000297) (.ran 0x80100004 [(5, 0x00100000)] []) = true := by
  decide

/-- VC4: `auipc x5,0`. -/
theorem test_VC4_auipc :
    gives (start defaults [] [] 0x00000297) (.ran 0x80100004 [(5, 0x80100000)] []) = true := by
  decide

/-- VC5: `addi x5,x6,-2048`. -/
theorem test_VC5_addi :
    gives (start defaults [(6, 0x00000000)] [] 0x80030293) (.ran 0x80100004 [(5, 0xFFFFF800)] []) = true := by
  decide

/-- VC6: `addi x5,x6,1`. -/
theorem test_VC6_addi :
    gives (start defaults [(6, 0x7FFFFFFF)] [] 0x00130293) (.ran 0x80100004 [(5, 0x80000000)] []) = true := by
  decide

/-- VC8: `slti x5,x6,0`. -/
theorem test_VC8_slti :
    gives (start defaults [(6, 0x80000000)] [] 0x00032293) (.ran 0x80100004 [(5, 0x00000001)] []) = true := by
  decide

/-- VC9: `slti x5,x6,-2048`. -/
theorem test_VC9_slti :
    gives (start defaults [(6, 0xFFFFF800)] [] 0x80032293) (.ran 0x80100004 [] []) = true := by
  decide

/-- VC11: `sltiu x5,x6,1`. -/
theorem test_VC11_sltiu :
    gives (start defaults [(6, 0x00000001), (5, 0x000000AA)] [] 0x00133293) (.ran 0x80100004 [(5, 0x00000000)] []) = true := by
  decide

/-- VC12: `sltiu x5,x6,-1`. -/
theorem test_VC12_sltiu :
    gives (start defaults [(6, 0xFFFFFFFF), (5, 0x000000AA)] [] 0xFFF33293) (.ran 0x80100004 [(5, 0x00000000)] []) = true := by
  decide

/-- VC13: `xori x5,x6,-1`. -/
theorem test_VC13_xori :
    gives (start defaults [(6, 0x12345678)] [] 0xFFF34293) (.ran 0x80100004 [(5, 0xEDCBA987)] []) = true := by
  decide

/-- VC14: `ori x5,x6,-2048`. -/
theorem test_VC14_ori :
    gives (start defaults [(6, 0x00000001)] [] 0x80036293) (.ran 0x80100004 [(5, 0xFFFFF801)] []) = true := by
  decide

/-- VC15: `andi x5,x6,-1`. -/
theorem test_VC15_andi :
    gives (start defaults [(6, 0xCAFEBABE)] [] 0xFFF37293) (.ran 0x80100004 [(5, 0xCAFEBABE)] []) = true := by
  decide

/-- VC16: `slli x5,x6,0`. -/
theorem test_VC16_slli :
    gives (start defaults [(6, 0x12345678)] [] 0x00031293) (.ran 0x80100004 [(5, 0x12345678)] []) = true := by
  decide

/-- VC17: `slli x5,x6,31`. -/
theorem test_VC17_slli :
    gives (start defaults [(6, 0xFFFFFFFF)] [] 0x01F31293) (.ran 0x80100004 [(5, 0x80000000)] []) = true := by
  decide

/-- VC18: `srli x5,x6,31`. -/
theorem test_VC18_srli :
    gives (start defaults [(6, 0x80000000)] [] 0x01F35293) (.ran 0x80100004 [(5, 0x00000001)] []) = true := by
  decide

/-- VC19: `srai x5,x6,31`. -/
theorem test_VC19_srai :
    gives (start defaults [(6, 0x80000000)] [] 0x41F35293) (.ran 0x80100004 [(5, 0xFFFFFFFF)] []) = true := by
  decide

/-- VC20: `srai x5,x6,0`. -/
theorem test_VC20_srai :
    gives (start defaults [(6, 0x80000000)] [] 0x40035293) (.ran 0x80100004 [(5, 0x80000000)] []) = true := by
  decide

/-- VC21: `add x5,x6,x7`. -/
theorem test_VC21_add :
    gives (start defaults [(6, 0xFFFFFFFF), (7, 0x00000001), (5, 0x000000AA)] [] 0x007302B3) (.ran 0x80100004 [(5, 0x00000000)] []) = true := by
  decide

/-- VC35: `add x0,x6,x7`. -/
theorem test_VC35_add :
    gives (start defaults [(6, 0x00000001), (7, 0x00000002)] [] 0x00730033) (.ran 0x80100004 [] []) = true := by
  decide

/-- VC22: `sub x5,x6,x7`. -/
theorem test_VC22_sub :
    gives (start defaults [(6, 0x80000000), (7, 0x00000001)] [] 0x407302B3) (.ran 0x80100004 [(5, 0x7FFFFFFF)] []) = true := by
  decide

/-- VC23: `sub x5,x0,x6`. -/
theorem test_VC23_sub :
    gives (start defaults [(6, 0x80000000)] [] 0x406002B3) (.ran 0x80100004 [(5, 0x80000000)] []) = true := by
  decide

/-- VC24: `sll x5,x6,x7`. -/
theorem test_VC24_sll :
    gives (start defaults [(6, 0x00000001), (7, 0x00000020)] [] 0x007312B3) (.ran 0x80100004 [(5, 0x00000001)] []) = true := by
  decide

/-- VC25: `sll x5,x6,x7`. -/
theorem test_VC25_sll :
    gives (start defaults [(6, 0x00000001), (7, 0xFFFFFFFF)] [] 0x007312B3) (.ran 0x80100004 [(5, 0x80000000)] []) = true := by
  decide

/-- VC26: `slt x5,x6,x7`. -/
theorem test_VC26_slt :
    gives (start defaults [(6, 0x80000000), (7, 0x7FFFFFFF)] [] 0x007322B3) (.ran 0x80100004 [(5, 0x00000001)] []) = true := by
  decide

/-- VC28: `slt x5,x6,x6`. -/
theorem test_VC28_slt :
    gives (start defaults [(6, 0x00001234), (5, 0x000000AA)] [] 0x006322B3) (.ran 0x80100004 [(5, 0x00000000)] []) = true := by
  decide

/-- VC27: `sltu x5,x6,x7`. -/
theorem test_VC27_sltu :
    gives (start defaults [(6, 0x80000000), (7, 0x7FFFFFFF), (5, 0x000000AA)] [] 0x007332B3) (.ran 0x80100004 [(5, 0x00000000)] []) = true := by
  decide

/-- VC29: `sltu x5,x0,x6`. -/
theorem test_VC29_sltu :
    gives (start defaults [(6, 0x00000009)] [] 0x006032B3) (.ran 0x80100004 [(5, 0x00000001)] []) = true := by
  decide

/-- VC30: `xor x5,x6,x6`. -/
theorem test_VC30_xor :
    gives (start defaults [(6, 0x5555AAAA), (5, 0x000000AA)] [] 0x006342B3) (.ran 0x80100004 [(5, 0x00000000)] []) = true := by
  decide

/-- VC31: `srl x5,x6,x7`. -/
theorem test_VC31_srl :
    gives (start defaults [(6, 0xF0000000), (7, 0x00000024)] [] 0x007352B3) (.ran 0x80100004 [(5, 0x0F000000)] []) = true := by
  decide

/-- VC32: `sra x5,x6,x7`. -/
theorem test_VC32_sra :
    gives (start defaults [(6, 0xF0000000), (7, 0x00000024)] [] 0x407352B3) (.ran 0x80100004 [(5, 0xFF000000)] []) = true := by
  decide

/-- VC33: `or x5,x6,x7`. -/
theorem test_VC33_or :
    gives (start defaults [(6, 0x0F0F0F0F), (7, 0xF0F0F0F0)] [] 0x007362B3) (.ran 0x80100004 [(5, 0xFFFFFFFF)] []) = true := by
  decide

/-- VC34: `and x5,x6,x7`. -/
theorem test_VC34_and :
    gives (start defaults [(6, 0x0F0F0F0F), (7, 0xF0F0F0F0), (5, 0x000000AA)] [] 0x007372B3) (.ran 0x80100004 [(5, 0x00000000)] []) = true := by
  decide

/-- VJ1: `jal x1,2048`. -/
theorem test_VJ1_jal :
    gives (start defaults [] [] 0x001000EF) (.ran 0x80100800 [(1, 0x80100004)] []) = true := by
  decide

/-- VJ3: `jal x1,6`. -/
theorem test_VJ3_jal :
    gives (start defaults [] [] 0x006000EF) (.trapped .misalignedPc 0x80100006) = true := by
  decide

/-- VJ5: `jalr x1,0(x1)`. -/
theorem test_VJ5_jalr :
    gives (start defaults [(1, 0x80100041)] [] 0x000080E7) (.ran 0x80100040 [(1, 0x80100004)] []) = true := by
  decide

/-- VJ6: `jalr x5,-1(x6)`. -/
theorem test_VJ6_jalr :
    gives (start defaults [(6, 0x80100008)] [] 0xFFF302E7) (.trapped .misalignedPc 0x80100006) = true := by
  decide

/-- VJ8: `beq x5,x6,4094`. -/
theorem test_VJ8_beq :
    gives (start defaults [(5, 0x00000003), (6, 0x00000003)] [] 0x7E628FE3) (.trapped .misalignedPc 0x80100FFE) = true := by
  decide

/-- VJ9: `beq x5,x6,-4096`. -/
theorem test_VJ9_beq :
    gives (start defaults [(5, 0x00000003), (6, 0x00000003)] [] 0x80628063) (.ran 0x800FF000 [] []) = true := by
  decide

/-- VJ11: `bne x5,x5,6`. -/
theorem test_VJ11_bne :
    gives (start defaults [(5, 0x00000001)] [] 0x00529363) (.ran 0x80100004 [] []) = true := by
  decide

/-- VJ12: `bne x5,x6,6`. -/
theorem test_VJ12_bne :
    gives (start defaults [(5, 0x00000001), (6, 0x00000002)] [] 0x00629363) (.trapped .misalignedPc 0x80100006) = true := by
  decide

/-- VJ13: `blt x5,x6,8`. -/
theorem test_VJ13_blt :
    gives (start defaults [(5, 0x80000000), (6, 0x7FFFFFFF)] [] 0x0062C463) (.ran 0x80100008 [] []) = true := by
  decide

/-- VJ15: `bge x5,x6,8`. -/
theorem test_VJ15_bge :
    gives (start defaults [(5, 0x00000005), (6, 0x00000005)] [] 0x0062D463) (.ran 0x80100008 [] []) = true := by
  decide

/-- VJ14: `bltu x5,x6,8`. -/
theorem test_VJ14_bltu :
    gives (start defaults [(5, 0x80000000), (6, 0x7FFFFFFF)] [] 0x0062E463) (.ran 0x80100004 [] []) = true := by
  decide

/-- VJ16: `bgeu x5,x0,8`. -/
theorem test_VJ16_bgeu :
    gives (start defaults [(5, 0x00000000)] [] 0x0002F463) (.ran 0x80100008 [] []) = true := by
  decide

/-- VM2: `lb x5,-1(x6)`. -/
theorem test_VM2_lb :
    gives (start defaults [(6, 0x80001001)] [(0x80001000, 0xFF)] 0xFFF30283) (.ran 0x80100004 [(5, 0xFFFFFFFF)] []) = true := by
  decide

/-- VM10: `lb x5,0(x6)`. -/
theorem test_VM10_lb :
    gives (start defaults [(6, 0x88000000)] [] 0x00030283) (.trapped .memFault 0x88000000) = true := by
  decide

/-- VM3: `lbu x5,0(x6)`. -/
theorem test_VM3_lbu :
    gives (start defaults [(6, 0x80001000)] [(0x80001000, 0xFF)] 0x00034283) (.ran 0x80100004 [(5, 0x000000FF)] []) = true := by
  decide

/-- VM4: `lh x5,1(x6)`. -/
theorem test_VM4_lh :
    gives (start defaults [(6, 0x80001000)] [(0x80001001, 0x00), (0x80001002, 0x80)] 0x00131283) (.ran 0x80100004 [(5, 0xFFFF8000)] []) = true := by
  decide

/-- VM5: `lhu x5,1(x6)`. -/
theorem test_VM5_lhu :
    gives (start defaults [(6, 0x80001000)] [(0x80001001, 0x00), (0x80001002, 0x80)] 0x00135283) (.ran 0x80100004 [(5, 0x00008000)] []) = true := by
  decide

/-- VM6: `lw x5,1(x6)`. -/
theorem test_VM6_lw :
    gives (start defaults [(6, 0x80001000)] [(0x80001001, 0x11), (0x80001002, 0x22), (0x80001003, 0x33), (0x80001004, 0x44)] 0x00132283) (.ran 0x80100004 [(5, 0x44332211)] []) = true := by
  decide

/-- VM8: `lw x5,0(x6)`. -/
theorem test_VM8_lw :
    gives (start defaults [(6, 0x87FFFFFD)] [] 0x00032283) (.trapped .memFault 0x87FFFFFD) = true := by
  decide

/-- VM14: `sb x7,-1(x6)`. -/
theorem test_VM14_sb :
    gives (start defaults [(6, 0x80001001), (7, 0xFFFFFF5A)] [(0x80001000, 0x00)] 0xFE730FA3) (.ran 0x80100004 [] [(0x80001000, 0x5A)]) = true := by
  decide

/-- VM15: `sh x7,1(x6)`. -/
theorem test_VM15_sh :
    gives (start defaults [(6, 0x80001000), (7, 0x0000BEEF)] [(0x80001001, 0x00), (0x80001002, 0x00)] 0x007310A3) (.ran 0x80100004 [] [(0x80001001, 0xEF), (0x80001002, 0xBE)]) = true := by
  decide

/-- VM18: `sh x7,0(x6)`. -/
theorem test_VM18_sh :
    gives (start defaults [(6, 0x87FFFFFF), (7, 0x00001122)] [(0x87FFFFFF, 0x00)] 0x00731023) (.trapped .memFault 0x87FFFFFF) = true := by
  decide

/-- VM16: `sw x7,3(x6)`. -/
theorem test_VM16_sw :
    gives (start defaults [(6, 0x80001000), (7, 0x01020304)] [(0x80001003, 0x00), (0x80001004, 0x00), (0x80001005, 0x00), (0x80001006, 0x00)] 0x007321A3) (.ran 0x80100004 [] [(0x80001003, 0x04), (0x80001004, 0x03), (0x80001005, 0x02), (0x80001006, 0x01)]) = true := by
  decide

/-- VM17: `sw x7,0(x6)`. -/
theorem test_VM17_sw :
    gives (start defaults [(6, 0x87FFFFFE), (7, 0x11223344)] [(0x87FFFFFE, 0x00), (0x87FFFFFF, 0x00)] 0x00732023) (.trapped .memFault 0x87FFFFFE) = true := by
  decide

/-- VS1: `ecall`. -/
theorem test_VS1_ecall :
    gives (start defaults [] [] 0x00000073) (.trapped .ecall 0x00000000) = true := by
  decide

/-- VS2: `ebreak`. -/
theorem test_VS2_ebreak :
    gives (start defaults [(10, 0xFFFFFFFF)] [] 0x00100073) (.halted 0xFFFFFFFF) = true := by
  decide

/-- VI21: —. -/
theorem test_VI21_word6B :
    gives (start trapWordGiven [(10, 0x00000007)] [] 0x0000006B) (.halted 0x00000007) = true := by
  decide

/-- VI12: —. -/
theorem test_VI12_word6B :
    gives (start defaults [] [] 0x0000006B) (.trapped .illegal 0x0000006B) = true := by
  decide

/-- R165's example: not taken. -/
theorem test_bge_not_taken :
    gives (start defaults [(5, 0xFFFFFFFF), (6, 0)] [] 0x0062D663) (.ran 0x80100004 [] []) = true := by decide

/-- R166's example: taken. -/
theorem test_bltu_taken :
    gives (start defaults [(5, 1), (6, 0xFFFFFFFF)] [] 0x0062E863) (.ran 0x80100010 [] []) = true := by decide

/-- R167's example: not taken. -/
theorem test_bgeu_not_taken :
    gives (start defaults [(5, 1), (6, 0xFFFFFFFF)] [] 0x0062F863) (.ran 0x80100004 [] []) = true := by decide

/-- VI4: MRET traps ILLEGAL with the word. -/
theorem test_VI4_mret : gives (start defaults [] [] 0x30200073) (.trapped .illegal 0x30200073) = true := by decide

/-- R48: a fetch outside the region traps MEM_FAULT with the pc. -/
theorem test_fetch_fault :
    gives { start defaults [] [] 0x13 with pc := 0x88000000 } (.trapped .memFault 0x88000000) = true := by decide

/-- R102: a halted engine does nothing. -/
theorem test_stopped :
    gives { start defaults [] [] 0x13 with status := .halted } (.ran 0x80100000 [] []) = true := by decide

/-! ### The host's ports (R105) -/

theorem test_port_refusals :
    (match State.reset.setRegister 32 1 with | .refused r => r == .registerIndex 32 | _ => false) = true ∧
    (match State.reset.read 0x80000000 3 with | .refused r => r == .accessWidth 3 | _ => false) = true ∧
    (match State.reset.read 0x88000000 1 with | .fault r => r == .outOfRange 0x88000000 | _ => false) = true ∧
    (match State.reset.setPC 0x80100002 with | .refused r => r == .misalignedSetPC 0x80100002 | _ => false) = true := by
  decide

theorem test_load_image :
    (match State.reset.hostCalls (imageCalls 0x80100000 [0x93, 0x02, 0xA0, 0x00]) with
      | .next s => s.memRead 0x80100000 .word == some 0x00A00293 && s.mem == [(0x80100000, 0x93), (0x80100001, 0x02), (0x80100002, 0xA0)]
      | _ => false) = true := by decide

/-! ### Names, assembler syntax and pseudo-instructions (R35, R79, R80) -/

theorem test_register_names :
    registerIndexByName (bytesOf "x31") = some 31 ∧ registerIndexByName (bytesOf "fp") = some 8 ∧
    registerIndexByName (bytesOf "t6") = some 31 ∧ registerIndexByName (bytesOf "0") = some 0 ∧
    registerIndexByName (bytesOf "x32") = none ∧ registerIndexByName (bytesOf "A0") = none := by decide

theorem test_asm :
    asm 0x80100000 (.sw 6 7 20) = "sw x7, 20(x6)" ∧ asm 0x80100000 (.addi 5 6 0xFFFFF800) = "addi x5, x6, -2048" ∧
    asm 0x80100000 (.lui 5 0x12345000) = "lui x5, 74565" ∧ asm 8 (.bne 5 0 0xFFFFFFF8) = "bne x5, x0, 0" := by decide

theorem test_pseudo :
    (Pseudo.expand 0 .nop).map encode = [0x00000013] ∧
    (Pseudo.expand 0 .ret).map encode = [0x00008067] ∧
    Pseudo.expand 0 (.li 7 0xDEADBEEF) = [.lui 7 0xDEADC000, .addi 7 7 0xFFFFFEEF] ∧
    Pseudo.expand 0 (.li 6 0x80001000) = [.lui 6 0x80001000] ∧
    Pseudo.expand 0x1000 (.beqz 5 0x1010) = [.beq 5 0 16] := by decide

/-! ### The evaluator: 95_test_vectors.md section 4 -/

/-- The state of section 4. -/
def evalState : State :=
  setAll State.reset [(10, 5), (2, 0x80001000), (5, 0xFFFFFFFF)]
    [(0x80001000, 0x44), (0x80001001, 0x33), (0x80001002, 0x22), (0x80001003, 0x11)]

theorem test_eval_source :
    evals evalState [("1+2*3", int 7), ("(1+2)*3", int 9), ("-3+5", int 2), ("4/0", .error .divisionByZero),
      ("$bad_name", .error .unknownRegister), ("0x10", int 16)] = true := by decide

theorem test_eval_arithmetic :
    evals evalState [("2*-3", int (-6)), ("--3", int 3), ("10-2-3", int 5), ("100/10/5", int 2), ("7/-2", int (-3)),
      ("-2147483648/-1", int (-2147483648)), ("2147483647+1", int (-2147483648)), ("1+1==2", int 1),
      ("1==2==0", int 1), ("3!=3", int 0), ("4294967296", int 0), ("-(1+2)*3", int (-9))] = true := by decide

theorem test_eval_logic_and_grouping :
    evals evalState [("0 && 1/0", .error .divisionByZero), ("2 && 3", int 1), ("0||0", int 0), ("((7))", int 7),
      ("(1)+(2)", int 3), ("\t7\t", int 7)] = true := by decide

theorem test_eval_failures :
    evals evalState [("(1+2", .error .unbalancedParens), (")(", .error .unbalancedParens), ("1+", .error .malformedSpan),
      ("+1", .error .malformedSpan), ("()", .error .malformedSpan), ("", .error .malformedSpan),
      ("1 2", .error .malformedSpan), ("1 $", .error (.lexError 2)), ("0X10", .error (.lexError 1)),
      ("1 = 2", .error (.lexError 2)), ("a0", .error (.lexError 0))] = true := by decide

/-- R224: 31 bytes are allowed, 32 are not. -/
theorem test_eval_lexeme_limit :
    evals evalState [("1111111111111111111111111111111", int 1193046471),
      ("11111111111111111111111111111111", .error (.lexError 0))] = true := by decide

theorem test_eval_registers :
    evals evalState [("$0", int 0), ("$x10+1", int 6), ("$pc", int (-2146435072)), ("$PC", .error .unknownRegister),
      ("$x32", .error .unknownRegister), ("$t0 == -1", int 1), ("$a0*$a0-1", int 24),
      ("$a0$a1", .error .malformedSpan)] = true := by decide

theorem test_eval_dereference :
    evals evalState [("*$sp", int 287454020), ("*0x80001001", int 1122867), ("*0x87FFFFFC", int 0),
      ("*0x87FFFFFD", .error .memoryFault), ("1+*0", .error .memoryFault), ("-*$sp", int (-287454020)),
      ("2**$sp", int 574908040)] = true := by decide

theorem test_eval_pair : evaluatePair evalState (bytesOf "2*-3") = (-6, true) ∧
    evaluatePair evalState (bytesOf "4/0") = (0, false) := by decide

/-! ### Witnesses: for every obligation with hypotheses, values that meet them, clause by clause -/

/-- A NOP at the pc of a running machine. -/
def nopState : State := start defaults [] [] 0x00000013

/-- An ECALL that is handed over, and one that is not. -/
def handState : State := start hostGiven [] [] 0x00000073
def ecallState : State := start defaults [] [] 0x00000073

/-- A machine with the word w at its pc and x6 = v, x7 = u. -/
def withRegs (v u w : Word) : State := start defaults [(6, v), (7, u)] [] w

/-- The next state of an instruction, of a step, or the state itself. -/
def execNext (i : Instr) (s : State) : State := match exec i s with | .next t => t | _ => s
def stepNext (s : State) : State := match step s with | .next t => t | _ => s

theorem nopState_inv : nopState.Inv := ⟨by decide, by decide, by decide, by decide⟩

theorem witness_HostRegisterAccess :
    (0 < 32 ∧ (0 : Nat) ≠ 31) ∧ (31 < 32 ∧ 31 ≠ 0) ∧ 32 ≤ 32 ∧
    (match nopState.setRegister 31 7 with | .next t => t.getReg 31 == 7 | _ => false) = true ∧
    (match nopState.setRegister 0 7 with | .next t => t.getReg 0 == 0 | _ => false) = true := by decide

theorem witness_CreationSetsEveryField : (30 < 31) ∧ BitVec.ofNat 5 (30 + 1) = 31#5 := by decide

theorem witness_InRangeIsEveryByteInRegion :
    inRange defaults 0x87FFFFFC 4 = true ∧ inRange defaults 0x80000000 1 = true ∧
    inRange nopState.cfg 0x87FFFFFD (Width.word).bytes = false ∧ inRange nopState.cfg 0xFFFFFFFF (Width.word).bytes = false := by
  decide

theorem witness_ReadPortIsLittleEndian :
    InRegion nopState 0x87FFFFFC (Width.word).bytes ∧ InRegion nopState 0x80000000 (Width.byte).bytes ∧
    ¬ InRegion nopState 0x87FFFFFD (Width.word).bytes ∧ ¬ InRegion nopState 0x7FFFFFFF (Width.byte).bytes := by decide

theorem witness_MixedWidthReadsAgree :
    nopState.cfg.wf = true ∧ nopState.memRead 0x80100000 .word = some 0x00000013 ∧
    nopState.memRead 0x87FFFFFC .word = some 0 ∧ 3 < 4 := by decide

theorem witness_WritePortStoresItsBytes :
    Memory.wf nopState.mem ∧ InRegion nopState 0x87FFFFFC (Width.word).bytes ∧ 3 < (Width.word).bytes ∧
    ¬ InRegion nopState 0x87FFFFFD (Width.word).bytes := by decide

theorem witness_ReadAfterWrite :
    (∃ t, Memory.wf nopState.mem ∧ nopState.memWrite 0x80000000 .half 0x1234 = some t) ∧
    (0x80000000#32).toNat + (Width.half).bytes ≤ (0x80000002#32).toNat ∧
    (0x80000000#32).toNat + (Width.byte).bytes ≤ (0x80000001#32).toNat := ⟨⟨_, by decide, rfl⟩, by decide⟩

theorem witness_FieldsRoundTrip :
    (fieldsS 0b000 6 7 0xFFFFFFFF).legal false = true ∧ (fieldsR opTrapWord 7 127 31 31 31).legal true = true ∧
    decodeFields false 0xFE730FA3 = .ok (fieldsS 0b000 6 7 0xFFFFFFFF) := by decide

theorem witness_DecodeOfEncode :
    (Instr.beq 5 6 0xFFFFF000).wf = true ∧ (Instr.nemuTrap 127 31 31 7 31).wf = true ∧
    ∀ funct7 rs2 rs1 funct3 rd, Instr.beq 5 6 0xFFFFF000 ≠ .nemuTrap funct7 rs2 rs1 funct3 rd :=
  ⟨by decide, by decide, fun _ _ _ _ _ h => by cases h⟩

theorem witness_EncodeOfDecode :
    decode false 0x80628063 = .ok (.beq 5 6 0xFFFFF000) ∧ decode true 0xFFFFFFEB = .ok (.nemuTrap 127 31 31 7 31) := by decide

theorem witness_DecoderIsTheOpcodeTable :
    decode false 0x407302B3 = .ok (.sub 5 6 7) ∧ rowOf (.sub 0 0 0) ∈ opcodeTable ∧
    (0x407302B3#32 &&& (rowOf (.sub 0 0 0)).mask = (rowOf (.sub 0 0 0)).pattern) ∧
    (0x407302B3#32).extractLsb' 0 7 ≠ 0b1101011#7 := by decide

theorem witness_DispatchEntriesNeverOverlap :
    ∃ (j : Nat) (hj : j < dispatchTable.length),
      dispatchTable[j].matches (Instr.fields (.sub 5 6 7)) = true := ⟨12, by decide, by decide⟩

/-- A word of every class of R75, in its order, and a running machine that fetches one. -/
theorem witness_IllegalEncodingsAreRejected :
    (0x00000001#32).extractLsb' 0 2 ≠ 3#2 ∧
    ((0x0000000F#32).extractLsb' 0 7 ∉ [0x37#7, 0x17#7, 0x6F#7, 0x67#7, 0x63#7, 0x03#7, 0x23#7, 0x13#7, 0x33#7, 0x73#7]) ∧
    ((0x0000006B#32).extractLsb' 0 7 = 0x6B#7 ∧ nopState.cfg.trapWord6B = false) ∧
    ((0x00002063#32).extractLsb' 0 7 = 0x63#7 ∧ (0x00002063#32).extractLsb' 12 3 ∈ [2#3, 3#3]) ∧
    ((0x00003003#32).extractLsb' 0 7 = 0x03#7 ∧ (0x00003003#32).extractLsb' 12 3 ∈ [3#3, 6#3, 7#3]) ∧
    ((0x00003023#32).extractLsb' 0 7 = 0x23#7 ∧ (0x00003023#32).extractLsb' 12 3 ∈ [3#3, 4#3, 5#3, 6#3, 7#3]) ∧
    ((0x00001067#32).extractLsb' 0 7 = 0x67#7 ∧ (0x00001067#32).extractLsb' 12 3 ≠ 0#3) ∧
    ((0x02031293#32).extractLsb' 0 7 = 0x13#7 ∧ (0x02031293#32).extractLsb' 12 3 = 1#3 ∧ (0x02031293#32).extractLsb' 25 7 ≠ 0#7) ∧
    ((0x60035293#32).extractLsb' 12 3 = 5#3 ∧ (0x60035293#32).extractLsb' 25 7 ∉ [0#7, 0x20#7]) ∧
    ((0x02C58533#32).extractLsb' 0 7 = 0x33#7 ∧ (0x02C58533#32).extractLsb' 25 7 ∉ [0#7, 0x20#7]) ∧
    ((0x40006033#32).extractLsb' 25 7 = 0x20#7 ∧ (0x40006033#32).extractLsb' 12 3 ∉ [0#3, 5#3]) ∧
    ((0xC0001073#32).extractLsb' 0 7 = 0x73#7 ∧ (0xC0001073#32).extractLsb' 12 3 ≠ 0#3) ∧
    ((0x30200073#32).extractLsb' 0 7 = 0x73#7 ∧ (0x30200073#32).extractLsb' 12 3 = 0#3) := by decide

/-- A running machine whose pc holds the illegal word MRET. -/
theorem witness_IllegalWordTraps :
    (withRegs 0 0 0x30200073).status = .running ∧ InRegion (withRegs 0 0 0x30200073) (withRegs 0 0 0x30200073).pc 4 ∧
    (0x30200073 : Word) = (withRegs 0 0 0x30200073).byteAt (0x80100000 + 3) ++ (withRegs 0 0 0x30200073).byteAt (0x80100000 + 2) ++
      (withRegs 0 0 0x30200073).byteAt (0x80100000 + 1) ++ (withRegs 0 0 0x30200073).byteAt 0x80100000 ∧
    decode (withRegs 0 0 0x30200073).cfg.trapWord6B 0x30200073 = .error (.noDispatchEntry 0x30200073) := by decide

/-- Words that meet the opcode, funct3 and funct7 premises of the encoding clauses (test_decode above
decodes one for every instruction). -/
theorem witness_encodings :
    ((0x123452B7#32).extractLsb' 0 7 = 0b0110111#7) ∧ ((0x00001317#32).extractLsb' 0 7 = 0b0010111#7) ∧
    ([(0xFFF00293#32, 0b000#3), (0xFFF32293#32, 0b010#3), (0xFFF33293#32, 0b011#3), (0xFFF34293#32, 0b100#3),
      (0x0F036293#32, 0b110#3), (0x0FF37293#32, 0b111#3)].all fun p =>
        p.1.extractLsb' 0 7 == 0b0010011#7 && p.1.extractLsb' 12 3 == p.2) = true ∧
    ([(0x01F31293#32, 0b001#3, 0#7), (0x00435293#32, 0b101#3, 0#7), (0x40435293#32, 0b101#3, 0b0100000#7),
      (0x02031293#32, 0b001#3, 1#7), (0x60035293#32, 0b101#3, 0b0110000#7)].all fun p =>
        p.1.extractLsb' 0 7 == 0b0010011#7 && p.1.extractLsb' 12 3 == p.2.1 && p.1.extractLsb' 25 7 == p.2.2) = true ∧
    ([(0x007302B3#32, 0b000#3, 0#7), (0x407302B3#32, 0b000#3, 0b0100000#7), (0x007312B3#32, 0b001#3, 0#7),
      (0x007322B3#32, 0b010#3, 0#7), (0x007332B3#32, 0b011#3, 0#7), (0x007342B3#32, 0b100#3, 0#7),
      (0x007352B3#32, 0b101#3, 0#7), (0x407352B3#32, 0b101#3, 0b0100000#7), (0x007362B3#32, 0b110#3, 0#7),
      (0x007372B3#32, 0b111#3, 0#7)].all fun p =>
        p.1.extractLsb' 0 7 == 0b0110011#7 && p.1.extractLsb' 12 3 == p.2.1 && p.1.extractLsb' 25 7 == p.2.2) = true ∧
    ((0x001000EF#32).extractLsb' 0 7 = 0b1101111#7) ∧
    ((0x000080E7#32).extractLsb' 0 7 = 0b1100111#7 ∧ (0x000080E7#32).extractLsb' 12 3 = 0b000#3) ∧
    ([(0x00628463#32, 0b000#3), (0xFE629CE3#32, 0b001#3), (0x0062C663#32, 0b100#3), (0x0062D663#32, 0b101#3),
      (0x0062E863#32, 0b110#3), (0x0062F863#32, 0b111#3)].all fun p =>
        p.1.extractLsb' 0 7 == 0b1100011#7 && p.1.extractLsb' 12 3 == p.2) = true ∧
    ([(0x00030283#32, 0b000#3), (0x00231283#32, 0b001#3), (0xFFC32283#32, 0b010#3), (0x00034283#32, 0b100#3),
      (0x00235283#32, 0b101#3)].all fun p => p.1.extractLsb' 0 7 == 0b0000011#7 && p.1.extractLsb' 12 3 == p.2) = true ∧
    ([(0xFE730FA3#32, 0b000#3), (0x007310A3#32, 0b001#3), (0x007321A3#32, 0b010#3)].all fun p =>
        p.1.extractLsb' 0 7 == 0b0100011#7 && p.1.extractLsb' 12 3 == p.2) = true ∧
    ((0xFFFFFFEB#32).extractLsb' 0 7 = 0b1101011#7) := by decide

/-- The instruction and value clauses of the result obligations, one for each instruction, on x6 = 0xF0000000
and x7 = 0x24: shifts by 4, a negative left operand. -/
theorem witness_results :
    [(execNext (.slti 5 6 0) (withRegs 0xF0000000 0x24 0x13)).getReg 5, (execNext (.sltiu 5 6 0) (withRegs 0xF0000000 0x24 0x13)).getReg 5,
      (execNext (.slli 5 6 4) (withRegs 0xF0000000 0x24 0x13)).getReg 5, (execNext (.srli 5 6 4) (withRegs 0xF0000000 0x24 0x13)).getReg 5,
      (execNext (.srai 5 6 4) (withRegs 0xF0000000 0x24 0x13)).getReg 5, (execNext (.sll 5 6 7) (withRegs 0xF0000000 0x24 0x13)).getReg 5,
      (execNext (.srl 5 6 7) (withRegs 0xF0000000 0x24 0x13)).getReg 5, (execNext (.sra 5 6 7) (withRegs 0xF0000000 0x24 0x13)).getReg 5] =
    [1, 0, 0, 0x0F000000, 0xFF000000, 0, 0x0F000000, 0xFF000000] := by decide

theorem witness_ComputeWritesOnlyItsRegister :
    isCompute (.lui 5 0) = true ∧ isCompute (.auipc 0 0) = true ∧ isCompute (.srai 5 6 31) = true ∧ isCompute (.and 5 6 7) = true := by
  decide

/-- An aligned and a misaligned target, for JAL and JALR. -/
theorem witness_jumps :
    (nopState.pc + 2048).toNat % 4 = 0 ∧ (nopState.pc + 6).toNat % 4 ≠ 0 ∧
    (BitVec.ofNat 32 (((withRegs 0x80100041 0 0x13).getReg 6 + 0).toNat / 2 * 2)).getLsbD 1 = false ∧
    (BitVec.ofNat 32 (((withRegs 0x80100008 0 0x13).getReg 6 + 0xFFFFFFFF).toNat / 2 * 2)).getLsbD 1 = true := by decide

/-- For each branch condition a state where it holds and one where it does not; aligned and misaligned
targets as for JAL. -/
theorem witness_BranchesFollowTheirCondition :
    ((withRegs 3 3 0x13).getReg 6 = (withRegs 3 3 0x13).getReg 7 ∧ (withRegs 3 4 0x13).getReg 6 ≠ (withRegs 3 4 0x13).getReg 7) ∧
    (((withRegs 0x80000000 0x7FFFFFFF 0x13).getReg 6).toInt < ((withRegs 0x80000000 0x7FFFFFFF 0x13).getReg 7).toInt ∧
      ((withRegs 5 5 0x13).getReg 7).toInt ≤ ((withRegs 5 5 0x13).getReg 6).toInt) ∧
    (((withRegs 1 0xFFFFFFFF 0x13).getReg 6).toNat < ((withRegs 1 0xFFFFFFFF 0x13).getReg 7).toNat ∧
      ((withRegs 5 5 0x13).getReg 7).toNat ≤ ((withRegs 5 5 0x13).getReg 6).toNat) := by decide

/-- Accesses of each width at the last byte of the region and one byte beyond it. -/
theorem witness_accesses :
    Memory.wf (withRegs 0x87FFFFFF 0 0x13).mem ∧
    (InRegion (withRegs 0x87FFFFFF 0 0x13) ((withRegs 0x87FFFFFF 0 0x13).getReg 6 + 0) 1 ∧
      ¬ InRegion (withRegs 0x87FFFFFF 0 0x13) ((withRegs 0x87FFFFFF 0 0x13).getReg 6 + 1) 1) ∧
    (InRegion (withRegs 0x87FFFFFE 0 0x13) ((withRegs 0x87FFFFFE 0 0x13).getReg 6 + 0) 2 ∧
      ¬ InRegion (withRegs 0x87FFFFFE 0 0x13) ((withRegs 0x87FFFFFE 0 0x13).getReg 6 + 1) 2) ∧
    (InRegion (withRegs 0x87FFFFFC 0 0x13) ((withRegs 0x87FFFFFC 0 0x13).getReg 6 + 0) 4 ∧
      ¬ InRegion (withRegs 0x87FFFFFC 0 0x13) ((withRegs 0x87FFFFFC 0 0x13).getReg 6 + 1) 4) := by decide

/-- SW of EBREAK's word at the pc's next word, then a machine whose pc is there; and of an illegal word. -/
theorem witness_StoreIsSeenByTheNextFetch :
    ∃ t, Memory.wf (withRegs 0x80100004 0x00100073 0x13).mem ∧
      InRegion (withRegs 0x80100004 0x00100073 0x13) ((withRegs 0x80100004 0x00100073 0x13).getReg 6 + 0) 4 ∧
      exec (.sw 6 7 0) (withRegs 0x80100004 0x00100073 0x13) = .next t ∧
      t.status = .running ∧ t.pc = (withRegs 0x80100004 0x00100073 0x13).getReg 6 + 0 ∧
      decode t.cfg.trapWord6B ((withRegs 0x80100004 0x00100073 0x13).getReg 7) = .ok .ebreak ∧
      decode t.cfg.trapWord6B 0 = .error (.illegalInstruction 0) :=
  ⟨_, by decide, by decide, rfl, by decide, by decide, by decide, by decide⟩

theorem witness_EcallTrapsOrIsHandedOver :
    ecallState.cfg.ecallHostGiven = false ∧ handState.cfg.ecallHostGiven = true ∧ handState.handsOver := by decide

theorem witness_StepRunsTheDecodedInstruction :
    nopState.status = .running ∧ InRegion nopState nopState.pc 4 ∧
    decode nopState.cfg.trapWord6B (nopState.byteAt (nopState.pc.toNat + 3) ++ nopState.byteAt (nopState.pc.toNat + 2) ++
      nopState.byteAt (nopState.pc.toNat + 1) ++ nopState.byteAt nopState.pc.toNat) = .ok (.addi 0 0 0) := by decide

theorem witness_FetchOutOfRegionTraps :
    { nopState with pc := 0x88000000 }.status = .running ∧
    ¬ InRegion { nopState with pc := 0x88000000 } { nopState with pc := 0x88000000 }.pc 4 ∧
    ¬ InRegion { nopState with pc := 0x7FFFFFFC } { nopState with pc := 0x7FFFFFFC }.pc 4 := by decide

theorem witness_StoppedEngineStaysAsItIs :
    { nopState with status := .halted }.status ≠ .running ∧
    { nopState with status := .trapped .illegal }.status ≠ .running := by decide

/-- EBREAK ends a run after one step, and the run is safe. -/
theorem witness_RunEndsInOneState :
    ∃ t, RunEnds (withRegs 0 0 0x00100073) t 1 ∧ SafeFor (withRegs 0 0 0x00100073) 1 := by
  refine ⟨_, ⟨rfl, by decide, fun j hj => ?_⟩, fun j hj => ?_⟩
  · obtain rfl : j = 0 := by omega
    exact ⟨_, rfl, by decide⟩
  · rcases (by omega : j = 0 ∨ j = 1) with rfl | rfl
    · exact ⟨_, rfl, fun c h => by cases c <;> revert h <;> decide⟩
    · exact ⟨_, rfl, fun c h => by cases c <;> revert h <;> decide⟩

/-- A machine that meets the invariant and steps; the premise on the collaborator holds of every state
that hands nothing over (and nothing is known of an answer, so a state that does is no witness). -/
theorem witness_StepKeepsInvariant :
    ∃ t, nopState.Inv ∧ nopState.HostKeepsPcAligned ∧ step nopState = .next t := by
  refine ⟨_, nopState_inv, fun h => ?_, rfl⟩
  exact absurd h (by decide)

/-- A debugger's session: a write that fails, a register set, a step, an inspection. -/
def debugSession : List HostMove :=
  [.change (.write 0x87FFFFFE 4 7), .change (.setRegister 5 9), .step, .inspect (.getRegister 5)]

/-- R43, R105, R106: the failed write answers MemoryFault and the session goes on. -/
theorem test_session_replies :
    (match nopState.session debugSession with
      | .next (replies, t) => (replies, t.getReg 5, t.pc)
      | _ => ([], 0, 0)) =
    ([.memoryFault, .done, .status .running, .word 9], 9, 0x80100004) := by decide

/-- R102, R310: a trapped engine stays trapped whatever the host sets, and evaluate still answers. -/
theorem test_session_trapped :
    (match ecallState.session [.step, .change (.setPC 0x80100010), .step, .inspect (.evaluate (bytesOf "$pc")), .inspect .report] with
      | .next (replies, _) => replies
      | _ => []) =
    [.status (.trapped .ecall), .done, .status (.trapped .ecall), .value (.ok 0x80100010),
      .report (.trapped .ecall) 0 0] := by decide

theorem witness_HostCallsKeepInvariant :
    (∃ t, nopState.Inv ∧ nopState.hostCalls [.setRegister 2 5, .setPC 0x80100004, .write 0x80000000 4 7] = .next t) ∧
    (0x80100002#32).toNat % 4 ≠ 0 ∧ (0x80100004#32).toNat % 4 = 0 ∧ 3 ∉ [1, 2, 4] ∧
    4 ∈ [1, 2, 4] ∧ ¬ InRegion nopState 0x87FFFFFD 4 := ⟨⟨_, nopState_inv, rfl⟩, by decide⟩

/-- The premise on the collaborator holds of every state the session passes. -/
theorem witness_HostCallsKeepInvariant_session :
    (∀ (k : Nat) (rs : List HostReply) (u : State),
      nopState.session (debugSession.take k) = .next (rs, u) → u.HostKeepsPcAligned) ∧
    ∃ rs t, nopState.session debugSession = .next (rs, t) := by
  refine ⟨fun k rs u h => ?_, _, _, rfl⟩
  rcases (by omega : k = 0 ∨ k = 1 ∨ k = 2 ∨ k = 3 ∨ 4 ≤ k) with rfl | rfl | rfl | rfl | hk
  · cases h; exact fun hh => absurd hh (by decide)
  · cases h; exact fun hh => absurd hh (by decide)
  · cases h; exact fun hh => absurd hh (by decide)
  · cases h; exact fun hh => absurd hh (by decide)
  · rw [List.take_of_length_le (by exact hk)] at h
    cases h; exact fun hh => absurd hh (by decide)

theorem witness_LoadingPlacesTheImage :
    nopState.cfg.wf = true ∧ Memory.wf nopState.mem ∧ InRegion nopState 0x87FFFFFE ([1, 2] : List Byte).length := by decide

/-- One step that traps and one that halts. -/
theorem witness_StoppingStepIsPrecise :
    (ecallState.status = .running ∧ ¬ ecallState.handsOver ∧ (stepNext ecallState).status = .trapped .ecall) ∧
    ((withRegs 0 0 0x00100073).status = .running ∧ ¬ (withRegs 0 0 0x00100073).handsOver ∧
      (stepNext (withRegs 0 0 0x00100073)).status = .halted) := by decide

theorem witness_PcAdvancesByRule :
    (nopState.fetch = .run (.addi 0 0 0) ∧ ¬ nopState.handsOver ∧ (stepNext nopState).status = .running) ∧
    (ecallState.fetch = .run .ecall ∧ ¬ ecallState.handsOver ∧ (stepNext ecallState).status ≠ .running) := by decide

/-- The premises of the two frames: an instruction that runs, one that traps, one that stores. -/
theorem witness_frames :
    (∃ t, exec (.lw 5 6 0) (withRegs 0 0 0x13) = .next t ∧ t.status ≠ (withRegs 0 0 0x13).status ∧
      dest (.lw 5 6 0) ≠ some 6 ∧ storedBytes (withRegs 0 0 0x13) (.lw 5 6 0) = none) ∧
    (∃ t, exec (.sh 6 7 0) (withRegs 0x80000000 1 0x13) = .next t ∧
      storedBytes (withRegs 0x80000000 1 0x13) (.sh 6 7 0) = some (0x80000000, 2)) ∧
    (∃ t, exec .ecall ecallState = .next t ∧ ecallState.cfg.ecallHostGiven = false) :=
  ⟨⟨_, rfl, by decide, by decide, by decide⟩, ⟨_, rfl, by decide⟩, ⟨_, rfl, by decide⟩⟩

theorem witness_ReportRegistersWrittenOnlyAtTheEnd :
    (stepNext (start defaults [(10, 42)] [] 0x00100073)).exitCode ≠ (start defaults [(10, 42)] [] 0x00100073).exitCode ∧
    ¬ (start defaults [(10, 42)] [] 0x00100073).handsOver ∧
    (stepNext (withRegs 0 0 0x30200073)).trapValue ≠ (withRegs 0 0 0x30200073).trapValue ∧
    ¬ (withRegs 0 0 0x30200073).handsOver := by decide

/-- The counter moves in the step that hands over. -/
theorem witness_ParametersNeverChange :
    ∃ t, step handState = .next t ∧ t.hostDraws ≠ handState.hostDraws :=
  ⟨_, rfl, by decide⟩

theorem witness_EachInstructionRaisesOneKind :
    (∃ t, exec (.jal 1 6) nopState = .next t ∧ nopState.status = .running ∧ t.status = .trapped .misalignedPc) ∧
    (∃ t, exec (.lw 5 6 0) nopState = .next t ∧ t.status = .trapped .memFault) ∧
    (∃ t, exec .ecall ecallState = .next t ∧ ecallState.cfg.ecallHostGiven = false ∧ t.status = .trapped .ecall) ∧
    (∃ t, exec .ebreak nopState = .next t ∧ t.status = .halted) :=
  ⟨⟨_, rfl, by decide, by decide⟩, ⟨_, rfl, by decide⟩, ⟨_, rfl, by decide, by decide⟩, ⟨_, rfl, by decide⟩⟩

theorem witness_CallAndTailReachTheirTarget : (0x80000000#32).toNat % 4 = 0 ∧ (0xFFFFFFFC#32).toNat % 4 = 0 := by decide

/-- A text, a lexeme of each class of tags with a text after it that does not lengthen it, and its end. -/
theorem witness_TokensAreTheText :
    tokenize (bytesOf " 1 +$a0") = .ok [⟨.dec, bytesOf "1"⟩, ⟨.plus, bytesOf "+"⟩, ⟨.reg, bytesOf "$a0"⟩] ∧
    tokenize (bytesOf "$a0") = .ok [⟨.reg, bytesOf "$a0"⟩] ∧
    TokenTag.isFor .dec (bytesOf "0") ∧ TokenTag.isFor .hex (bytesOf "0x1F") ∧
    TokenTag.isFor .reg (bytesOf "$pc") ∧ TokenTag.isFor .and (bytesOf "&&") ∧
    (∀ b ∈ (bytesOf "$a0").head?, b ∉ bytesOf (TokenTag.moreChars .hex)) ∧
    (∀ b ∈ (bytesOf "$a0").head?, b ∉ bytesOf (TokenTag.moreChars .reg)) :=
  ⟨by decide, by decide, ⟨by decide, by decide⟩, ⟨bytesOf "1F", ⟨by decide, by decide⟩, by decide⟩,
    ⟨bytesOf "pc", ⟨by decide, by decide⟩, by decide⟩, rfl, by decide, by decide⟩

theorem witness_LexErrorOffsetIsInsideTheText : tokenize (bytesOf "12ab") = .error (.lexError 2) := by decide

theorem numeral_1aF : isNumeral 16 [1, 10, 15] (bytesOf "1aF") := by
  refine ⟨by decide, ?_⟩
  repeat first | exact List.Forall₂.nil | refine List.Forall₂.cons (by decide) ?_

theorem numeral_ones (n : Nat) (base : Nat) (h : 1 < base) :
    List.Forall₂ (fun d b => d < base ∧ ((bytesOf lowerDigits)[d]? = some b ∨ (bytesOf upperDigits)[d]? = some b))
      (List.replicate n 1) (List.replicate n 0x31#8) := by
  induction n with
  | zero => exact .nil
  | succ n ih => exact .cons ⟨h, .inl (by decide)⟩ ih

/-- A literal of each base at its longest and one byte longer; names found, not found, and too long. -/
theorem witness_TerminalsAreOneTokenAndTheirValue :
    isNumeral 16 [1, 10, 15] (bytesOf "1aF") ∧
    isNumeral 16 (List.replicate 29 1) (List.replicate 29 0x31) ∧ isNumeral 16 (List.replicate 30 1) (List.replicate 30 0x31) ∧
    isNumeral 10 (List.replicate 31 1) (List.replicate 31 0x31) ∧ isNumeral 10 (List.replicate 32 1) (List.replicate 32 0x31) ∧
    madeOf nameChars (bytesOf "pc") ∧ madeOf nameChars (bytesOf "a0") ∧ registerIndexByName (bytesOf "a0") = some 10 ∧
    madeOf nameChars (bytesOf "A0") ∧ bytesOf "A0" ≠ bytesOf "pc" ∧ registerIndexByName (bytesOf "A0") = none ∧
    madeOf nameChars (List.replicate 30 0x61) ∧ madeOf nameChars (List.replicate 31 0x61) ∧
    TokenTag.plus ∉ [TokenTag.hex, .dec, .reg] :=
  ⟨numeral_1aF, ⟨by decide, numeral_ones 29 16 (by decide)⟩, ⟨by decide, numeral_ones 30 16 (by decide)⟩,
    ⟨by decide, numeral_ones 31 10 (by decide)⟩, ⟨by decide, numeral_ones 32 10 (by decide)⟩,
    ⟨by decide, by decide⟩, ⟨by decide, by decide⟩, by decide, ⟨by decide, by decide⟩, by decide, by decide,
    ⟨by decide, by decide⟩, ⟨by decide, by decide⟩, by decide⟩

theorem witness_ParenthesesChangeNothing :
    ∃ toks, tokenize (bytesOf "-(1+2)*3") = .ok toks ∧ toks ≠ [] ∧ balanced toks = true :=
  ⟨_, rfl, by decide, by decide⟩

/-- 10-2 - 3: an equal operator on the left, none on the right. -/
theorem witness_BinarySplitFollowsPrecedence :
    ([⟨.dec, bytesOf "10"⟩, ⟨.minus, bytesOf "-"⟩, ⟨.dec, bytesOf "2"⟩] : List Token) ≠ [] ∧
    balanced [⟨.dec, bytesOf "10"⟩, ⟨.minus, bytesOf "-"⟩, ⟨.dec, bytesOf "2"⟩] = true ∧
    balanced [⟨.dec, bytesOf "3"⟩] = true ∧ TokenTag.isBinary .minus = true ∧
    topPrec 0 [⟨.dec, bytesOf "10"⟩, ⟨.minus, bytesOf "-"⟩, ⟨.dec, bytesOf "2"⟩] ≤ TokenTag.prec .minus ∧
    topPrec 0 [⟨.dec, bytesOf "3"⟩] < TokenTag.prec .minus ∧ 3 + 1 + 1 ≤ 5 := by decide

/-- In `-2*-3` the first and the third operator are unary and the second is not. -/
def unaryText : List Token :=
  [⟨.minus, bytesOf "-"⟩, ⟨.dec, bytesOf "2"⟩, ⟨.star, bytesOf "*"⟩, ⟨.minus, bytesOf "-"⟩, ⟨.dec, bytesOf "3"⟩]

theorem witness_UnaryAppliesToTheRest :
    (tokenize (bytesOf "-2*-3") = .ok unaryText ∧ unaryText ≠ [] ∧ balanced unaryText = true) ∧
    (unaryPlace unaryText 0 ∧ ¬ unaryPlace unaryText 2 ∧ unaryPlace unaryText 3) ∧
    TokenTag.isUnary .neg = true ∧ balanced [⟨.neg, bytesOf "-"⟩, ⟨.dec, bytesOf "3"⟩] = true ∧
    topPrec 0 [⟨.neg, bytesOf "-"⟩, ⟨.dec, bytesOf "3"⟩] = 0 ∧ 1 + 2 ≤ 3 := by
  refine ⟨by decide, ⟨.inl rfl, ?_, .inr ⟨_, rfl, by decide⟩⟩, by decide⟩
  rintro (h | ⟨p, hp, hm⟩)
  · exact absurd h (by decide)
  · cases hp; exact absurd hm (by decide)

theorem witness_EvaluatorArithmetic :
    (0x80000000#32).toInt = -2147483648 ∧ (0xFFFFFFFF#32).toInt = -1 ∧ (0xFFFFFFFF#32) ≠ 0 ∧
    ¬ ((7#32).toInt = -2147483648 ∧ (0xFFFFFFFE#32).toInt = -1) := by decide

theorem witness_DereferenceReadsAWord : InRegion evalState 0x80001001 4 ∧ ¬ InRegion evalState 0x87FFFFFD 4 := by decide

/-- Two states that agree on registers, pc and memory, and differ in the rest. -/
theorem witness_EvaluateReadsOnlyRegistersPcAndMemory :
    SameRegisters evalState { evalState with status := .halted, exitCode := 7 } ∧
    SameBytes evalState { evalState with status := .halted, exitCode := 7 } := ⟨fun _ => rfl, fun _ => rfl⟩

theorem witness_EarlyFailuresInOrder :
    tokenize (bytesOf "a0") = .error (.lexError 0) ∧ tokenize (bytesOf "  ") = .ok [] ∧
    (∃ toks, tokenize (bytesOf ")(") = .ok toks ∧ balanced toks = false) := ⟨by decide, by decide, _, rfl, by decide⟩

end Sys2Proof.Tests
end

section
/-! PROOFS. Proofs/Scope.lean: the parameters of spec/00_scope.md R8: legal and in place at reset, and
kept, with the model's counter of answers, by every step but a hand-over. -/

namespace Sys2Proof.Machine

/-! ### Reset (R34) -/

theorem suggested_wf : Config.Params.suggested.wf = true := by decide

theorem resetPc_aligned : Config.resetPc.toNat % 4 = 0 := by decide

theorem reset_pcInRegion : InRegion State.reset State.reset.pc 4 := by decide

theorem reset_inv : State.reset.Inv where
  cfgLegal := suggested_wf
  memCanonical := ⟨.nil, fun _ hc => nomatch hc⟩
  memInRegion := fun _ hc => nomatch hc
  pcAligned := resetPc_aligned

theorem reset_bootReady : State.reset.BootReady where
  running := State.reset_status
  pcAligned := resetPc_aligned
  pcInRegion := reset_pcInRegion

/-- Settles O3: the two parts, each with its fields checked at the values of the log. -/
theorem resetMeetsInvariant : Obligations.ResetMeetsInvariant :=
  ⟨reset_inv, reset_bootReady⟩

/-! ### The parameters and the counter in a step -/

@[simp] theorem State.handOver_cfg (s : State) : s.handOver.cfg = s.cfg := rfl

@[simp] theorem State.handOver_hostDraws (s : State) : s.handOver.hostDraws = s.hostDraws + 1 := rfl

theorem SameModel.refl (s : State) : SameModel s s := ⟨rfl, rfl⟩

theorem raise_sameModel (s : State) (c : TrapCode) (v : Word) : SameModel s (s.raise c v) :=
  (raise_effect s c v).model

/-- Only the hand-over of an ECALL touches the model's own fields. -/
theorem ExecCase.sameModel_or_handOver {i : Instr} {s t : State} (h : ExecCase i s t) :
    SameModel s t ∨ (i = .ecall ∧ s.cfg.ecallHostGiven = true ∧ t = s.handOver) := by
  cases h with
  | wrote rd v _ _ ht => exact .inl (ht ▸ (setReg_jumpTo_effect s rd v _).model)
  | linked rd _ _ ht => exact .inl (ht ▸ (setReg_jumpTo_effect s rd _ _).model)
  | jumped _ _ ht => exact .inl (ht ▸ (jumpTo_effect s _).model)
  | fell _ _ ht => exact .inl (ht ▸ (jumpTo_effect s _).model)
  | stored a w v _ _ _ _ ht => exact .inl (ht ▸ ⟨rfl, rfl⟩)
  | halted ht => exact .inl (ht ▸ (halt_effect s _).model)
  | trapped c v ht => exact .inl (ht ▸ raise_sameModel s c v)
  | handed hi hh ht => exact .inr ⟨hi, hh, ht⟩

theorem step_sameModel_or_handOver {s t : State} (h : step s = .next t) :
    SameModel s t ∨ (s.handsOver ∧ t = s.handOver) := by
  cases step_cases h with
  | stopped _ ht => exact .inl (ht ▸ .refl s)
  | fetchFault _ _ ht => exact .inl (ht ▸ raise_sameModel s _ _)
  | illegal w _ _ ht => exact .inl (ht ▸ raise_sameModel s _ w)
  | ran i _ hf hc =>
    rcases hc.sameModel_or_handOver with hm | ⟨hi, hh, ht⟩
    · exact .inl hm
    · exact .inr ⟨⟨hi ▸ hf, hh⟩, ht⟩

/-- Settles O46: a step keeps the parameters and the counter, or hands an ECALL over. -/
theorem parametersNeverChange : Obligations.ParametersNeverChange := by
  intro s t h
  rcases step_sameModel_or_handOver h with ⟨hcfg, hdraws⟩ | ⟨hh, rfl⟩
  · exact ⟨hcfg, fun hne => absurd hdraws hne⟩
  · exact ⟨State.handOver_cfg s, fun _ => ⟨hh, State.handOver_hostDraws s⟩⟩

end Sys2Proof.Machine
end

section
/-! PROOFS. Proofs/State.lean: the state of spec/10_state.md: register access, creation, the register
names, what a step may write of the registers and of the report, and the invariant, kept by every step
and every move of the host. -/

namespace Sys2Proof.Machine

/-! ### Effects that change nothing, one after the other -/

theorem SameReport.refl (s : State) : SameReport s s := ⟨rfl, rfl, rfl⟩

theorem SameReport.trans {s t u : State} (hst : SameReport s t) (htu : SameReport t u) : SameReport s u :=
  ⟨htu.1.trans hst.1, htu.2.1.trans hst.2.1, htu.2.2.trans hst.2.2⟩

theorem SameModel.trans {s t u : State} (hst : SameModel s t) (htu : SameModel t u) : SameModel s u :=
  ⟨htu.1.trans hst.1, htu.2.trans hst.2⟩

/-- A register write alone: x[rd] := v, the pc where it was, and nothing else. -/
theorem setReg_effect (s : State) (rd : Reg) (v : Word) : RegisterEffect s (s.setReg rd v) rd v s.pc where
  zero := State.getReg_zero _
  written := fun hrd => State.getReg_setReg_same s hrd v
  others := fun _ hr => State.getReg_setReg_other s hr v
  pc := State.setReg_pc s rd v
  bytes := .of_mem (State.setReg_mem s rd v)
  report := ⟨State.setReg_status s rd v, State.setReg_exitCode s rd v, State.setReg_trapValue s rd v⟩
  model := ⟨State.setReg_cfg s rd v, State.setReg_hostDraws s rd v⟩

/-! ### The invariant, operation by operation -/

theorem add_four_aligned {a : Word} (h : a.toNat % 4 = 0) : (a + 4#32).toNat % 4 = 0 := by
  rw [BitVec.toNat_add, BitVec.toNat_ofNat]
  omega

/-- The invariant speaks of the parameters, the memory and the pc alone. -/
theorem State.Inv.congr {s t : State} (hs : s.Inv) (hcfg : t.cfg = s.cfg) (hmem : t.mem = s.mem)
    (hpc : t.pc.toNat % 4 = 0) : t.Inv where
  cfgLegal := hcfg ▸ hs.cfgLegal
  memCanonical := hmem ▸ hs.memCanonical
  memInRegion := by rw [hcfg, hmem]; exact hs.memInRegion
  pcAligned := hpc

theorem State.Inv.setReg {s : State} (hs : s.Inv) (r : Reg) (v : Word) : (s.setReg r v).Inv :=
  hs.congr (State.setReg_cfg s r v) (State.setReg_mem s r v) (by rw [State.setReg_pc]; exact hs.pcAligned)

theorem State.Inv.jumpTo {s : State} (hs : s.Inv) {t : Word} (ht : t.toNat % 4 = 0) : (s.jumpTo t).Inv :=
  hs.congr rfl rfl ht

theorem State.Inv.advance {s : State} (hs : s.Inv) : s.advance.Inv :=
  hs.jumpTo (add_four_aligned hs.pcAligned)

theorem State.Inv.raise {s : State} (hs : s.Inv) (c : TrapCode) (v : Word) : (s.raise c v).Inv :=
  hs.congr rfl rfl hs.pcAligned

theorem State.Inv.halt {s : State} (hs : s.Inv) (code : Word) : (s.halt code).Inv :=
  hs.congr rfl rfl hs.pcAligned

/-- Bytes stored inside the region keep the list canonical and inside the region (R40, R43). -/
theorem State.Inv.writeBytes {s : State} (hs : s.Inv) {a : Word} {n : Nat} (v : Word) (hr : InRegion s a n) :
    State.Inv { s with mem := Memory.writeBytes s.mem a.toNat v n } where
  cfgLegal := hs.cfgLegal
  memCanonical := Memory.wf_writeBytes hs.memCanonical a.toNat v n
  memInRegion := Memory.within_writeBytes hs.memInRegion v hr
  pcAligned := hs.pcAligned

/-- The collaborator's stores outside the region are no stores, so only its pc could break the
invariant (log 6, 13). -/
theorem State.Inv.handOver {s : State} (hs : s.Inv)
    (hpc : (Config.ecallHost s.hostDraws s).pc.toNat % 4 = 0) : s.handOver.Inv where
  cfgLegal := hs.cfgLegal
  memCanonical := Memory.wf_storeAll s.cfg hs.memCanonical _
  memInRegion := Memory.within_storeAll s.cfg hs.memInRegion _
  pcAligned := hpc

/-! ### The invariant in a step -/

theorem ExecCase.inv {i : Instr} {s t : State} (h : ExecCase i s t) (hs : s.Inv)
    (hpc : i = .ecall → s.cfg.ecallHostGiven = true → (Config.ecallHost s.hostDraws s).pc.toNat % 4 = 0) :
    t.Inv := by
  cases h with
  | wrote rd v _ _ ht => exact ht ▸ (hs.setReg rd v).advance
  | linked rd _ ha ht => exact ht ▸ (hs.setReg rd _).jumpTo ha
  | jumped _ ha ht => exact ht ▸ hs.jumpTo ha
  | fell _ _ ht => exact ht ▸ hs.advance
  | stored a w v _ _ _ hr ht => exact ht ▸ (hs.writeBytes v hr).advance
  | halted ht => exact ht ▸ hs.halt _
  | trapped c v ht => exact ht ▸ hs.raise c v
  | handed hi hh ht => exact ht ▸ hs.handOver (hpc hi hh)

/-- Settles O38: case by case of a step, each by what its operation does to the invariant. -/
theorem stepKeepsInvariant : Obligations.StepKeepsInvariant := by
  intro s t hs hhost h
  cases step_cases h with
  | stopped _ ht => exact ht ▸ hs
  | fetchFault _ _ ht => exact ht ▸ hs.raise _ _
  | illegal w _ _ ht => exact ht ▸ hs.raise _ w
  | ran i _ hf hc => exact hc.inv hs fun hi hh => hhost ⟨hi ▸ hf, hh⟩

/-! ### The host's calls -/

/-- Everything a call that succeeds can do (R105). -/
theorem hostCall_cases {s t : State} {c : HostCall} (h : s.hostCall c = .next t) :
    (∃ r v, t = s.setReg r v) ∨ (∃ v : Word, v.toNat % 4 = 0 ∧ t = s.jumpTo v) ∨
    (∃ a v n, InRegion s a n ∧ t = { s with mem := Memory.writeBytes s.mem a.toNat v n }) := by
  cases c with
  | setRegister i v =>
    simp only [State.hostCall, State.setRegister] at h
    split at h
    · injection h with h; exact .inl ⟨_, v, h.symm⟩
    · nomatch h
  | setPC v =>
    simp only [State.hostCall, State.setPC] at h
    split at h
    · rename_i ha; injection h with h; exact .inr (.inl ⟨v, (aligned4_iff v).mp ha, h.symm⟩)
    · nomatch h
  | write a n v =>
    cases hw : widthOfBytes n with
    | none => simp [State.hostCall, State.write, hw] at h
    | some w =>
      by_cases hr : InRegion s a w.bytes
      · simp only [State.hostCall, State.write, hw, memWrite_of_inRegion v hr, Host.Outcome.next.injEq] at h
        exact .inr (.inr ⟨a, v, w.bytes, hr, h.symm⟩)
      · rw [hostCall_of_not_inRegion hw hr] at h
        nomatch h

theorem hostCall_keeps {s t : State} {c : HostCall} (hs : s.Inv) (h : s.hostCall c = .next t) :
    t.Inv ∧ SameModel s t ∧ SameReport s t := by
  rcases hostCall_cases h with ⟨r, v, rfl⟩ | ⟨v, hv, rfl⟩ | ⟨a, v, n, hr, rfl⟩
  · exact ⟨hs.setReg r v, (setReg_effect s r v).model, (setReg_effect s r v).report⟩
  · exact ⟨hs.jumpTo hv, (jumpTo_effect s v).model, (jumpTo_effect s v).report⟩
  · exact ⟨hs.writeBytes v hr, ⟨rfl, rfl⟩, ⟨rfl, rfl, rfl⟩⟩

/-- Calls that all succeed: the first, then the rest from where it leads. -/
theorem hostCalls_cons_cases {s t : State} {c : HostCall} {cs : List HostCall}
    (h : s.hostCalls (c :: cs) = .next t) : ∃ u, s.hostCall c = .next u ∧ u.hostCalls cs = .next t := by
  cases hc : s.hostCall c with
  | next u => rw [State.hostCalls, hc] at h; exact ⟨u, rfl, h⟩
  | fault r => simp [State.hostCalls, hc] at h
  | refused r => simp [State.hostCalls, hc] at h

theorem hostCalls_keep {s t : State} {cs : List HostCall} (hs : s.Inv) (h : s.hostCalls cs = .next t) :
    t.Inv ∧ SameModel s t ∧ SameReport s t := by
  induction cs generalizing s with
  | nil =>
    injection h with h
    exact h ▸ ⟨hs, .refl s, .refl s⟩
  | cons c cs ih =>
    obtain ⟨u, hc, hcs⟩ := hostCalls_cons_cases h
    obtain ⟨hu, hmodel, hreport⟩ := hostCall_keeps hs hc
    obtain ⟨ht, hmodel', hreport'⟩ := ih hu hcs
    exact ⟨ht, hmodel.trans hmodel', hreport.trans hreport'⟩

theorem setPC_of_aligned (s : State) {v : Word} (hv : v.toNat % 4 = 0) : s.setPC v = .next (s.jumpTo v) :=
  if_pos ((aligned4_iff v).mpr hv)

theorem setPC_of_misaligned (s : State) {v : Word} (hv : v.toNat % 4 ≠ 0) :
    s.setPC v = .refused (.misalignedSetPC v) :=
  if_neg (mt (aligned4_iff v).mp hv)

/-- A write out of the region, as the host's move: MemoryFault, and the state as it was (R43). -/
theorem serve_write_of_not_inRegion {s : State} {a : Word} {n : Nat} (v : Word) (hn : n ∈ [1, 2, 4])
    (h : ¬ InRegion s a n) : s.serve (.change (.write a n v)) = .next (.memoryFault, s) := by
  obtain ⟨w, hw, rfl⟩ := widthOfBytes_some hn
  simp only [State.serve, hostCall_of_not_inRegion hw h]

/-! ### The invariant in a session -/

theorem serve_inv {s t : State} {m : HostMove} {reply : HostReply} (hs : s.Inv) (hhost : s.HostKeepsPcAligned)
    (h : s.serve m = .next (reply, t)) : t.Inv := by
  rcases serve_cases h with ⟨-, hstep, -⟩ | ⟨c, -, hc, -⟩ | ⟨c, r, -, -, -, rfl⟩ | ⟨q, -, -, rfl⟩
  · exact stepKeepsInvariant s t hs hhost hstep
  · exact (hostCall_keeps hs hc).1
  · exact hs
  · exact hs

theorem session_inv {s t : State} {moves : List HostMove} {replies : List HostReply} (hs : s.Inv)
    (hhost : ∀ (k : Nat) (rs : List HostReply) (u : State),
      s.session (moves.take k) = .next (rs, u) → u.HostKeepsPcAligned)
    (h : s.session moves = .next (replies, t)) : t.Inv := by
  induction moves generalizing s replies with
  | nil => cases h; exact hs
  | cons m ms ih =>
    obtain ⟨reply, u, rest, hm, hms, -⟩ := session_cons_cases h
    have hu : u.Inv := serve_inv hs (hhost 0 [] s rfl) hm
    exact ih hu (fun k rs v hv => hhost (k + 1) _ v (session_cons hm hv)) hms

/-- Settles O39: the calls one by one, and the session by induction on its moves. -/
theorem hostCallsKeepInvariant : Obligations.HostCallsKeepInvariant := by
  refine ⟨fun s t cs => hostCalls_keep, fun s v => ⟨fun hv => ?_, setPC_of_misaligned s⟩,
    fun s a v n hn => ?_, fun s a v n => serve_write_of_not_inRegion v, fun s t moves replies => session_inv⟩
  · exact ⟨_, setPC_of_aligned s hv, jumpTo_effect s v⟩
  · simp only [State.read, State.write, widthOfBytes_none hn, and_self]

/-! ### What an instruction writes of the registers (R23, R107) -/

/-- Apart from a hand-over, an instruction writes no register, or it writes its destination and goes on. -/
theorem ExecCase.registers {i : Instr} {s t : State} (h : ExecCase i s t)
    (hno : i = .ecall → s.cfg.ecallHostGiven = false) :
    SameRegisters s t ∨
      (t.status = s.status ∧ ∃ rd, dest i = some rd ∧ ∀ r, r ≠ rd → t.getReg r = s.getReg r) := by
  cases h with
  | wrote rd v hd _ ht =>
    have he := setReg_jumpTo_effect s rd v ((s.setReg rd v).pc + 4#32)
    exact .inr (ht ▸ ⟨he.report.1, rd, hd, he.others⟩)
  | linked rd hd _ ht =>
    have he := setReg_jumpTo_effect s rd (s.pc + 4) (nextPc s i)
    exact .inr (ht ▸ ⟨he.report.1, rd, hd, he.others⟩)
  | jumped _ _ ht => exact .inl (ht ▸ (jumpTo_effect s _).regs)
  | fell _ _ ht => exact .inl (ht ▸ (jumpTo_effect s _).regs)
  | stored a w v _ _ _ _ ht => exact .inl (ht ▸ .of_gpr rfl)
  | halted ht => exact .inl (ht ▸ (halt_effect s _).regs)
  | trapped c v ht => exact .inl (ht ▸ (raise_effect s c v).regs)
  | handed hi hh _ => exact absurd hh (by simp [hno hi])

/-- Settles O43: an instruction that writes a register writes its destination and keeps the status. -/
theorem atMostOneRegisterWritten : Obligations.AtMostOneRegisterWritten := by
  intro i s t h hno
  rcases (exec_cases h).registers hno with hsame | ⟨hstatus, rd, hd, hothers⟩
  · exact ⟨fun r _ => hsame r, fun _ => hsame⟩
  · exact ⟨fun r hr => hothers r fun e => hr (e ▸ hd), fun hne => absurd hstatus hne⟩

/-! ### The report (R29, R30) -/

/-- The four ways an instruction treats the report: it keeps it, halts, traps, or is handed over. -/
theorem ExecCase.report {i : Instr} {s t : State} (h : ExecCase i s t) :
    SameReport s t ∨ t = s.halt (s.getReg Config.exitReg) ∨ (∃ c v, t = s.raise c v) ∨
      (i = .ecall ∧ s.cfg.ecallHostGiven = true) := by
  cases h with
  | wrote rd v _ _ ht => exact .inl (ht ▸ (setReg_jumpTo_effect s rd v _).report)
  | linked rd _ _ ht => exact .inl (ht ▸ (setReg_jumpTo_effect s rd _ _).report)
  | jumped _ _ ht => exact .inl (ht ▸ (jumpTo_effect s _).report)
  | fell _ _ ht => exact .inl (ht ▸ (jumpTo_effect s _).report)
  | stored a w v _ _ _ _ ht => exact .inl (ht ▸ ⟨rfl, rfl, rfl⟩)
  | halted ht => exact .inr (.inl ht)
  | trapped c v ht => exact .inr (.inr (.inl ⟨c, v, ht⟩))
  | handed hi hh _ => exact .inr (.inr (.inr ⟨hi, hh⟩))

/-- Apart from a hand-over, a step keeps the report, or a running engine halts or traps. -/
theorem step_report {s t : State} (h : step s = .next t) (hno : ¬ s.handsOver) :
    SameReport s t ∨
      (s.status = .running ∧ (t = s.halt (s.getReg Config.exitReg) ∨ ∃ c v, t = s.raise c v)) := by
  cases step_cases h with
  | stopped _ ht => exact .inl (ht ▸ .refl s)
  | fetchFault hrun _ ht => exact .inr ⟨hrun, .inr ⟨_, _, ht⟩⟩
  | illegal w hrun _ ht => exact .inr ⟨hrun, .inr ⟨_, w, ht⟩⟩
  | ran i hrun hf hc =>
    rcases hc.report with hsame | hhalt | htrap | ⟨hi, hh⟩
    · exact .inl hsame
    · exact .inr ⟨hrun, .inl hhalt⟩
    · exact .inr ⟨hrun, .inr htrap⟩
    · exact absurd ⟨hi ▸ hf, hh⟩ hno

/-- Settles O45: the report kept, a halt or a trap, and what each of the three leaves in it. -/
theorem reportRegistersWrittenOnlyAtTheEnd : Obligations.ReportRegistersWrittenOnlyAtTheEnd := by
  intro s t hno h
  rcases step_report h hno with ⟨hstatus, hexit, htrap⟩ | ⟨hrun, rfl | ⟨c, v, rfl⟩⟩
  · refine ⟨fun hne => absurd hexit hne, fun hrun hhalt => ?_, fun hne => absurd htrap hne⟩
    rw [hstatus, hrun] at hhalt
    nomatch hhalt
  · exact ⟨fun _ => ⟨rfl, rfl⟩, fun _ _ => rfl, fun hne => absurd rfl hne⟩
  · exact ⟨fun hne => absurd rfl hne, nofun, fun _ => ⟨hrun, c, rfl⟩⟩

/-! ### Register names (R35) -/

/-- No name stands for two registers: the lookup of every listed name gives the index it is listed with. -/
theorem registerIndexByName_of_listed :
    ∀ p ∈ registerNames, registerIndexByName p.1 = some p.2 := by
  decide

theorem registerIndexByName_eq_some_iff (name : List Byte) (r : Reg) :
    registerIndexByName name = some r ↔ (name, r) ∈ registerNames := by
  refine ⟨fun h => ?_, registerIndexByName_of_listed (name, r)⟩
  obtain ⟨⟨key, q⟩, hfind, rfl⟩ := Option.map_eq_some_iff.mp h
  obtain rfl : key = name := by simpa using List.find?_some hfind
  exact List.mem_of_find?_eq_some hfind

theorem mem_numericNames_iff (name : List Byte) (r : Reg) :
    (name, r) ∈ (List.range 32).map (fun i => (bytesOf (numericName i), BitVec.ofNat 5 i)) ↔
      name = bytesOf (numericName r.toNat) := by
  rw [List.mem_map]
  constructor
  · rintro ⟨i, hi, he⟩
    obtain ⟨rfl, rfl⟩ := Prod.mk.inj he
    rw [BitVec.toNat_ofNat, Nat.mod_eq_of_lt (List.mem_range.mp hi)]
  · rintro rfl
    exact ⟨r.toNat, List.mem_range.mpr r.isLt, by rw [BitVec.ofNat_toNat, BitVec.setWidth_eq]⟩

theorem mem_abiNames_iff (name : List Byte) (r : Reg) :
    (name, r) ∈ abiNames.zipIdx.map (fun p => (bytesOf p.1, BitVec.ofNat 5 p.2)) ↔
      ∃ abi, abiNames[r.toNat]? = some abi ∧ name = bytesOf abi := by
  rw [List.mem_map]
  constructor
  · rintro ⟨⟨abi, i⟩, hmem, he⟩
    obtain ⟨rfl, rfl⟩ := Prod.mk.inj he
    have hget : abiNames[i]? = some abi := List.mk_mem_zipIdx_iff_getElem?.mp hmem
    have hi : i < 32 := (List.getElem?_eq_some_iff.mp hget).1
    exact ⟨abi, by rw [BitVec.toNat_ofNat, Nat.mod_eq_of_lt hi]; exact hget, rfl⟩
  · rintro ⟨abi, hget, rfl⟩
    exact ⟨(abi, r.toNat), List.mk_mem_zipIdx_iff_getElem?.mpr hget, by rw [BitVec.ofNat_toNat, BitVec.setWidth_eq]⟩

/-- Settles O48: to be found is to be listed, and the list is the three parts of R35. -/
theorem registerNamesAreTheListedOnes : Obligations.RegisterNamesAreTheListedOnes := by
  refine ⟨fun name r => ?_, by decide⟩
  rw [registerIndexByName_eq_some_iff, registerNames, List.mem_append, List.mem_append, mem_numericNames_iff,
    mem_abiNames_iff, or_assoc]
  simp

/-! ### The host's register access (R21, R22) -/

theorem setRegister_of_lt (s : State) {i : Nat} (hi : i < 32) (v : Word) :
    s.setRegister i v = .next (s.setReg (BitVec.ofNat 5 i) v) := if_pos hi

theorem getRegister_of_lt (s : State) {i : Nat} (hi : i < 32) :
    s.getRegister i = .next (s.getReg (BitVec.ofNat 5 i)) := if_pos hi

theorem setRegister_of_ge (s : State) {i : Nat} (hi : 32 ≤ i) (v : Word) :
    s.setRegister i v = .refused (.registerIndex i) := if_neg (Nat.not_lt.mpr hi)

theorem getRegister_of_ge (s : State) {i : Nat} (hi : 32 ≤ i) :
    s.getRegister i = .refused (.registerIndex i) := if_neg (Nat.not_lt.mpr hi)

/-- x0 reads 0 in every state. -/
theorem getRegister_zero (s : State) : s.getRegister 0 = .next 0 := rfl

theorem Reg.ofNat_ne {i j : Nat} (hi : i < 32) (hj : j < 32) (h : j ≠ i) :
    BitVec.ofNat 5 j ≠ BitVec.ofNat 5 i := fun e => by
  have ht := congrArg BitVec.toNat e
  rw [BitVec.toNat_ofNat, BitVec.toNat_ofNat] at ht
  omega

/-- Settles O1: a call inside 0..31 is a register write or read, and x0 is no stored register. -/
theorem hostRegisterAccess : Obligations.HostRegisterAccess := by
  intro s i v
  refine ⟨fun hi => ?_, getRegister_zero s, fun hi => ⟨setRegister_of_ge s hi v, getRegister_of_ge s hi⟩⟩
  have he := setReg_effect s (BitVec.ofNat 5 i) v
  refine ⟨_, setRegister_of_lt s hi v, getRegister_zero _, fun h0 => ?_, fun j hj hne => ?_,
    he.pc, he.bytes, he.report, he.model⟩
  · rw [getRegister_of_lt _ hi, he.written (Reg.ofNat_ne (by decide) hi h0)]
  · rw [getRegister_of_lt _ hj, getRegister_of_lt _ hj, he.others _ (Reg.ofNat_ne hi hj hne)]

/-! ### Creation (R34) -/

/-- x(k+1) is stored at index k (R20). -/
theorem State.getReg_ofNat_succ (s : State) {k : Nat} (hk : k < 31) :
    s.getReg (BitVec.ofNat 5 (k + 1)) = s.gpr[k] := by
  have hne : BitVec.ofNat 5 (k + 1) ≠ 0#5 := Reg.ofNat_ne (by decide) (by omega) (by omega)
  simp only [State.getReg, if_neg hne, BitVec.toNat_ofNat, Nat.mod_eq_of_lt (show k + 1 < 2 ^ 5 by omega),
    Nat.add_sub_cancel]

/-- Settles O2: creation fills the stored fields, and x0 is not stored. -/
theorem creationSetsEveryField : Obligations.CreationSetsEveryField := fun _ _ _ _ =>
  ⟨State.getReg_zero _, fun _ hk => State.getReg_ofNat_succ _ hk, rfl, rfl, rfl, rfl, rfl⟩

end Sys2Proof.Machine
end

section
/-! PROOFS. Proofs/Memory.lean: the memory of spec/20_memory.md: the ports, reads and writes of any widths
together, the fetch, and the bytes an instruction leaves alone. -/

namespace Sys2Proof.Machine

/-! ### The region (R41) -/

/-- The first and the last byte of an access decide where the whole access lies. -/
theorem access_within_iff_forall_byte {lo hi a n : Nat} (hn : 1 ≤ n) :
    (lo ≤ a ∧ a + n ≤ hi) ↔ ∀ k, k < n → lo ≤ a + k ∧ a + k < hi := by
  constructor
  · rintro ⟨hlo, hhi⟩ k hk
    exact ⟨by omega, by omega⟩
  · intro h
    obtain ⟨hfirst, -⟩ := h 0 (by omega)
    obtain ⟨-, hlast⟩ := h (n - 1) (by omega)
    exact ⟨by omega, by omega⟩

/-- Settles O4: the interval of an access against its bytes, and the failure of either port. -/
theorem inRangeIsEveryByteInRegion : Obligations.InRangeIsEveryByteInRegion := by
  refine ⟨fun p a n hn => (inRange_iff p a n).trans (access_within_iff_forall_byte hn), fun s a w v h => ?_⟩
  have hout : ¬ InRegion s a w.bytes := fun hin => by simp [(inRange_iff_inRegion s a _).mpr hin] at h
  exact ⟨memRead_of_not_inRegion hout, memWrite_of_not_inRegion v hout⟩

/-- Legal parameters end the region at 2^32 or below (R8), so no access in it wraps. -/
theorem InRegion.toNat_add_le {s : State} {a : Word} {n : Nat} (h : InRegion s a n) (hcfg : s.cfg.wf = true) :
    a.toNat + n ≤ 2 ^ 32 := by
  simp only [Config.Params.wf, Bool.and_eq_true, decide_eq_true_eq] at hcfg
  exact Nat.le_trans h.2 hcfg.2

theorem toNat_add_ofNat {a : Word} {k : Nat} (h : a.toNat + k < 2 ^ 32) :
    (a + BitVec.ofNat 32 k).toNat = a.toNat + k := by
  rw [BitVec.toNat_add, BitVec.toNat_ofNat, Nat.add_mod_mod, Nat.mod_eq_of_lt h]

/-! ### The ports, inverted -/

theorem Width.bytes_pos (w : Width) : 0 < w.bytes := by cases w <;> decide

theorem Width.bytes_le (w : Width) : w.bytes ≤ 4 := by cases w <;> decide

theorem memRead_cases {s : State} {a v : Word} {w : Width} (h : s.memRead a w = some v) :
    InRegion s a w.bytes ∧ v = Memory.readBytes s.mem a.toNat w.bytes := by
  by_cases hr : InRegion s a w.bytes
  · rw [memRead_of_inRegion hr, Option.some_inj] at h
    exact ⟨hr, h.symm⟩
  · rw [memRead_of_not_inRegion hr] at h
    nomatch h

theorem memWrite_cases {s t : State} {a v : Word} {w : Width} (h : s.memWrite a w v = some t) :
    InRegion s a w.bytes ∧ t = { s with mem := Memory.writeBytes s.mem a.toNat v w.bytes } := by
  by_cases hr : InRegion s a w.bytes
  · rw [memWrite_of_inRegion v hr, Option.some_inj] at h
    exact ⟨hr, h.symm⟩
  · rw [memWrite_of_not_inRegion v hr] at h
    nomatch h

/-- A read depends on the region and on the bytes it reads, and on nothing else (R42). -/
theorem memRead_congr {s t : State} {a : Word} {w : Width} (hcfg : t.cfg = s.cfg)
    (hbytes : ∀ k, k < w.bytes → t.byteAt (a.toNat + k) = s.byteAt (a.toNat + k)) :
    t.memRead a w = s.memRead a w := by
  rw [State.memRead, State.memRead, hcfg, Memory.readBytes_congr hbytes]

/-! ### The value of a read (R42) -/

theorem Memory.readBytes_lt (m : Memory) (a n : Nat) : (Memory.readBytes m a n).toNat < 2 ^ (8 * n) :=
  Nat.lt_pow_two_of_testBit _ fun _ hi => Memory.readBytes_high m a hi

/-- A read is its lowest byte and, 256 times, the read of the others. -/
theorem Memory.readBytes_succ_toNat (m : Memory) (a : Nat) {n : Nat} (hn : n < 4) :
    (Memory.readBytes m a (n + 1)).toNat = (Memory.get m a).toNat + 256 * (Memory.readBytes m (a + 1) n).toNat := by
  have hlow : (Memory.get m a).toNat < 2 ^ 8 := (Memory.get m a).isLt
  have hhigh : (Memory.readBytes m (a + 1) n).toNat < 2 ^ 24 :=
    Nat.lt_of_lt_of_le (Memory.readBytes_lt m (a + 1) n) (Nat.pow_le_pow_right (by decide) (by omega))
  have hshift : (Memory.readBytes m (a + 1) n <<< 8).toNat = (Memory.readBytes m (a + 1) n).toNat <<< 8 := by
    rw [BitVec.toNat_shiftLeft, Nat.mod_eq_of_lt (by rw [Nat.shiftLeft_eq]; omega)]
  rw [Memory.readBytes, BitVec.toNat_or, hshift, BitVec.toNat_setWidth, Nat.mod_eq_of_lt (by omega), Nat.or_comm,
    ← Nat.shiftLeft_add_eq_or_of_lt hlow, Nat.shiftLeft_eq]
  omega

/-- A read's base-256 digits are its bytes. -/
theorem Memory.readBytes_toNat (m : Memory) (a : Nat) {n : Nat} (hn : n ≤ 4) :
    (Memory.readBytes m a n).toNat =
      ((List.range n).map fun k => (Memory.get m (a + k)).toNat * 256 ^ k).sum := by
  induction n generalizing a with
  | zero => rfl
  | succ n ih =>
    rw [Memory.readBytes_succ_toNat m a hn, ih (a + 1) (by omega), List.range_succ_eq_map, List.map_cons,
      List.sum_cons, List.map_map, ← List.sum_map_mul_left]
    simp [Function.comp_def, Nat.pow_succ', Nat.add_assoc, Nat.add_comm 1, Nat.mul_left_comm]

/-- Settles O5: the region decides, and the value is the sum of the bytes by their weights. -/
theorem readPortIsLittleEndian : Obligations.ReadPortIsLittleEndian := fun s a w =>
  ⟨fun hr => ⟨_, memRead_of_inRegion hr, Memory.readBytes_toNat s.mem a.toNat w.bytes_le⟩, memRead_of_not_inRegion⟩

/-! ### Reads of mixed widths (R45) -/

/-- Byte k of the slice of n bytes from byte j, zero-extended, is byte j + k of the word. -/
theorem extract_zeroExtend_slice (v : Word) (j : Nat) {k n : Nat} (hk : k < n) (hn : n ≤ 4) :
    ((v.extractLsb' (8 * j) (8 * n)).setWidth 32).extractLsb' (8 * k) 8 = v.extractLsb' (8 * (j + k)) 8 := by
  apply BitVec.eq_of_getLsbD_eq
  intro i hi
  simp only [BitVec.getLsbD_extractLsb', BitVec.getLsbD_setWidth, hi, decide_true, Bool.true_and,
    show 8 * k + i < 32 by omega, show 8 * k + i < 8 * n by omega]
  congr 1
  omega

/-- The word that holds n bytes of v from byte j, and nothing above them, is the read that finds those
bytes. -/
theorem Memory.readBytes_eq_slice {m : Memory} {a j n : Nat} {v : Word} (hn : n ≤ 4)
    (h : ∀ k, k < n → Memory.get m (a + k) = v.extractLsb' (8 * (j + k)) 8) :
    Memory.readBytes m a n = (v.extractLsb' (8 * j) (8 * n)).setWidth 32 := by
  refine Memory.readBytes_eq hn (fun k hk => ?_) fun i hi => ?_
  · rw [extract_zeroExtend_slice v j hk hn, h k hk]
  · simp [show ¬ i < 8 * n by omega]

/-- A read inside a 4-byte read gives the slice of its value. -/
theorem memRead_inside_word {s : State} {a v : Word} {w : Width} {j : Nat} (hcfg : s.cfg.wf = true)
    (h : s.memRead a .word = some v) (hj : j + w.bytes ≤ 4) :
    s.memRead (a + BitVec.ofNat 32 j) w = some ((v.extractLsb' (8 * j) (8 * w.bytes)).setWidth 32) := by
  obtain ⟨hr, rfl⟩ := memRead_cases h
  have hw : 0 < w.bytes := w.bytes_pos
  have hend : a.toNat + 4 ≤ 2 ^ 32 := hr.toNat_add_le hcfg
  have ha : (a + BitVec.ofNat 32 j).toNat = a.toNat + j := toNat_add_ofNat (by omega)
  have hin : InRegion s (a + BitVec.ofNat 32 j) w.bytes := by
    obtain ⟨hlo, hhi⟩ : InRegion s a 4 := hr
    exact ⟨by omega, by omega⟩
  rw [memRead_of_inRegion hin, ha, Option.some_inj]
  refine Memory.readBytes_eq_slice w.bytes_le fun k hk => ?_
  have hword : j + k < Width.word.bytes := Nat.lt_of_lt_of_le (by omega) hj
  rw [Memory.extract_readBytes s.mem a.toNat hword (by decide), Nat.add_assoc]

/-- Settles O6: each of the six reads lies inside the 4-byte read. -/
theorem mixedWidthReadsAgree : Obligations.MixedWidthReadsAgree := by
  intro s a v hcfg h
  have hlow := memRead_inside_word (w := .half) (j := 0) hcfg h (by decide)
  rw [BitVec.add_zero] at hlow
  exact ⟨fun k hk => memRead_inside_word (w := .byte) hcfg h hk, hlow,
    memRead_inside_word (w := .half) (j := 2) hcfg h (by decide)⟩

/-! ### Writes, and reads after them (R43, R47) -/

/-- Settles O7: the bytes of the access get the bytes of the value, and only memory is touched. -/
theorem writePortStoresItsBytes : Obligations.WritePortStoresItsBytes := by
  refine fun s a w v => ⟨fun hm hr => ⟨_, memWrite_of_inRegion v hr, fun k hk => ?_, fun b hb => ?_,
    .of_gpr rfl, rfl, ⟨rfl, rfl, rfl⟩, ⟨rfl, rfl⟩⟩, memWrite_of_not_inRegion v⟩
  · exact Memory.get_writeBytes_inside hm v hk
  · exact Memory.get_writeBytes_outside v hb

theorem extract_zero_eq_setWidth (v : Word) (n : Nat) : v.extractLsb' 0 n = v.setWidth n := by
  apply BitVec.eq_of_toNat_eq
  simp [BitVec.extractLsb'_toNat]

/-- The bytes last written, read back at the same width, are the low bytes of the value. -/
theorem Memory.readBytes_writeBytes {m : Memory} (hm : Memory.wf m) (a : Nat) (v : Word) {n : Nat} (hn : n ≤ 4) :
    Memory.readBytes (Memory.writeBytes m a v n) a n = (v.setWidth (8 * n)).setWidth 32 := by
  rw [← extract_zero_eq_setWidth]
  refine Memory.readBytes_eq_slice (j := 0) hn fun k hk => ?_
  rw [Memory.get_writeBytes_inside hm v hk, Nat.zero_add]

/-- Settles O8: the bytes of the write come back, and bytes apart from it are as they were. -/
theorem readAfterWrite : Obligations.ReadAfterWrite := by
  intro s t a w v hm h
  obtain ⟨hr, rfl⟩ := memWrite_cases h
  constructor
  · have hread := Memory.readBytes_writeBytes hm a.toNat v w.bytes_le
    rw [State.memRead, if_pos ((inRange_iff_inRegion s a _).mpr hr), hread]
  · exact fun b u hapart => memRead_congr rfl fun k hk => Memory.get_writeBytes_outside v (by omega)

/-! ### The fetch (R48, R55) -/

theorem step_of_run {s : State} {i : Instr} (h : s.fetch = .run i) : step s = exec i s := by
  rw [step, h]

theorem step_of_illegal {s : State} {w : Word} (h : s.fetch = .illegal w) :
    step s = .next (s.raise .illegal w) := by
  rw [step, h]; rfl

theorem step_of_outOfRange {s : State} (h : s.fetch = .outOfRange) : step s = .next (s.raise .memFault s.pc) := by
  rw [step, h]; rfl

theorem fetch_of_not_inRegion {s : State} (hs : s.status = .running) (h : ¬ InRegion s s.pc 4) :
    s.fetch = .outOfRange := by
  rw [fetch_of_running hs, memRead_of_not_inRegion (w := .word) h]

/-- What SW leaves in memory and in the parameters, where its bytes lie in the region (R198). -/
theorem sw_memory {s t : State} {rs1 rs2 : Reg} {imm : Word} (hr : InRegion s (s.getReg rs1 + imm) 4)
    (h : exec (.sw rs1 rs2 imm) s = .next t) :
    t.cfg = s.cfg ∧ t.mem = Memory.writeBytes s.mem (s.getReg rs1 + imm).toNat (s.getReg rs2) 4 := by
  rcases store_cases (w := .word) h with ⟨-, rfl⟩ | ⟨hout, -⟩
  · exact ⟨rfl, rfl⟩
  · exact absurd hr hout

/-- Settles O29: the fetch reads back the word stored, so what it decodes to decides the step. -/
theorem storeIsSeenByTheNextFetch : Obligations.StoreIsSeenByTheNextFetch := by
  intro s t u rs1 rs2 imm hm hr h humem hucfg hrun hpc
  obtain ⟨htcfg, htmem⟩ := sw_memory hr h
  have hin : InRegion u u.pc 4 := by rw [InRegion, hpc, hucfg, htcfg]; exact hr
  have hword : Memory.readBytes u.mem u.pc.toNat 4 = s.getReg rs2 := by
    rw [humem, htmem, hpc, Memory.readBytes_writeBytes hm _ _ (by decide), BitVec.setWidth_eq, BitVec.setWidth_eq]
  have hfetch := fetch_of_bytes hrun hin hword
  refine ⟨fun i hi => step_of_run ?_, fun e he => ⟨_, step_of_illegal ?_, raise_effect u _ _⟩⟩
  · rw [hfetch, hi]
  · rw [hfetch, he]

/-- Settles O34: the read of the fetch fails, and the fetch fault raises MEM_FAULT with the pc. -/
theorem fetchOutOfRegionTraps : Obligations.FetchOutOfRegionTraps := fun s hs h =>
  ⟨_, step_of_outOfRange (fetch_of_not_inRegion hs h), raise_effect s _ _⟩

/-! ### The bytes an instruction leaves alone (R107) -/

/-- Apart from a hand-over, an instruction changes no byte, or it stores its bytes and goes on. -/
theorem ExecCase.bytes {i : Instr} {s t : State} (h : ExecCase i s t)
    (hno : i = .ecall → s.cfg.ecallHostGiven = false) :
    SameBytes s t ∨
      (t.status = s.status ∧ ∃ a n, storedBytes s i = some (a, n) ∧ SameBytesOutside s t a n) := by
  cases h with
  | wrote rd v _ _ ht => exact .inl (ht ▸ (setReg_jumpTo_effect s rd v _).bytes)
  | linked rd _ _ ht => exact .inl (ht ▸ (setReg_jumpTo_effect s rd _ _).bytes)
  | jumped _ _ ht => exact .inl (ht ▸ (jumpTo_effect s _).bytes)
  | fell _ _ ht => exact .inl (ht ▸ (jumpTo_effect s _).bytes)
  | stored a w v _ _ hb _ ht =>
    exact .inr (ht ▸ ⟨rfl, a.toNat, w.bytes, hb, fun b => Memory.get_writeBytes_outside v⟩)
  | halted ht => exact .inl (ht ▸ (halt_effect s _).bytes)
  | trapped c v ht => exact .inl (ht ▸ (raise_effect s c v).bytes)
  | handed hi hh _ => exact absurd hh (by simp [hno hi])

theorem storedBytes_size_le {s : State} {i : Instr} {a n : Nat} (h : storedBytes s i = some (a, n)) : n ≤ 4 := by
  cases i with
  | sb | sh | sw => cases h; decide
  | _ => nomatch h

/-- Settles O44: an instruction that changes a byte is a store of those bytes and keeps the status. -/
theorem memoryFrame : Obligations.MemoryFrame := by
  intro i s t h hno
  rcases (exec_cases h).bytes hno with hsame | ⟨hstatus, a, n, hstored, hout⟩
  · exact ⟨fun _ => hsame, fun a n hb => ⟨storedBytes_size_le hb, fun b _ => hsame b⟩, fun _ => hsame⟩
  · refine ⟨fun hnone => ?_, fun a' n' hb => ?_, fun hne => absurd hstatus hne⟩
    · rw [hnone] at hstored
      nomatch hstored
    · rw [hstored] at hb
      cases hb
      exact ⟨storedBytes_size_le hstored, hout⟩

end Sys2Proof.Machine
end

section
/-! PROOFS. Proofs/Encoding.lean: the decoder and the encoder of spec/30_encoding.md: an instruction's fields
against the dispatch table, a word that meets a row of the opcode table as the encoding of its own operands,
and the two together: decode and encode are inverse, and the decoder accepts the rows of the table alone. -/

namespace Sys2Proof

open Machine

/-! ### The fields of an instruction (R62, R69) -/

/-- The immediate of a shift holds the shift amount in its low bits (R69). -/
theorem shiftImm_shamt (funct7 : BitVec 7) (shamt : BitVec 5) :
    ((funct7 ++ shamt).signExtend 32).extractLsb' 0 5 = shamt := by
  rw [extract_signExtend _ (by omega) (by omega), BitVec.extractLsb'_append_eq_right]

/-- The raw fields of a shift are its own funct7 and its shift amount (R69). -/
theorem fieldsShift_eq (funct3 : BitVec 3) (funct7 : BitVec 7) (rd rs1 : Reg) (shamt : BitVec 5) :
    fieldsShift funct3 funct7 rd rs1 shamt =
      ⟨.I, opImm, rd, rs1, shamt, funct3, funct7, (funct7 ++ shamt).signExtend 32⟩ := by
  have h7 := Laws.funct7_fieldsShift funct3 funct7 rd rs1 shamt
  simp only [fieldsShift, fieldsI] at h7 ⊢
  rw [h7, shiftImm_shamt]

/-- The dispatch table gives the fields of an instruction back to that instruction (R73). -/
theorem select_fields (i : Instr) : (lookup i.fields).bind (·.select i.fields) = some i := by
  cases i with
  | slli rd rs1 shamt =>
    rw [Instr.fields, fieldsShift_eq]
    exact congrArg (fun n => some (Instr.slli rd rs1 n)) (shiftImm_shamt _ shamt)
  | srli rd rs1 shamt =>
    rw [Instr.fields, fieldsShift_eq]
    exact congrArg (fun n => some (Instr.srli rd rs1 n)) (shiftImm_shamt _ shamt)
  | srai rd rs1 shamt =>
    rw [Instr.fields, fieldsShift_eq]
    exact congrArg (fun n => some (Instr.srai rd rs1 n)) (shiftImm_shamt _ shamt)
  | _ => rfl

theorem formatOf_fields (i : Instr) : formatOf true i.fields.opcode = some i.fields.fmt := by
  cases i <;> rfl

/-- The trap word alone has the opcode TRAP_WORD_6B decides (R78). -/
theorem fields_opcode_ne_trapWord {i : Instr}
    (h : ∀ funct7 rs2 rs1 funct3 rd, i ≠ .nemuTrap funct7 rs2 rs1 funct3 rd) : i.fields.opcode ≠ opTrapWord := by
  cases i with
  | nemuTrap funct7 rs2 rs1 funct3 rd => exact absurd rfl (h funct7 rs2 rs1 funct3 rd)
  | _ => exact of_decide_eq_true rfl

theorem formatOf_of_ne_trapWord {opcode : BitVec 7} (h : opcode ≠ opTrapWord) (b c : Bool) :
    formatOf b opcode = formatOf c opcode := by
  simp only [formatOf, if_neg h]

/-! ### Immediates their formats hold (R64 to R68) -/

theorem fitsImm12_signExtend (v : BitVec 12) : fitsImm12 (v.signExtend 32) = true := by
  rw [fitsImm12_iff, extract_signExtend v (by omega) (by omega), BitVec.extractLsb'_eq_self]

theorem fitsImmB_signExtend (v : BitVec 12) : fitsImmB ((v ++ 0#1).signExtend 32) = true := by
  simp only [fitsImmB, Bool.and_eq_true, beq_iff_eq]
  constructor
  · rw [extract_signExtend _ (by omega) (by omega), BitVec.extractLsb'_eq_self]
  · rw [extract_signExtend _ (by omega) (by omega), BitVec.extractLsb'_append_eq_right]

theorem fitsImmJ_signExtend (v : BitVec 20) : fitsImmJ ((v ++ 0#1).signExtend 32) = true := by
  simp only [fitsImmJ, Bool.and_eq_true, beq_iff_eq]
  constructor
  · rw [extract_signExtend _ (by omega) (by omega), BitVec.extractLsb'_eq_self]
  · rw [extract_signExtend _ (by omega) (by omega), BitVec.extractLsb'_append_eq_right]

theorem fitsImmU_append (v : BitVec 20) : fitsImmU (v ++ 0#12) = true := by
  simp only [fitsImmU, beq_iff_eq]
  exact BitVec.extractLsb'_append_eq_right

/-- A well-formed instruction's immediate is the one its encoding is read with (R72). -/
theorem immOf_encode {i : Instr} (h : i.wf = true) : immOf i.fields.fmt (encode i) = i.fields.imm := by
  cases i with
  | lui | auipc => exact immU_encode _ _ h
  | addi | slti | sltiu | xori | ori | andi | jalr | lb | lh | lw | lbu | lhu => exact immI_encode _ _ _ _ h
  | slli | srli | srai => exact immI_encode _ _ _ _ (fitsImm12_signExtend _)
  | ecall | ebreak => exact immI_encode _ _ _ _ (by decide)
  | jal => exact immJ_encode _ h
  | beq | bne | blt | bge | bltu | bgeu => exact immB_encode _ _ _ h
  | sb | sh | sw => exact immS_encode _ _ _ h
  | add | sub | sll | slt | sltu | xor | srl | sra | or | and | nemuTrap => rfl

/-! ### Decode of encode -/

/-- Decoding undoes encoding wherever the parameter gives the opcode its format. -/
theorem decode_encode {b : Bool} {i : Instr} (hwf : i.wf = true)
    (hfmt : formatOf b i.fields.opcode = some i.fields.fmt) : decode b (encode i) = .ok i :=
  decode_of_fields (decodeFields_encode hfmt (immOf_encode hwf)) (select_fields i)

theorem decode_true_encode {i : Instr} (hwf : i.wf = true) : decode true (encode i) = .ok i :=
  decode_encode hwf (formatOf_fields i)

/-- Settles O10: the fields are read back, and the dispatch table selects the instruction from them. -/
theorem decodeOfEncode : Obligations.DecodeOfEncode := fun i hwf =>
  ⟨decode_true_encode hwf, fun hne => decode_encode hwf <|
    (formatOf_of_ne_trapWord (fields_opcode_ne_trapWord hne) false true).trans (formatOf_fields i)⟩

/-! ### The immediates of a word hold the raw fields the format lays them in (R62) -/

theorem immI_low (w : Word) : (immI w).extractLsb' 0 5 = rs2Of w := by
  rw [immI, extract_signExtend _ (by omega) (by omega), extract_extract w (by omega), rs2Of]

theorem immI_high (w : Word) : (immI w).extractLsb' 5 7 = funct7Of w := by
  rw [immI, extract_signExtend _ (by omega) (by omega), extract_extract w (by omega), funct7Of]

theorem immS_low (w : Word) : (immS w).extractLsb' 0 5 = rdOf w := by
  rw [immS, extract_signExtend _ (by omega) (by omega), BitVec.extractLsb'_append_eq_right, rdOf]

theorem immS_high (w : Word) : (immS w).extractLsb' 5 7 = funct7Of w := by
  rw [immS, extract_signExtend _ (by omega) (by omega), extract_append_low _ _ (by omega),
    extract_extract w (by omega), funct7Of]

/-- R66's list: which bits of the word the B-immediate holds where. -/
theorem immB_parts (w : Word) :
    (immB w).extractLsb' 1 4 = w.extractLsb' 8 4 ∧ (immB w).extractLsb' 5 6 = w.extractLsb' 25 6 ∧
      (immB w).extractLsb' 11 1 = w.extractLsb' 7 1 ∧ (immB w).extractLsb' 12 1 = w.extractLsb' 31 1 := by
  refine ⟨?_, ?_, ?_, ?_⟩
  all_goals rw [immB, extract_signExtend _ (by omega) (by omega), extract_append_low _ _ (by omega)]
  · exact BitVec.extractLsb'_append_eq_right
  all_goals rw [extract_append_low _ _ (by omega)]
  · exact BitVec.extractLsb'_append_eq_right
  all_goals rw [extract_append_low _ _ (by omega)]
  · exact BitVec.extractLsb'_append_eq_right
  · exact BitVec.extractLsb'_append_eq_left

theorem immB_low (w : Word) : (immB w).extractLsb' 1 4 ++ (immB w).extractLsb' 11 1 = rdOf w := by
  obtain ⟨h1, -, h11, -⟩ := immB_parts w
  rw [h1, h11]
  exact extract_append_extract w

theorem immB_high (w : Word) : (immB w).extractLsb' 12 1 ++ (immB w).extractLsb' 5 6 = funct7Of w := by
  obtain ⟨-, h5, -, h12⟩ := immB_parts w
  rw [h12, h5]
  exact extract_append_extract w

/-- R68's list: which bits of the word the J-immediate holds where. -/
theorem immJ_parts (w : Word) :
    (immJ w).extractLsb' 1 10 = w.extractLsb' 21 10 ∧ (immJ w).extractLsb' 11 1 = w.extractLsb' 20 1 ∧
      (immJ w).extractLsb' 12 8 = w.extractLsb' 12 8 ∧ (immJ w).extractLsb' 20 1 = w.extractLsb' 31 1 := by
  refine ⟨?_, ?_, ?_, ?_⟩
  all_goals rw [immJ, extract_signExtend _ (by omega) (by omega), extract_append_low _ _ (by omega)]
  · exact BitVec.extractLsb'_append_eq_right
  all_goals rw [extract_append_low _ _ (by omega)]
  · exact BitVec.extractLsb'_append_eq_right
  all_goals rw [extract_append_low _ _ (by omega)]
  · exact BitVec.extractLsb'_append_eq_right
  · exact BitVec.extractLsb'_append_eq_left

theorem immJ_rs1 (w : Word) : (immJ w).extractLsb' 15 5 = rs1Of w := by
  obtain ⟨-, -, h12, -⟩ := immJ_parts w
  rw [← extract_extract (s1 := 12) (l1 := 8) (s2 := 3) _ (by omega), h12, extract_extract w (by omega), rs1Of]

theorem immJ_funct3 (w : Word) : (immJ w).extractLsb' 12 3 = funct3Of w := by
  obtain ⟨-, -, h12, -⟩ := immJ_parts w
  rw [← extract_extract (s1 := 12) (l1 := 8) (s2 := 0) _ (by omega), h12, extract_extract w (by omega), funct3Of]

theorem immJ_low (w : Word) : (immJ w).extractLsb' 1 4 ++ (immJ w).extractLsb' 11 1 = rs2Of w := by
  obtain ⟨h1, h11, -, -⟩ := immJ_parts w
  rw [← extract_extract (s1 := 1) (l1 := 10) (s2 := 0) (l2 := 4) _ (by omega), h1, h11, extract_extract w (by omega)]
  exact extract_append_extract w

theorem immJ_high (w : Word) : (immJ w).extractLsb' 20 1 ++ (immJ w).extractLsb' 5 6 = funct7Of w := by
  obtain ⟨h1, -, -, h20⟩ := immJ_parts w
  rw [← extract_extract (s1 := 1) (l1 := 10) (s2 := 4) (l2 := 6) _ (by omega), h1, h20, extract_extract w (by omega)]
  exact extract_append_extract w

/-- Bits of the U-immediate above its twelve zeros are the word's, in their places (R67). -/
theorem immU_slice (w : Word) {start len : Nat} (hlow : 12 ≤ start) (hhigh : start + len ≤ 32) :
    (immU w).extractLsb' start len = w.extractLsb' start len := by
  rw [immU, extract_append_low _ _ hlow, extract_extract w (by omega), Nat.add_sub_cancel' hlow]

/-! ### A word is the encoding of the fields read from it, format by format -/

section
variable {w : Word} {opcode : BitVec 7} {funct3 : BitVec 3} {funct7 : BitVec 7}

/-- The encoder uses the raw fields alone, so they give the word back whatever format and immediate go with them. -/
theorem encodeFields_rawFields (fmt : Format) (w imm : Word) :
    encodeFields ⟨fmt, opcodeOf w, rdOf w, rs1Of w, rs2Of w, funct3Of w, funct7Of w, imm⟩ = w :=
  word_of_fields w

theorem encodeFields_fieldsOf (fmt : Format) (w : Word) : encodeFields (fieldsOf fmt w) = w :=
  encodeFields_rawFields fmt w _

theorem encodeFields_fieldsU (ho : opcodeOf w = opcode) : encodeFields (fieldsU opcode (rdOf w) (immU w)) = w := by
  subst ho
  rw [fieldsU, immU_slice w (by omega) (by omega), immU_slice w (by omega) (by omega),
    immU_slice w (by omega) (by omega), immU_slice w (by omega) (by omega)]
  exact encodeFields_rawFields .U w _

theorem encodeFields_fieldsJ (ho : opcodeOf w = opJal) : encodeFields (fieldsJ (rdOf w) (immJ w)) = w := by
  rw [fieldsJ, immJ_rs1, immJ_low, immJ_funct3, immJ_high, ← ho]
  exact encodeFields_rawFields .J w _

theorem encodeFields_fieldsI (ho : opcodeOf w = opcode) (h3 : funct3Of w = funct3) :
    encodeFields (fieldsI opcode funct3 (rdOf w) (rs1Of w) (immI w)) = w := by
  subst ho h3
  rw [fieldsI, immI_low, immI_high]
  exact encodeFields_rawFields .I w _

theorem encodeFields_fieldsShift (ho : opcodeOf w = opImm) (h3 : funct3Of w = funct3) (h7 : funct7Of w = funct7) :
    encodeFields (fieldsShift funct3 funct7 (rdOf w) (rs1Of w) (rs2Of w)) = w := by
  subst h3 h7
  rw [fieldsShift_eq, ← ho]
  exact encodeFields_rawFields .I w _

theorem encodeFields_fieldsS (ho : opcodeOf w = opStore) (h3 : funct3Of w = funct3) :
    encodeFields (fieldsS funct3 (rs1Of w) (rs2Of w) (immS w)) = w := by
  subst h3
  rw [fieldsS, immS_low, immS_high, ← ho]
  exact encodeFields_rawFields .S w _

theorem encodeFields_fieldsB (ho : opcodeOf w = opBranch) (h3 : funct3Of w = funct3) :
    encodeFields (fieldsB funct3 (rs1Of w) (rs2Of w) (immB w)) = w := by
  subst h3
  rw [fieldsB, immB_low, immB_high, ← ho]
  exact encodeFields_rawFields .B w _

theorem encodeFields_fieldsR (ho : opcodeOf w = opcode) (h3 : funct3Of w = funct3) (h7 : funct7Of w = funct7) :
    encodeFields (fieldsR opcode funct3 funct7 (rdOf w) (rs1Of w) (rs2Of w)) = w := by
  subst ho h3 h7
  exact encodeFields_rawFields .R w _

end

/-! ### A word that meets a row of the opcode table (R63, R73) -/

/-- Where a mask has ones, a word that meets the row has the row's bits. -/
theorem extract_of_mask {w mask pattern : Word} {start len : Nat} (h : w &&& mask = pattern)
    (hm : mask.extractLsb' start len = BitVec.allOnes len) :
    w.extractLsb' start len = pattern.extractLsb' start len := by
  rw [← h, BitVec.extractLsb'_and, hm, BitVec.and_allOnes]

theorem row_opcode {w pattern : Word} (h : w &&& 0x0000007F#32 = pattern) : opcodeOf w = opcodeOf pattern :=
  extract_of_mask h (by decide)

theorem row_funct3 {w pattern : Word} (h : w &&& 0x0000707F#32 = pattern) :
    opcodeOf w = opcodeOf pattern ∧ funct3Of w = funct3Of pattern :=
  ⟨extract_of_mask h (by decide), extract_of_mask h (by decide)⟩

theorem row_funct7 {w pattern : Word} (h : w &&& 0xFE00707F#32 = pattern) :
    opcodeOf w = opcodeOf pattern ∧ funct3Of w = funct3Of pattern ∧ funct7Of w = funct7Of pattern :=
  ⟨extract_of_mask h (by decide), extract_of_mask h (by decide), extract_of_mask h (by decide)⟩

/-- The instruction of the same row with the operands a word holds at the places of its format. -/
def Instr.withOperandsOf (w : Word) : Instr → Instr
  | .lui _ _ => .lui (rdOf w) (immU w)
  | .auipc _ _ => .auipc (rdOf w) (immU w)
  | .addi _ _ _ => .addi (rdOf w) (rs1Of w) (immI w)
  | .slti _ _ _ => .slti (rdOf w) (rs1Of w) (immI w)
  | .sltiu _ _ _ => .sltiu (rdOf w) (rs1Of w) (immI w)
  | .xori _ _ _ => .xori (rdOf w) (rs1Of w) (immI w)
  | .ori _ _ _ => .ori (rdOf w) (rs1Of w) (immI w)
  | .andi _ _ _ => .andi (rdOf w) (rs1Of w) (immI w)
  | .slli _ _ _ => .slli (rdOf w) (rs1Of w) (rs2Of w)
  | .srli _ _ _ => .srli (rdOf w) (rs1Of w) (rs2Of w)
  | .srai _ _ _ => .srai (rdOf w) (rs1Of w) (rs2Of w)
  | .add _ _ _ => .add (rdOf w) (rs1Of w) (rs2Of w)
  | .sub _ _ _ => .sub (rdOf w) (rs1Of w) (rs2Of w)
  | .sll _ _ _ => .sll (rdOf w) (rs1Of w) (rs2Of w)
  | .slt _ _ _ => .slt (rdOf w) (rs1Of w) (rs2Of w)
  | .sltu _ _ _ => .sltu (rdOf w) (rs1Of w) (rs2Of w)
  | .xor _ _ _ => .xor (rdOf w) (rs1Of w) (rs2Of w)
  | .srl _ _ _ => .srl (rdOf w) (rs1Of w) (rs2Of w)
  | .sra _ _ _ => .sra (rdOf w) (rs1Of w) (rs2Of w)
  | .or _ _ _ => .or (rdOf w) (rs1Of w) (rs2Of w)
  | .and _ _ _ => .and (rdOf w) (rs1Of w) (rs2Of w)
  | .jal _ _ => .jal (rdOf w) (immJ w)
  | .jalr _ _ _ => .jalr (rdOf w) (rs1Of w) (immI w)
  | .beq _ _ _ => .beq (rs1Of w) (rs2Of w) (immB w)
  | .bne _ _ _ => .bne (rs1Of w) (rs2Of w) (immB w)
  | .blt _ _ _ => .blt (rs1Of w) (rs2Of w) (immB w)
  | .bge _ _ _ => .bge (rs1Of w) (rs2Of w) (immB w)
  | .bltu _ _ _ => .bltu (rs1Of w) (rs2Of w) (immB w)
  | .bgeu _ _ _ => .bgeu (rs1Of w) (rs2Of w) (immB w)
  | .lb _ _ _ => .lb (rdOf w) (rs1Of w) (immI w)
  | .lh _ _ _ => .lh (rdOf w) (rs1Of w) (immI w)
  | .lw _ _ _ => .lw (rdOf w) (rs1Of w) (immI w)
  | .lbu _ _ _ => .lbu (rdOf w) (rs1Of w) (immI w)
  | .lhu _ _ _ => .lhu (rdOf w) (rs1Of w) (immI w)
  | .sb _ _ _ => .sb (rs1Of w) (rs2Of w) (immS w)
  | .sh _ _ _ => .sh (rs1Of w) (rs2Of w) (immS w)
  | .sw _ _ _ => .sw (rs1Of w) (rs2Of w) (immS w)
  | .ecall => .ecall
  | .ebreak => .ebreak
  | .nemuTrap _ _ _ _ _ => .nemuTrap (funct7Of w) (rs2Of w) (rs1Of w) (funct3Of w) (rdOf w)

theorem rowOf_withOperandsOf (i : Instr) (w : Word) : rowOf (i.withOperandsOf w) = rowOf i := by
  cases i <;> rfl

theorem withOperandsOf_wf (i : Instr) (w : Word) : (i.withOperandsOf w).wf = true := by
  cases i with
  | lui | auipc => exact fitsImmU_append _
  | addi | slti | sltiu | xori | ori | andi | jalr | lb | lh | lw | lbu | lhu => exact fitsImm12_signExtend _
  | sb | sh | sw => exact fitsImm12_signExtend _
  | jal => exact fitsImmJ_signExtend _
  | beq | bne | blt | bge | bltu | bgeu => exact fitsImmB_signExtend _
  | _ => rfl

theorem encode_ecall : encode .ecall = 0x00000073#32 := by decide

theorem encode_ebreak : encode .ebreak = 0x00100073#32 := by decide

/-- A word that meets a row is the encoding of the row's instruction on the operands it holds. -/
theorem encode_withOperandsOf {i : Instr} {w : Word} (h : (rowOf i).covers w) : encode (i.withOperandsOf w) = w := by
  cases i with dsimp only [OpcodeRow.covers, rowOf] at h
  | lui | auipc => exact encodeFields_fieldsU (row_opcode h)
  | jal => exact encodeFields_fieldsJ (row_opcode h)
  | addi | slti | sltiu | xori | ori | andi | jalr | lb | lh | lw | lbu | lhu =>
    obtain ⟨ho, h3⟩ := row_funct3 h
    exact encodeFields_fieldsI ho h3
  | sb | sh | sw =>
    obtain ⟨ho, h3⟩ := row_funct3 h
    exact encodeFields_fieldsS ho h3
  | beq | bne | blt | bge | bltu | bgeu =>
    obtain ⟨ho, h3⟩ := row_funct3 h
    exact encodeFields_fieldsB ho h3
  | slli | srli | srai =>
    obtain ⟨ho, h3, h7⟩ := row_funct7 h
    exact encodeFields_fieldsShift ho h3 h7
  | add | sub | sll | slt | sltu | xor | srl | sra | or | and =>
    obtain ⟨ho, h3, h7⟩ := row_funct7 h
    exact encodeFields_fieldsR ho h3 h7
  | ecall => exact encode_ecall.trans (h.symm.trans BitVec.and_allOnes)
  | ebreak => exact encode_ebreak.trans (h.symm.trans BitVec.and_allOnes)
  | nemuTrap => exact encodeFields_fieldsR (row_opcode h) rfl rfl

/-- A word that meets a row decodes to the row's instruction on the operands the word holds. -/
theorem decode_of_covers {i : Instr} {w : Word} (h : (rowOf i).covers w) :
    decode true w = .ok (i.withOperandsOf w) := by
  have hd := decode_true_encode (withOperandsOf_wf i w)
  rwa [encode_withOperandsOf h] at hd

/-! ### A word the decoder accepts meets a row -/

/-- The row fixes just what the predicate of the entry asks for (R73). -/
abbrev DispatchEntry.hasRow (e : DispatchEntry) (row : OpcodeRow) : Prop :=
  e.opcode = row.pattern.extractLsb' 0 7 ∧
    ((row.mask = 0x0000007F#32 ∧ row.pattern.extractLsb' 7 25 = 0#25) ∨
     (row.mask = 0x0000707F#32 ∧ e.funct3 = some (row.pattern.extractLsb' 12 3) ∧
       row.pattern.extractLsb' 7 5 = 0#5 ∧ row.pattern.extractLsb' 15 17 = 0#17) ∨
     (row.mask = 0xFE00707F#32 ∧ e.funct3 = some (row.pattern.extractLsb' 12 3) ∧
       e.funct7 = some (row.pattern.extractLsb' 25 7) ∧
       row.pattern.extractLsb' 7 5 = 0#5 ∧ row.pattern.extractLsb' 15 10 = 0#10))

/-- Every entry but the one of `sys` is a row of the opcode table. -/
theorem entry_has_row : ∀ e ∈ dispatchTable, e.handler ≠ .sys → ∃ row ∈ opcodeTable, e.hasRow row := by
  decide

theorem agrees_some {n : Nat} (a b : BitVec n) : agrees (some a) b = true ↔ a = b := by simp [agrees]

/-- The predicate of an entry, part by part. -/
theorem matches_iff (e : DispatchEntry) (f : Fields) :
    e.matches f = true ↔
      e.fmt = f.fmt ∧ e.opcode = f.opcode ∧ agrees e.funct3 f.funct3 = true ∧ agrees e.funct7 f.funct7 = true := by
  simp [DispatchEntry.matches, and_assoc]

/-- Fields that match an entry encode to a word of the entry's row. -/
theorem covers_of_matches {row : OpcodeRow} {e : DispatchEntry} {f : Fields} (hrow : e.hasRow row)
    (hm : e.matches f = true) : row.covers (encodeFields f) := by
  obtain ⟨-, ho, h3, h7⟩ := (matches_iff e f).mp hm
  obtain ⟨hp, ⟨hmask, hz⟩ | ⟨hmask, e3, hz, hy⟩ | ⟨hmask, e3, e7, hz, hy⟩⟩ := hrow
  · rw [OpcodeRow.covers, hmask]
    exact Laws.mask_opcode f _ (ho ▸ hp) hz
  · rw [e3, agrees_some] at h3
    rw [OpcodeRow.covers, hmask]
    exact Laws.mask_funct3 f _ (ho ▸ hp) h3.symm hz hy
  · rw [e3, agrees_some] at h3
    rw [e7, agrees_some] at h7
    rw [OpcodeRow.covers, hmask]
    exact Laws.mask_funct7 f _ (ho ▸ hp) h3.symm h7.symm hz hy

theorem row_of_instr : ∀ row ∈ opcodeTable, ∃ i, rowOf i = row := by
  simp [opcodeTable]

/-- The entry of `sys` alone asks more than its predicate (R210). -/
theorem sys_entry {e : DispatchEntry} (he : e ∈ dispatchTable) (hs : e.handler = .sys) :
    e = ⟨.sys, .I, opSystem, some 0b000#3, some 0b0000000#7, selectSys⟩ := by
  have hf : dispatchTable.filter (·.handler = .sys) =
      [⟨.sys, .I, opSystem, some 0b000#3, some 0b0000000#7, selectSys⟩] := rfl
  have hmem := List.mem_filter (p := (·.handler = .sys)) |>.mpr ⟨he, decide_eq_true hs⟩
  rw [hf] at hmem
  exact List.mem_singleton.mp hmem

/-- A word `sys` accepts meets the row of what it is accepted as: no bit of it is free (R210). -/
theorem covers_of_selectSys {w : Word} {i : Instr} (ho : opcodeOf w = opSystem) (h3 : funct3Of w = 0b000#3)
    (h : selectSys (fieldsOf .I w) = some i) : (rowOf i).covers w := by
  obtain ⟨hrd, hrs1, hi⟩ := selectSys_cases h
  have hw : encodeFields (fieldsI opSystem 0b000#3 (rdOf w) (rs1Of w) (immI w)) = w := encodeFields_fieldsI ho h3
  rw [show rdOf w = 0#5 from hrd, show rs1Of w = 0#5 from hrs1] at hw
  rcases hi with ⟨rfl, himm⟩ | ⟨rfl, himm⟩
  · rw [show immI w = 0#32 from himm] at hw
    exact hw ▸ Laws.TableBits.ecall
  · rw [show immI w = 1#32 from himm] at hw
    exact hw ▸ Laws.TableBits.ebreak

theorem covers_of_decode {b : Bool} {w : Word} {i : Instr} (h : decode b w = .ok i) : ∃ j, (rowOf j).covers w := by
  obtain ⟨fmt, hfmt, e, he, hm, hsel⟩ := decode_cases h
  by_cases hs : e.handler = .sys
  · obtain rfl := sys_entry he hs
    obtain ⟨hf, ho, h3, -⟩ := (matches_iff _ _).mp hm
    cases hf
    exact ⟨i, covers_of_selectSys ho.symm ((agrees_some _ _).mp h3).symm hsel⟩
  · obtain ⟨row, hrow, hof⟩ := entry_has_row e he hs
    obtain ⟨j, rfl⟩ := row_of_instr row hrow
    have hcov := covers_of_matches hof hm
    rw [encodeFields_fieldsOf] at hcov
    exact ⟨j, hcov⟩

/-! ### The parameter (R63, R78) -/

/-- The parameter decides one opcode alone. -/
theorem decode_of_ne_trapWord {w : Word} (h : opcodeOf w ≠ opTrapWord) (b c : Bool) : decode b w = decode c w := by
  simp only [decode, decodeFields, formatOf_of_ne_trapWord h b c]

/-- What is accepted without the trap word is accepted with it, as the same instruction. -/
theorem decode_true_of_decode {b : Bool} {w : Word} {i : Instr} (h : decode b w = .ok i) :
    decode true w = .ok i := by
  cases b with
  | true => exact h
  | false =>
    obtain ⟨fmt, hfmt, -⟩ := decode_cases h
    have hne : opcodeOf w ≠ opTrapWord := fun e => by
      rw [e] at hfmt
      nomatch hfmt
    rw [decode_of_ne_trapWord hne true false, h]

/-- An accepted word is read as the instruction of a row it meets, on the operands it holds. -/
theorem decode_row {b : Bool} {w : Word} {i : Instr} (h : decode b w = .ok i) :
    ∃ j, (rowOf j).covers w ∧ i = j.withOperandsOf w := by
  obtain ⟨j, hj⟩ := covers_of_decode h
  have hij := (decode_true_of_decode h).symm.trans (decode_of_covers hj)
  exact ⟨j, hj, Except.ok.inj hij⟩

/-- Settles O11: an accepted word is the encoding of its row's instruction on the operands it holds. -/
theorem encodeOfDecode : Obligations.EncodeOfDecode := by
  intro b w i h
  obtain ⟨j, hj, rfl⟩ := decode_row h
  exact ⟨encode_withOperandsOf hj, withOperandsOf_wf j w⟩

/-- Settles O12: an accepted word meets a row and is read as that row's; a word that meets a row is read. -/
theorem decoderIsTheOpcodeTable : Obligations.DecoderIsTheOpcodeTable := by
  refine ⟨fun b w i h => ?_, fun row w hrow hw => ?_, fun w hne => decode_of_ne_trapWord hne false true⟩
  · obtain ⟨j, hj, rfl⟩ := decode_row h
    rwa [rowOf_withOperandsOf]
  · obtain ⟨j, rfl⟩ := row_of_instr row hrow
    exact ⟨_, decode_of_covers hw, rowOf_withOperandsOf j w⟩

end Sys2Proof
end

section
/-! PROOFS. Proofs/DecodeTable.lean: more of spec/30_encoding.md: the record of raw fields, the dispatch table
without overlaps, the words of R75 that no entry takes, and the immediates as integers. -/

namespace Sys2Proof

/-! ### The record of raw fields (R70, R72) -/

theorem decodeFields_cases {b : Bool} {w : Word} {f : Fields} (h : decodeFields b w = .ok f) :
    ∃ fmt, formatOf b (opcodeOf w) = some fmt ∧ f = fieldsOf fmt w := by
  cases hfmt : formatOf b (opcodeOf w) with
  | none => simp [decodeFields, hfmt] at h
  | some fmt => exact ⟨fmt, rfl, Except.ok.inj (h.symm.trans (decodeFields_of_format hfmt))⟩

theorem legal_iff (b : Bool) (f : Fields) :
    f.legal b = true ↔ formatOf b f.opcode = some f.fmt ∧ immOf f.fmt (encodeFields f) = f.imm := by
  simp [Fields.legal]

theorem legal_fieldsOf {b : Bool} {w : Word} {fmt : Format} (h : formatOf b (opcodeOf w) = some fmt) :
    (fieldsOf fmt w).legal b = true := by
  rw [legal_iff, encodeFields_fieldsOf]
  exact ⟨h, rfl⟩

/-- Settles O9: a legal record is read back, and the record read from a word has the word's fields. -/
theorem fieldsRoundTrip : Obligations.FieldsRoundTrip := by
  refine ⟨fun b f hf => ?_, fun b w f h => ?_⟩
  · obtain ⟨hfmt, himm⟩ := (legal_iff b f).mp hf
    exact decodeFields_encode hfmt himm
  · obtain ⟨fmt, hfmt, rfl⟩ := decodeFields_cases h
    exact ⟨encodeFields_fieldsOf fmt w, legal_fieldsOf hfmt⟩

/-! ### Entries of the dispatch table exclude each other (R73) -/

/-- Two columns of the table that ask for two different values. -/
def clash {n : Nat} : Option (BitVec n) → Option (BitVec n) → Bool
  | some a, some b => a != b
  | _, _ => false

theorem clash_of_agrees {n : Nat} {a b : Option (BitVec n)} {v : BitVec n} (ha : agrees a v = true)
    (hb : agrees b v = true) : clash a b = false := by
  cases a with
  | none => rfl
  | some x =>
    cases b with
    | none => rfl
    | some y =>
      obtain rfl := (agrees_some x v).mp ha
      obtain rfl := (agrees_some y x).mp hb
      exact bne_self_eq_false _

/-- Two entries differ in a column that both of them fill. -/
abbrev DispatchEntry.apart (d e : DispatchEntry) : Prop :=
  d.opcode ≠ e.opcode ∨ clash d.funct3 e.funct3 = true ∨ clash d.funct7 e.funct7 = true

theorem not_both_match {d e : DispatchEntry} (h : d.apart e) {f : Fields} (hd : d.matches f = true) :
    ¬ e.matches f = true := by
  intro he
  obtain ⟨-, hod, d3, d7⟩ := (matches_iff d f).mp hd
  obtain ⟨-, hoe, e3, e7⟩ := (matches_iff e f).mp he
  rcases h with h | h | h
  · exact h (hod.trans hoe.symm)
  · exact Bool.noConfusion (h.symm.trans (clash_of_agrees d3 e3))
  · exact Bool.noConfusion (h.symm.trans (clash_of_agrees d7 e7))

theorem entries_apart : dispatchTable.Pairwise DispatchEntry.apart := by decide

/-- Settles O13: any two entries differ in a column that both fill. -/
theorem dispatchEntriesNeverOverlap : Obligations.DispatchEntriesNeverOverlap := by
  intro f j k hj hk hmj hmk
  have happart := List.pairwise_iff_getElem.mp entries_apart
  rcases Nat.lt_trichotomy j k with h | h | h
  · exact absurd hmk (not_both_match (happart j k hj hk h) hmj)
  · exact h
  · exact absurd hmj (not_both_match (happart k j hk hj h) hmk)

/-! ### The words of R75 -/

/-- An accepted word has the fields of an entry. -/
theorem entry_of_decode {b : Bool} {w : Word} {i : Instr} (h : decode b w = .ok i) :
    ∃ e ∈ dispatchTable, e.opcode = opcodeOf w ∧ agrees e.funct3 (funct3Of w) = true ∧
      agrees e.funct7 (funct7Of w) = true := by
  obtain ⟨fmt, -, e, he, hm, -⟩ := decode_cases h
  obtain ⟨-, ho, h3, h7⟩ := (matches_iff _ _).mp hm
  exact ⟨e, he, ho, h3, h7⟩

/-- A column that asks for one value of a list lets no other value through. -/
theorem mem_of_agrees {n : Nat} {a : Option (BitVec n)} {l : List (BitVec n)} {v : BitVec n}
    (ha : a ∈ l.map some) (hv : agrees a v = true) : v ∈ l := by
  obtain ⟨x, hx, rfl⟩ := List.mem_map.mp ha
  exact (agrees_some x v).mp hv ▸ hx

/-- The opcodes of R63 that are formats whatever the parameter is. -/
abbrev plainOpcodes : List (BitVec 7) :=
  [0x37#7, 0x17#7, 0x6F#7, 0x67#7, 0x63#7, 0x03#7, 0x23#7, 0x13#7, 0x33#7, 0x73#7]

theorem entry_opcode : ∀ e ∈ dispatchTable,
    e.opcode.extractLsb' 0 2 = 3#2 ∧ (e.opcode ∈ plainOpcodes ∨ e.opcode = opTrapWord) := by decide

theorem branch_entry : ∀ e ∈ dispatchTable, e.opcode = opBranch →
    ∀ f3 ∈ [2#3, 3#3], agrees e.funct3 f3 = false := by decide

theorem load_entry : ∀ e ∈ dispatchTable, e.opcode = opLoad →
    ∀ f3 ∈ [3#3, 6#3, 7#3], agrees e.funct3 f3 = false := by decide

theorem store_entry : ∀ e ∈ dispatchTable, e.opcode = opStore →
    ∀ f3 ∈ [3#3, 4#3, 5#3, 6#3, 7#3], agrees e.funct3 f3 = false := by decide

theorem jalr_entry : ∀ e ∈ dispatchTable, e.opcode = opJalr → e.funct3 = some 0#3 := by decide

theorem slli_entry : ∀ e ∈ dispatchTable, e.opcode = opImm → agrees e.funct3 1#3 = true →
    e.funct7 = some 0#7 := by decide

theorem shiftRight_entry : ∀ e ∈ dispatchTable, e.opcode = opImm → agrees e.funct3 5#3 = true →
    e.funct7 ∈ [0#7, 0x20#7].map some := by decide

theorem reg_entry : ∀ e ∈ dispatchTable, e.opcode = opReg → e.funct7 ∈ [0#7, 0x20#7].map some := by decide

theorem subSra_entry : ∀ e ∈ dispatchTable, e.opcode = opReg → agrees e.funct7 0x20#7 = true →
    e.funct3 ∈ [0#3, 5#3].map some := by decide

theorem system_entry : ∀ e ∈ dispatchTable, e.opcode = opSystem →
    e.handler = .sys ∧ e.funct3 = some 0#3 := by decide

theorem formatOf_false_trapWord : formatOf false opTrapWord = none := rfl

/-- The `sys` handler accepts its two words and no other (R210). -/
theorem system_word {b : Bool} {w : Word} {i : Instr} (h : decode b w = .ok i) (ho : opcodeOf w = opSystem) :
    w = 0x00000073#32 ∨ w = 0x00100073#32 := by
  obtain ⟨fmt, -, e, he, hm, hsel⟩ := decode_cases h
  obtain ⟨-, heo, -, -⟩ := (matches_iff _ _).mp hm
  obtain ⟨hs, -⟩ := system_entry e he (heo.trans ho)
  obtain rfl := sys_entry he hs
  obtain ⟨hw, -⟩ := encodeOfDecode b w i h
  obtain ⟨-, -, ⟨rfl, -⟩ | ⟨rfl, -⟩⟩ := selectSys_cases hsel
  · exact .inl (hw.symm.trans encode_ecall)
  · exact .inr (hw.symm.trans encode_ebreak)

end Sys2Proof

namespace Sys2Proof.Machine

/-- The fetch of a word the decoder rejects (R74). -/
theorem fetch_illegal_of_bytes {s : State} {w : Word} {e : DecodeError} (hs : s.status = .running)
    (hr : InRegion s s.pc 4) (hw : Memory.readBytes s.mem s.pc.toNat 4 = w)
    (hd : decode s.cfg.trapWord6B w = .error e) : s.fetch = .illegal w := by
  rw [fetch_of_bytes hs hr hw, hd]

/-- A rejected word in the region traps when it is fetched, and nothing else changes (R180, R302). -/
theorem step_of_rejected {s : State} {w : Word} (hd : ∃ e, decode s.cfg.trapWord6B w = .error e)
    (hs : s.status = .running) (hr : InRegion s s.pc 4) (hw : Memory.readBytes s.mem s.pc.toNat 4 = w) :
    ∃ t, step s = .next t ∧ TrapEffect s t .illegal w := by
  obtain ⟨e, he⟩ := hd
  exact ⟨_, step_of_illegal (fetch_illegal_of_bytes hs hr hw he), raise_effect s _ _⟩

/-- Settles O14: each class asks for fields no entry has, and a rejected word traps when it is fetched. -/
theorem illegalEncodingsAreRejected : Obligations.IllegalEncodingsAreRejected := by
  intro s w hclass
  have hrej : ∃ e, decode s.cfg.trapWord6B w = .error e := by
    cases hd : decode s.cfg.trapWord6B w with
    | error e => exact ⟨e, rfl⟩
    | ok i =>
      exfalso
      obtain ⟨e, he, ho, h3, h7⟩ := entry_of_decode hd
      obtain ⟨hlow, hop⟩ := entry_opcode e he
      rcases hclass with hw | ⟨hw, htrap⟩ | ⟨hw, hf3⟩ | ⟨hw, hf3⟩ | ⟨hw, hf3⟩ | ⟨hw, hf3⟩ | ⟨hw, hf3, hf7⟩ |
        ⟨hw, hf3, hf7⟩ | ⟨hw, hf7⟩ | ⟨hw, hf7, hf3⟩ | ⟨hw, hf3⟩ | ⟨hw, -, hecall, hebreak⟩
      · rw [ho, opcodeOf, extract_extract w (by omega)] at hlow
        exact hw hlow
      · rcases hop with hplain | htw
        · exact hw (show opcodeOf w ∈ plainOpcodes from ho ▸ hplain)
        · obtain ⟨fmt, hfmt, -⟩ := decode_cases hd
          rw [htrap (ho.symm.trans htw), ← ho, htw, formatOf_false_trapWord] at hfmt
          nomatch hfmt
      · exact Bool.noConfusion (h3.symm.trans (branch_entry e he (ho.trans hw) _ hf3))
      · exact Bool.noConfusion (h3.symm.trans (load_entry e he (ho.trans hw) _ hf3))
      · exact Bool.noConfusion (h3.symm.trans (store_entry e he (ho.trans hw) _ hf3))
      · rw [jalr_entry e he (ho.trans hw), agrees_some] at h3
        exact hf3 h3.symm
      · rw [slli_entry e he (ho.trans hw) (hf3 ▸ h3), agrees_some] at h7
        exact hf7 h7.symm
      · exact hf7 (mem_of_agrees (shiftRight_entry e he (ho.trans hw) (hf3 ▸ h3)) h7)
      · exact hf7 (mem_of_agrees (reg_entry e he (ho.trans hw)) h7)
      · exact hf3 (mem_of_agrees (subSra_entry e he (ho.trans hw) (hf7 ▸ h7)) h3)
      · obtain ⟨-, e3⟩ := system_entry e he (ho.trans hw)
        rw [e3, agrees_some] at h3
        exact hf3 h3.symm
      · exact (system_word hd hw).elim hecall hebreak
  exact ⟨hrej, fun hs hr hw => step_of_rejected hrej hs hr ((Memory.readBytes_word _ _).trans hw.symm)⟩

end Sys2Proof.Machine

namespace Sys2Proof

/-! ### The immediates as integers (R64 to R68) -/

theorem toNat_append_eq {m n : Nat} (a : BitVec m) (b : BitVec n) : (a ++ b).toNat = a.toNat * 2 ^ n + b.toNat := by
  rw [BitVec.toNat_append, ← Nat.shiftLeft_add_eq_or_of_lt b.isLt, Nat.shiftLeft_eq]

theorem toNat_extract_eq {n : Nat} (w : BitVec n) (start len : Nat) :
    (w.extractLsb' start len).toNat = w.toNat / 2 ^ start % 2 ^ len := by
  rw [BitVec.extractLsb'_toNat, Nat.shiftRight_eq_div_pow]

/-- A sign-extended value lies in the range of its width and is, modulo that range, the bits it extends. -/
theorem toInt_signExtend_word {n : Nat} (v : BitVec n) (hn : n ≤ 32) :
    -2 ^ (n - 1) ≤ (v.signExtend 32).toInt ∧ (v.signExtend 32).toInt < 2 ^ (n - 1) ∧
      (v.signExtend 32).toInt % (2 ^ n : Nat) = v.toNat := by
  rw [BitVec.toInt_signExtend_of_le hn]
  refine ⟨BitVec.le_toInt v, BitVec.toInt_lt, ?_⟩
  rw [BitVec.toInt_eq_toNat_bmod, Int.bmod_emod]
  exact Int.emod_eq_of_lt (Int.natCast_nonneg _) (Int.ofNat_lt.mpr v.isLt)

/-- Settles O15: the range and the residue of a sign extension, and the bits each immediate extends. -/
theorem immediateRanges : Obligations.ImmediateRanges := by
  intro w
  have hw : w.toNat < 2 ^ 32 := w.isLt
  refine ⟨?_, ?_, ?_, ?_, ?_⟩
  · have h := toInt_signExtend_word (w.extractLsb' 20 12) (by decide)
    rw [toNat_extract_eq] at h
    rw [immI]
    omega
  · have h := toInt_signExtend_word (w.extractLsb' 25 7 ++ w.extractLsb' 7 5) (by decide)
    simp only [toNat_append_eq, toNat_extract_eq] at h
    rw [immS]
    omega
  · have h := toInt_signExtend_word
      (w.extractLsb' 31 1 ++ w.extractLsb' 7 1 ++ w.extractLsb' 25 6 ++ w.extractLsb' 8 4 ++ 0#1) (by decide)
    simp only [toNat_append_eq, toNat_extract_eq, BitVec.toNat_zero] at h
    rw [immB]
    omega
  · rw [immU, toNat_append_eq, toNat_extract_eq, BitVec.toNat_zero]
    omega
  · have h := toInt_signExtend_word
      (w.extractLsb' 31 1 ++ w.extractLsb' 12 8 ++ w.extractLsb' 20 1 ++ w.extractLsb' 21 10 ++ 0#1) (by decide)
    simp only [toNat_append_eq, toNat_extract_eq, BitVec.toNat_zero] at h
    rw [immJ]
    omega

end Sys2Proof
end

section
/-! PROOFS. Proofs/Expansions.lean: the pseudo-instructions of spec/30_encoding.md R80: a value split into an
upper and a lower part, and what the expansions of `li`, `call` and `tail` do. -/

namespace Sys2Proof.Machine

/-! ### Effects one after the other -/

theorem SameBytes.trans {s t u : State} (hst : SameBytes s t) (htu : SameBytes t u) : SameBytes s u :=
  fun a => (htu a).trans (hst a)

/-- Two writes of the same register: the second value stays. -/
theorem RegisterEffect.trans {s t u : State} {rd : Reg} {v v' next next' : Word}
    (hst : RegisterEffect s t rd v next) (htu : RegisterEffect t u rd v' next') : RegisterEffect s u rd v' next' where
  zero := htu.zero
  written := htu.written
  others := fun r hr => (htu.others r hr).trans (hst.others r hr)
  pc := htu.pc
  bytes := hst.bytes.trans htu.bytes
  report := hst.report.trans htu.report
  model := hst.model.trans htu.model

/-- A jump after a register write keeps what was written. -/
theorem RegisterEffect.trans_pc {s t u : State} {rd : Reg} {v next next' : Word}
    (hst : RegisterEffect s t rd v next) (htu : PcEffect t u next') : RegisterEffect s u rd v next' where
  zero := (htu.regs 0).trans hst.zero
  written := fun hrd => (htu.regs rd).trans (hst.written hrd)
  others := fun r hr => (htu.regs r).trans (hst.others r hr)
  pc := htu.pc
  bytes := hst.bytes.trans htu.bytes
  report := hst.report.trans htu.report
  model := hst.model.trans htu.model

/-- The value matters where the register is not x0 (R21). -/
theorem RegisterEffect.of_value {s t : State} {rd : Reg} {v v' next : Word} (h : RegisterEffect s t rd v next)
    (hv : rd ≠ 0 → v = v') : RegisterEffect s t rd v' next where
  zero := h.zero
  written := fun hrd => (h.written hrd).trans (hv hrd)
  others := h.others
  pc := h.pc
  bytes := h.bytes
  report := h.report
  model := h.model

theorem execAll_one {i : Instr} {s t : State} (h : exec i s = .next t) : execAll [i] s = .next t := by
  simp only [execAll, h]

theorem execAll_two {i j : Instr} {s t u : State} (hi : exec i s = .next t) (hj : exec j t = .next u) :
    execAll [i, j] s = .next u := by
  simp only [execAll, hi, hj]

/-! ### A value split in two (R80, `li`) -/

theorem splitHi_add_splitLo (v : Word) : splitHi v + splitLo v = v := BitVec.sub_add_cancel v (splitLo v)

theorem fitsImm12_splitLo (v : Word) : fitsImm12 (splitLo v) = true := fitsImm12_signExtend _

/-- The low part has the low twelve bits of the value, so nothing of them is left in the high part. -/
theorem fitsImmU_splitHi (v : Word) : fitsImmU (splitHi v) = true := by
  have hlow : (splitLo v).extractLsb' 0 12 = v.extractLsb' 0 12 := by
    rw [splitLo, extract_signExtend _ (by omega) (by omega), BitVec.extractLsb'_eq_self]
  have hmod := congrArg BitVec.toNat hlow
  rw [toNat_extract_eq, toNat_extract_eq] at hmod
  rw [fitsImmU, beq_iff_eq]
  apply BitVec.eq_of_toNat_eq
  rw [toNat_extract_eq, splitHi, BitVec.toNat_sub, BitVec.toNat_zero]
  have := (splitLo v).isLt
  omega

/-! ### `li` -/

/-- LUI and ADDI of the two parts, one after the other. -/
theorem lui_addi_effect (s : State) (rd : Reg) (v : Word) :
    ∃ t, execAll [.lui rd (splitHi v), .addi rd rd (splitLo v)] s = .next t ∧
      RegisterEffect s t rd v (s.pc + 4 + 4) := by
  obtain ⟨t, ht, het⟩ := completeReg_effect s rd (splitHi v)
  obtain ⟨u, hu, heu⟩ := completeReg_effect t rd (t.getReg rd + splitLo v)
  rw [het.pc] at heu
  refine ⟨u, execAll_two ht hu, (het.trans heu).of_value fun hrd => ?_⟩
  rw [het.written hrd, splitHi_add_splitLo]

/-- Settles O49: the value in one ADDI, in one LUI, or in the two parts. -/
theorem liExpansionLoadsItsValue : Obligations.LiExpansionLoadsItsValue := by
  intro s rd imm
  rw [Pseudo.expand]
  split
  · rename_i hfits
    obtain ⟨t, ht, het⟩ := completeReg_effect s rd (s.getReg 0#5 + imm)
    refine ⟨by simp [Instr.wf, hfits], t, execAll_one ht, het.of_value fun _ => ?_⟩
    rw [State.getReg_zero, BitVec.zero_add]
  · split
    · rename_i hlo
      obtain ⟨t, ht, het⟩ := completeReg_effect s rd (splitHi imm)
      refine ⟨by simp [Instr.wf, fitsImmU_splitHi], t, execAll_one ht, het.of_value fun _ => ?_⟩
      rw [splitHi, hlo, BitVec.sub_zero]
    · obtain ⟨t, ht, het⟩ := lui_addi_effect s rd imm
      rw [BitVec.add_assoc] at het
      exact ⟨by simp [Instr.wf, fitsImmU_splitHi, fitsImm12_splitLo], t, ht, het⟩

/-! ### `call` and `tail` -/

/-- AUIPC of the high part puts the target less the low part in the register. -/
theorem auipc_effect (s : State) (rd : Reg) (target : Word) :
    ∃ t, exec (.auipc rd (splitHi (target - s.pc))) s = .next t ∧
      RegisterEffect s t rd (s.pc + splitHi (target - s.pc)) (s.pc + 4) :=
  completeReg_effect s rd _

/-- JALR by the low part, after AUIPC by the high part, aims at the target (R80, R161). -/
theorem jalrTarget_of_auipc {s t : State} {rd : Reg} {target : Word} (hrd : rd ≠ 0) (ha : target.toNat % 4 = 0)
    (h : RegisterEffect s t rd (s.pc + splitHi (target - s.pc)) (s.pc + 4)) :
    t.jalrTarget rd (splitLo (target - s.pc)) = target := by
  have hsum : s.pc + splitHi (target - s.pc) + splitLo (target - s.pc) = target := by
    rw [BitVec.add_assoc, splitHi_add_splitLo, BitVec.add_comm, BitVec.sub_add_cancel]
  rw [jalrTarget_eq, h.written hrd, hsum, Nat.div_mul_cancel (by omega), BitVec.ofNat_toNat, BitVec.setWidth_eq]

theorem call_effect (s : State) {target : Word} (ha : target.toNat % 4 = 0) :
    ∃ t, execAll (Pseudo.expand s.pc (.call target)) s = .next t ∧ RegisterEffect s t 1 (s.pc + 8) target := by
  obtain ⟨t, ht, het⟩ := auipc_effect s 1#5 target
  obtain ⟨u, hu, heu⟩ := transfer_link_effect t 1#5 t.link ha
  rw [← jalrTarget_of_auipc (by decide) ha het] at hu
  refine ⟨u, execAll_two ht hu, (het.trans heu).of_value fun _ => ?_⟩
  rw [State.link, het.pc, BitVec.add_assoc]
  rfl

theorem tail_effect (s : State) {target : Word} (ha : target.toNat % 4 = 0) :
    ∃ t, execAll (Pseudo.expand s.pc (.tail target)) s = .next t ∧
      RegisterEffect s t 6 (s.pc + splitHi (target - s.pc)) target := by
  obtain ⟨t, ht, het⟩ := auipc_effect s 6#5 target
  obtain ⟨u, hu, heu⟩ := transfer_effect t ha
  have hj : exec (.jalr 0#5 6#5 (splitLo (target - s.pc))) t = .next u := by
    rw [exec, execJalr, State.setReg_zero, jalrTarget_of_auipc (by decide) ha het, hu]
  exact ⟨u, execAll_two ht hj, het.trans_pc heu⟩

/-- Settles O50: AUIPC and JALR by the two parts of the distance, with the link in x1 or dropped. -/
theorem callAndTailReachTheirTarget : Obligations.CallAndTailReachTheirTarget := by
  intro s target ha
  obtain ⟨t, ht, het⟩ := tail_effect s ha
  exact ⟨call_effect s ha, t, _, ht, het⟩

end Sys2Proof.Machine
end

section
/-! PROOFS. Proofs/Cycle.lean: the engine cycle of spec/40_engine_cycle.md: the step of the decoded
instruction, a stopped engine, the end of a run, and the pc after a step. -/

namespace Sys2Proof.Machine

/-! ### The decoded instruction (R101) -/

/-- The fetch of a word that decodes to an instruction (R74). -/
theorem fetch_run_of_bytes {s : State} {w : Word} {i : Instr} (hs : s.status = .running)
    (hr : InRegion s s.pc 4) (hw : Memory.readBytes s.mem s.pc.toNat 4 = w)
    (hd : decode s.cfg.trapWord6B w = .ok i) : s.fetch = .run i := by
  rw [fetch_of_bytes hs hr hw, hd]

/-- Settles O32: the fetch reads the word of the four bytes, finds the instruction, and the step runs it. -/
theorem stepRunsTheDecodedInstruction : Obligations.StepRunsTheDecodedInstruction := fun _ _ hs hr hd =>
  step_of_run (fetch_run_of_bytes hs hr (Memory.readBytes_word _ _) hd)

/-! ### A stopped engine (R102) -/

theorem step_of_stopped {s : State} (h : s.status ≠ .running) : step s = .next s := by
  rw [step, fetch_of_stopped h]

theorem run_of_stopped {s : State} (h : s.status ≠ .running) (k : Nat) : Sys2Proof.core.run k s = .next s := by
  induction k with
  | zero => exact run_zero s
  | succ k ih => exact (run_succ_of_step (step_of_stopped h) k).trans ih

/-- Settles O35: the step finds nothing to fetch, and a run repeats that step. -/
theorem stoppedEngineStaysAsItIs : Obligations.StoppedEngineStaysAsItIs := fun _ h =>
  ⟨step_of_stopped h, run_of_stopped h⟩

/-! ### The end of a run (R104) -/

/-- A run goes on from where its first k steps led. -/
theorem run_add {s t : State} {k : Nat} (h : Sys2Proof.core.run k s = .next t) (j : Nat) :
    Sys2Proof.core.run (k + j) s = Sys2Proof.core.run j t := by
  induction k generalizing s with
  | zero =>
    obtain rfl : s = t := Host.Outcome.next.inj h
    rw [Nat.zero_add]
  | succ k ih =>
    obtain ⟨u, hu⟩ := step_answers s
    rw [Nat.add_right_comm, run_succ_of_step hu]
    exact ih ((run_succ_of_step hu k).symm.trans h)

/-- A run does not stop before its end: the states before it are RUNNING. -/
theorem RunEnds.le {s t u : State} {k j : Nat} (ht : RunEnds s t k) (hu : RunEnds s u j) : k ≤ j := by
  obtain ⟨-, -, hrunning⟩ := ht
  obtain ⟨hrun, hstopped, -⟩ := hu
  by_contra hlt
  obtain ⟨v, hv, hvrunning⟩ := hrunning j (Nat.lt_of_not_le hlt)
  obtain rfl : u = v := Host.Outcome.next.inj (hrun.symm.trans hv)
  exact hstopped hvrunning

theorem RunEnds.unique {s t u : State} {k j : Nat} (ht : RunEnds s t k) (hu : RunEnds s u j) : u = t ∧ j = k := by
  obtain rfl : j = k := Nat.le_antisymm (hu.le ht) (ht.le hu)
  obtain ⟨htrun, -, -⟩ := ht
  obtain ⟨hurun, -, -⟩ := hu
  exact ⟨Host.Outcome.next.inj (hurun.symm.trans htrun), rfl⟩

/-- The end of a run is no longer RUNNING and, where the run is safe, not TRAPPED. -/
theorem RunEnds.halted {s t : State} {k : Nat} (ht : RunEnds s t k) (hsafe : SafeFor s k) : t.status = .halted := by
  obtain ⟨hrun, hstopped, -⟩ := ht
  obtain ⟨u, hu, huntrapped⟩ := hsafe k le_rfl
  obtain rfl : t = u := Host.Outcome.next.inj (hrun.symm.trans hu)
  cases hst : t.status with
  | running => exact absurd hst hstopped
  | halted => rfl
  | trapped c => exact absurd hst (huntrapped c)

/-- Settles O36: two ends come after the same number of steps, and from the end the engine stays as it is. -/
theorem runEndsInOneState : Obligations.RunEndsInOneState := by
  intro s t k h
  refine ⟨fun u j => h.unique, fun j => ?_, h.halted⟩
  obtain ⟨hrun, hstopped, -⟩ := h
  exact (run_add hrun j).trans (run_of_stopped hstopped j)

/-! ### The pc after a step (R103) -/

/-- Apart from a hand-over, an instruction goes on at its next pc, or it stops the engine where it stands. -/
theorem ExecCase.pc {i : Instr} {s t : State} (h : ExecCase i s t)
    (hno : i = .ecall → s.cfg.ecallHostGiven = false) :
    (t.status = s.status ∧ t.pc = nextPc s i) ∨ (t.status ≠ .running ∧ t.pc = s.pc) := by
  cases h with
  | wrote rd v _ hp ht => exact .inl (by simp [ht, hp])
  | linked rd _ _ ht => exact .inl (by simp [ht])
  | jumped _ _ ht => exact .inl (ht ▸ ⟨rfl, rfl⟩)
  | fell _ hp ht => exact .inl (ht ▸ ⟨rfl, hp.symm⟩)
  | stored a w v _ hp _ _ ht => exact .inl (ht ▸ ⟨rfl, hp.symm⟩)
  | halted ht => exact .inr (ht ▸ ⟨nofun, rfl⟩)
  | trapped c v ht => exact .inr (ht ▸ ⟨nofun, rfl⟩)
  | handed hi hh _ => exact absurd hh (by simp [hno hi])

/-- Settles O42: the instruction fetched goes on at its next pc with the engine RUNNING, or stops it. -/
theorem pcAdvancesByRule : Obligations.PcAdvancesByRule := by
  intro s t i hf hno h
  have hrunning : s.status = .running := fetch_running (by simp [hf])
  have hno' : i = .ecall → s.cfg.ecallHostGiven = false := fun hi =>
    Bool.eq_false_iff.mpr fun hh => hno ⟨hi ▸ hf, hh⟩
  rcases (exec_cases ((step_of_run hf).symm.trans h)).pc hno' with ⟨hstatus, hpc⟩ | ⟨hstopped, hpc⟩
  · exact ⟨fun _ => hpc, fun hne => absurd (hstatus.trans hrunning) hne⟩
  · exact ⟨fun hrun => absurd hrun hstopped, fun _ => hpc⟩

end Sys2Proof.Machine
end

section
/-! PROOFS. Proofs/Compute.lean: the computational instructions of spec/41_compute.md: their encodings, the
value each writes as integer or bitwise arithmetic, and that they change nothing but x[rd] and the pc. -/

namespace Sys2Proof

/-! ### Words decoded by what they encode (R62, R73, R74) -/

/-- A word that is the encoding of a well-formed instruction decodes to it. -/
theorem decode_of_encode_eq {b : Bool} {w : Word} {i : Instr} (hw : encode i = w) (hwf : i.wf = true)
    (hfmt : formatOf b i.fields.opcode = some i.fields.fmt) : decode b w = .ok i :=
  hw ▸ decode_encode hwf hfmt

/-- A word whose fields no entry of the dispatch table takes is rejected (R74). -/
theorem decode_error_of_no_entry {b : Bool} {w : Word}
    (h : ∀ e ∈ dispatchTable, e.opcode = opcodeOf w → agrees e.funct3 (funct3Of w) = true →
      agrees e.funct7 (funct7Of w) ≠ true) : ∃ err, decode b w = .error err := by
  cases hd : decode b w with
  | error err => exact ⟨err, rfl⟩
  | ok i =>
    obtain ⟨e, he, ho, h3, h7⟩ := entry_of_decode hd
    exact absurd h7 (h e he ho h3)

/-- SLLI has one funct7 (R128). -/
theorem decode_error_of_slli_funct7 {b : Bool} {w : Word} (ho : opcodeOf w = opImm) (h3 : funct3Of w = 1#3)
    (h7 : funct7Of w ≠ 0#7) : ∃ err, decode b w = .error err :=
  decode_error_of_no_entry fun e he heo he3 he7 => by
    rw [slli_entry e he (heo.trans ho) (h3 ▸ he3), agrees_some] at he7
    exact h7 he7.symm

/-- SRLI and SRAI have one funct7 each (R129, R130). -/
theorem decode_error_of_shiftRight_funct7 {b : Bool} {w : Word} (ho : opcodeOf w = opImm) (h3 : funct3Of w = 5#3)
    (h7 : funct7Of w ∉ [0#7, 0x20#7]) : ∃ err, decode b w = .error err :=
  decode_error_of_no_entry fun e he heo he3 he7 =>
    h7 (mem_of_agrees (shiftRight_entry e he (heo.trans ho) (h3 ▸ he3)) he7)

end Sys2Proof

namespace Sys2Proof.Machine

/-! ### The effect of an instruction that completes with a register write (R101, R103) -/

/-- The effect of such an instruction, with the value written in whatever form it is known to equal. -/
theorem exec_effect_of_completeReg {i : Instr} {s : State} {rd : Reg} {v v' : Word}
    (h : exec i s = s.completeReg rd v) (hv : v = v') :
    ∃ t, exec i s = .next t ∧ RegisterEffect s t rd v' (s.pc + 4) :=
  h ▸ hv ▸ completeReg_effect s rd v

/-- One value written to one register reads the same in both states, x0 included (R21). -/
theorem RegisterEffect.getReg_eq {s t s' t' : State} {rd : Reg} {v next next' : Word}
    (h : RegisterEffect s t rd v next) (h' : RegisterEffect s' t' rd v next') : t'.getReg rd = t.getReg rd := by
  by_cases hrd : rd = 0
  · subst hrd
    exact h'.zero.trans h.zero.symm
  · exact (h'.written hrd).trans (h.written hrd).symm

/-! ### LUI and AUIPC -/

/-- Settles O17: the word is LUI's encoding of its own fields, and LUI writes its immediate. -/
theorem luiSetsUpperImmediate : Obligations.LuiSetsUpperImmediate := by
  refine ⟨fun b w ho => ⟨?_, ?_⟩, fun s rd imm => exec_effect_of_completeReg rfl rfl⟩
  · exact decode_of_encode_eq (encodeFields_fieldsU ho) (fitsImmU_append _) rfl
  · obtain ⟨-, -, -, hU, -⟩ := immediateRanges w
    exact hU

/-- Settles O18: the word is AUIPC's encoding of its own fields, and AUIPC writes the sum. -/
theorem auipcAddsToPc : Obligations.AuipcAddsToPc :=
  ⟨fun _ _ ho => decode_of_encode_eq (encodeFields_fieldsU ho) (fitsImmU_append _) rfl,
    fun _ _ _ => exec_effect_of_completeReg rfl rfl⟩

/-! ### OP-IMM -/

/-- Settles O19: the comparisons are those of the integers, and the other results are the model's own. -/
theorem immediateOpsCompute : Obligations.ImmediateOpsCompute := by
  constructor
  · intro b w ho
    refine ⟨?_, ?_, ?_, ?_, ?_, ?_⟩ <;> intro h3 <;>
      exact decode_of_encode_eq (encodeFields_fieldsI ho h3) (fitsImm12_signExtend _) rfl
  · rintro s rd rs1 imm i v (⟨rfl, rfl⟩ | ⟨rfl, rfl⟩ | ⟨rfl, rfl⟩ | ⟨rfl, rfl⟩ | ⟨rfl, rfl⟩ | ⟨rfl, rfl⟩)
    · exact exec_effect_of_completeReg rfl rfl
    · exact exec_effect_of_completeReg rfl (boolWord_lessSigned _ _)
    · exact exec_effect_of_completeReg rfl (boolWord_lessUnsigned _ _)
    · exact exec_effect_of_completeReg rfl rfl
    · exact exec_effect_of_completeReg rfl rfl
    · exact exec_effect_of_completeReg rfl rfl

/-- Settles O20: the three funct7 values are encodings, no entry takes another, and a shift is a product or
a quotient. -/
theorem immediateShiftsCompute : Obligations.ImmediateShiftsCompute := by
  constructor
  · intro b w ho
    refine ⟨?_, ?_, ?_, decode_error_of_slli_funct7 ho, decode_error_of_shiftRight_funct7 ho⟩ <;> intro h3 h7 <;>
      exact decode_of_encode_eq (encodeFields_fieldsShift ho h3 h7) rfl rfl
  · rintro s rd rs1 shamt i v (⟨rfl, rfl⟩ | ⟨rfl, rfl⟩ | ⟨rfl, rfl⟩)
    · exact exec_effect_of_completeReg rfl (shiftLeft_eq _ _)
    · exact exec_effect_of_completeReg rfl (shiftRightLogical_eq _ _)
    · exact exec_effect_of_completeReg rfl (shiftRightArith_eq _ _)

/-! ### OP -/

/-- Settles O21: as for OP-IMM, both operands read before the write. -/
theorem registerOpsCompute : Obligations.RegisterOpsCompute := by
  constructor
  · intro b w ho
    refine ⟨?_, ?_, ?_, ?_, ?_, ?_, ?_⟩ <;> intro h7 h3 <;>
      exact decode_of_encode_eq (encodeFields_fieldsR ho h3 h7) rfl rfl
  · rintro s rd rs1 rs2 i v
      (⟨rfl, rfl⟩ | ⟨rfl, rfl⟩ | ⟨rfl, rfl⟩ | ⟨rfl, rfl⟩ | ⟨rfl, rfl⟩ | ⟨rfl, rfl⟩ | ⟨rfl, rfl⟩)
    · exact exec_effect_of_completeReg rfl rfl
    · exact exec_effect_of_completeReg rfl rfl
    · exact exec_effect_of_completeReg rfl (boolWord_lessSigned _ _)
    · exact exec_effect_of_completeReg rfl (boolWord_lessUnsigned _ _)
    · exact exec_effect_of_completeReg rfl rfl
    · exact exec_effect_of_completeReg rfl rfl
    · exact exec_effect_of_completeReg rfl rfl

/-- Settles O22: as for the immediate shifts, the amount being x[rs2] modulo 32. -/
theorem registerShiftsCompute : Obligations.RegisterShiftsCompute := by
  constructor
  · intro b w ho
    refine ⟨?_, ?_, ?_⟩ <;> intro h7 h3 <;>
      exact decode_of_encode_eq (encodeFields_fieldsR ho h3 h7) rfl rfl
  · rintro s rd rs1 rs2 i v (⟨rfl, rfl⟩ | ⟨rfl, rfl⟩ | ⟨rfl, rfl⟩) <;> rw [← shiftAmount_toNat]
    · exact exec_effect_of_completeReg rfl (shiftLeft_eq _ _)
    · exact exec_effect_of_completeReg rfl (shiftRightLogical_eq _ _)
    · exact exec_effect_of_completeReg rfl (shiftRightArith_eq _ _)

/-! ### Every computational instruction (R141) -/

/-- A computational instruction completes with a write of its destination, and the value is a function of the
state in which memory has no part. -/
theorem exec_of_isCompute {i : Instr} (h : isCompute i = true) :
    ∃ (rd : Reg) (value : State → Word), dest i = some rd ∧ (∀ s, exec i s = s.completeReg rd (value s)) ∧
      ∀ (s : State) (m : Memory), value { s with mem := m } = value s := by
  cases i with
  | lui | auipc => exact ⟨_, _, rfl, fun _ => rfl, fun _ _ => rfl⟩
  | addi | slti | sltiu | xori | ori | andi => exact ⟨_, _, rfl, fun _ => rfl, fun _ _ => rfl⟩
  | slli | srli | srai => exact ⟨_, _, rfl, fun _ => rfl, fun _ _ => rfl⟩
  | add | sub | sll | slt | sltu | xor | srl | sra | or | and => exact ⟨_, _, rfl, fun _ => rfl, fun _ _ => rfl⟩
  | _ => nomatch h

/-- Settles O23: the completion of the instruction, in the state and in the one with another memory. -/
theorem computeWritesOnlyItsRegister : Obligations.ComputeWritesOnlyItsRegister := by
  intro i s h
  obtain ⟨rd, value, hd, hexec, hmem⟩ := exec_of_isCompute h
  obtain ⟨t, ht, het⟩ := exec_effect_of_completeReg (hexec s) rfl
  refine ⟨t, rd, value s, ht, hd, het, fun m => ?_⟩
  obtain ⟨u, hu, heu⟩ := exec_effect_of_completeReg (hexec { s with mem := m }) (hmem s m)
  exact ⟨u, hu, het.getReg_eq heu⟩

end Sys2Proof.Machine
end

section
/-! PROOFS. Proofs/Control.lean: the control transfers of spec/42_control.md: their encodings, the jumps and
their links, the branch conditions, and which targets are misaligned. -/

namespace Sys2Proof

/-! ### Misaligned targets (R168) -/

/-- Of an even word, bit 1 alone decides whether it is a multiple of four. -/
theorem misaligned_iff_bit_one {x : Word} (hx : x.toNat % 2 = 0) : x.toNat % 4 ≠ 0 ↔ x.getLsbD 1 = true := by
  rw [BitVec.getLsbD, Nat.testBit_eq_decide_div_mod_eq, decide_eq_true_iff]
  omega

theorem aligned_iff_bit_one {x : Word} (hx : x.toNat % 2 = 0) : x.toNat % 4 = 0 ↔ x.getLsbD 1 = false := by
  rw [← Bool.not_eq_true, ← misaligned_iff_bit_one hx, not_not]

/-- An aligned pc adds nothing to the bits 1:0 of the target. -/
theorem pc_add_mod_four {pc imm : Word} (hpc : pc.toNat % 4 = 0) : (pc + imm).toNat % 4 = imm.toNat % 4 := by
  rw [BitVec.toNat_add]
  omega

/-- A value with a 0 below it stays even under sign extension. -/
theorem signExtend_append_zero_even {n : Nat} (v : BitVec n) (hn : n + 1 ≤ 32) :
    ((v ++ 0#1).signExtend 32).toNat % 2 = 0 := by
  have hlow : ((v ++ 0#1).signExtend 32).extractLsb' 0 1 = 0#1 := by
    rw [extract_signExtend _ (by omega) hn, BitVec.extractLsb'_append_eq_right]
  have hbit := congrArg BitVec.toNat hlow
  rwa [toNat_extract_eq, BitVec.toNat_zero, Nat.pow_zero, Nat.div_one] at hbit

/-- J-immediates are even (R68). -/
theorem immJ_even (w : Word) : (immJ w).toNat % 2 = 0 := signExtend_append_zero_even _ (by decide)

/-- B-immediates are even (R66). -/
theorem immB_even (w : Word) : (immB w).toNat % 2 = 0 := signExtend_append_zero_even _ (by decide)

/-- From an aligned pc an even displacement misses alignment by its bit 1 alone (R160, R162). -/
theorem target_misaligned_iff {pc imm : Word} (hpc : pc.toNat % 4 = 0) (himm : imm.toNat % 2 = 0) :
    (pc + imm).toNat % 4 ≠ 0 ↔ imm.getLsbD 1 = true := by
  rw [pc_add_mod_four hpc, misaligned_iff_bit_one himm]

end Sys2Proof

namespace Sys2Proof.Machine

/-! ### JAL and JALR -/

/-- Settles O24: the word is JAL's encoding of its own fields, and `transfer` links and jumps or traps. -/
theorem jalLinksAndJumps : Obligations.JalLinksAndJumps := by
  refine ⟨fun b w ho => ?_, fun s rd imm => ⟨fun ha => ?_, fun ha => ?_⟩, fun pc w hpc => ?_⟩
  · exact decode_of_encode_eq (encodeFields_fieldsJ ho) (fitsImmJ_signExtend _) rfl
  · exact transfer_link_effect s rd s.link ha
  · exact transfer_traps s _ ha
  · exact target_misaligned_iff hpc (immJ_even w)

/-- Bit 0 of a JALR target is 0, so bit 1 decides (R161). -/
theorem jalrTarget_even (s : State) (rs1 : Reg) (imm : Word) : (s.jalrTarget rs1 imm).toNat % 2 = 0 := by
  rw [jalrTarget_eq, BitVec.toNat_ofNat]
  omega

/-- Settles O25: as for JAL, to the target with bit 0 cleared, read from the old x[rs1]. -/
theorem jalrLinksAndJumps : Obligations.JalrLinksAndJumps := by
  refine ⟨fun b w ho h3 => ?_, fun s rd rs1 imm t ht => ?_⟩
  · exact decode_of_encode_eq (encodeFields_fieldsI ho h3) (fitsImm12_signExtend _) rfl
  · obtain rfl : s.jalrTarget rs1 imm = t := (jalrTarget_eq s rs1 imm).trans ht.symm
    have heven := jalrTarget_even s rs1 imm
    constructor
    · exact fun hbit => transfer_link_effect s rd s.link ((aligned_iff_bit_one heven).mpr hbit)
    · exact fun hbit => transfer_traps s _ ((misaligned_iff_bit_one heven).mpr hbit)

/-! ### The branches -/

theorem equalWords_iff (a b : Word) : equalWords a b = true ↔ a = b := beq_iff_eq

/-- The complement of a comparison holds exactly when the comparison does not. -/
theorem complement_iff {taken : Bool} {p q : Prop} (h : taken = true ↔ p) (hq : ¬ p ↔ q) : (!taken) = true ↔ q := by
  rw [Bool.not_eq_true', ← Bool.not_eq_true, h, hq]

/-- What a branch does, with its condition in whatever form it is known to equal: taken to an aligned target,
taken to a misaligned one, not taken with no look at the target. -/
theorem exec_effect_of_branch {i : Instr} {s : State} {taken : Bool} {imm : Word} {p c : Prop}
    (h : exec i s = s.branch taken imm) (htaken : taken = true ↔ p) (hc : c ↔ p) :
    (c → (s.pc + imm).toNat % 4 = 0 → ∃ t, exec i s = .next t ∧ PcEffect s t (s.pc + imm)) ∧
    (c → (s.pc + imm).toNat % 4 ≠ 0 → ∃ t, exec i s = .next t ∧ TrapEffect s t .misalignedPc (s.pc + imm)) ∧
    (¬ c → ∃ t, exec i s = .next t ∧ PcEffect s t (s.pc + 4)) := by
  rw [h, hc, ← htaken]
  refine ⟨fun hb ha => ?_, fun hb ha => ?_, fun hb => ?_⟩
  · subst hb
    exact transfer_effect s ha
  · subst hb
    exact transfer_traps s s ha
  · obtain rfl : taken = false := Bool.not_eq_true _ ▸ hb
    exact branch_not_taken s imm

/-- Settles O26: the word is the branch's encoding of its own fields, and each condition is the comparison of
the operands as words or as integers. -/
theorem branchesFollowTheirCondition : Obligations.BranchesFollowTheirCondition := by
  refine ⟨fun b w ho => ?_, ?_, fun pc w hpc => target_misaligned_iff hpc (immB_even w)⟩
  · refine ⟨?_, ?_, ?_, ?_, ?_, ?_⟩ <;> intro h3 <;>
      exact decode_of_encode_eq (encodeFields_fieldsB ho h3) (fitsImmB_signExtend _) rfl
  · rintro s rs1 rs2 imm i c
      (⟨rfl, hc⟩ | ⟨rfl, hc⟩ | ⟨rfl, hc⟩ | ⟨rfl, hc⟩ | ⟨rfl, hc⟩ | ⟨rfl, hc⟩)
    · exact exec_effect_of_branch rfl (equalWords_iff _ _) hc
    · exact exec_effect_of_branch rfl (complement_iff (equalWords_iff _ _) Iff.rfl) hc
    · exact exec_effect_of_branch rfl (lessSigned_iff _ _) hc
    · exact exec_effect_of_branch rfl (complement_iff (lessSigned_iff _ _) Int.not_lt) hc
    · exact exec_effect_of_branch rfl (lessUnsigned_iff _ _) hc
    · exact exec_effect_of_branch rfl (complement_iff (lessUnsigned_iff _ _) Nat.not_lt) hc

end Sys2Proof.Machine
end

section
/-! PROOFS. Proofs/Trap.lean: the `inv` and `nemu_trap` handlers of spec/43_inv_trap.md: a rejected word traps,
and EBREAK and the trap word halt for good. -/

namespace Sys2Proof

/-- Every word with opcode 1101011 is the trap word of its own fields, where TRAP_WORD_6B is true (R78). -/
theorem decode_trapWord {w : Word} (ho : opcodeOf w = opTrapWord) :
    decode true w = .ok (.nemuTrap (funct7Of w) (rs2Of w) (rs1Of w) (funct3Of w) (rdOf w)) :=
  decode_of_encode_eq (encodeFields_fieldsR ho rfl rfl) rfl rfl

/-- EBREAK's word does not depend on TRAP_WORD_6B (R212). -/
theorem decode_ebreak (b : Bool) : decode b 0x00100073#32 = .ok .ebreak :=
  decode_of_encode_eq encode_ebreak rfl rfl

end Sys2Proof

namespace Sys2Proof.Machine

/-- An instruction that runs `nemu_trap` halts with x[EXIT_REG], and a halted engine steps to itself
(R102, R181). -/
theorem exec_effect_of_nemuTrap {i : Instr} {s : State} (h : exec i s = s.nemuTrap) :
    ∃ t, exec i s = .next t ∧ HaltEffect s t (s.getReg 10) ∧ step t = .next t := by
  have heffect := halt_effect s (s.getReg 10)
  have hstopped : (s.halt (s.getReg 10)).status ≠ .running := fun hrun =>
    nomatch heffect.status.symm.trans hrun
  exact ⟨_, h, heffect, step_of_stopped hstopped⟩

/-- Settles O31: each word is the encoding of its instruction, and both instructions run `nemu_trap`. -/
theorem nemuTrapHaltsWithExitRegister : Obligations.NemuTrapHaltsWithExitRegister :=
  ⟨decode_ebreak, fun _ ho => ⟨_, _, _, _, _, decode_trapWord ho⟩,
    fun _ => exec_effect_of_nemuTrap rfl, fun _ _ _ _ _ _ => exec_effect_of_nemuTrap rfl⟩

/-- Settles O33: the fetch reads the word of the four bytes, the decoder rejects it, and the step raises. -/
theorem illegalWordTraps : Obligations.IllegalWordTraps := fun _ _ e hs hr hw he =>
  step_of_rejected ⟨e, he⟩ hs hr ((Memory.readBytes_word _ _).trans hw.symm)

end Sys2Proof.Machine
end

section
/-! PROOFS. Proofs/LoadStore.lean: the loads and stores of spec/44_load_store.md: their encodings, the bytes
they read or write at any alignment, and the trap outside the region. -/

namespace Sys2Proof.Machine

/-! ### The loads -/

/-- What a load does, with the value it writes in whatever form it is known to equal: inside the region the
register write, outside it the trap, x0 no exception (R201). -/
theorem exec_effect_of_load {i : Instr} {s : State} {w : Width} {ea v : Word} {extend : Word → Word} {rd : Reg}
    (h : exec i s = s.load w ea extend rd) (hv : extend (Memory.readBytes s.mem ea.toNat w.bytes) = v) :
    (InRegion s ea w.bytes → ∃ t, exec i s = .next t ∧ RegisterEffect s t rd v (s.pc + 4)) ∧
    (¬ InRegion s ea w.bytes → ∃ t, exec i s = .next t ∧ TrapEffect s t .memFault ea) :=
  h ▸ hv ▸ ⟨load_effect extend rd, load_traps extend rd⟩

/-- Settles O27: the word is the load's encoding of its own fields, and the value extended is that of the bytes
read. -/
theorem loadsExtendTheBytes : Obligations.LoadsExtendTheBytes := by
  constructor
  · intro b w ho
    refine ⟨?_, ?_, ?_, ?_, ?_⟩ <;> intro h3 <;>
      exact decode_of_encode_eq (encodeFields_fieldsI ho h3) (fitsImm12_signExtend _) rfl
  · rintro s rd rs1 imm i n v
      (⟨rfl, rfl, rfl⟩ | ⟨rfl, rfl, rfl⟩ | ⟨rfl, rfl, rfl⟩ | ⟨rfl, rfl, rfl⟩ | ⟨rfl, rfl, rfl⟩)
    · exact exec_effect_of_load (w := .byte) rfl (congrArg (·.signExtend 32) (Memory.readBytes_low8 _ _))
    · exact exec_effect_of_load (w := .byte) rfl (congrArg (·.setWidth 32) (Memory.readBytes_low8 _ _))
    · exact exec_effect_of_load (w := .half) rfl (congrArg (·.signExtend 32) (Memory.readBytes_low16 _ _))
    · exact exec_effect_of_load (w := .half) rfl (congrArg (·.setWidth 32) (Memory.readBytes_low16 _ _))
    · exact exec_effect_of_load (w := .word) rfl (Memory.readBytes_word _ _)

/-! ### The stores -/

/-- What a store does: inside the region it writes the low bytes of the value, outside it traps with no byte
written. -/
theorem exec_effect_of_store {i : Instr} {s : State} {w : Width} {ea v : Word} (h : exec i s = s.store w ea v) :
    (Memory.wf s.mem → InRegion s ea w.bytes → ∃ t, exec i s = .next t ∧ StoreEffect s t ea w.bytes v) ∧
    (¬ InRegion s ea w.bytes → ∃ t, exec i s = .next t ∧ TrapEffect s t .memFault ea) :=
  h ▸ ⟨store_effect v, store_traps v⟩

/-- Settles O28: the word is the store's encoding of its own fields, and the bytes written are the low bytes of
x[rs2]. -/
theorem storesPutTheLowBytes : Obligations.StoresPutTheLowBytes := by
  constructor
  · intro b w ho
    refine ⟨?_, ?_, ?_⟩ <;> intro h3 <;>
      exact decode_of_encode_eq (encodeFields_fieldsS ho h3) (fitsImm12_signExtend _) rfl
  · rintro s rs1 rs2 imm i n (⟨rfl, rfl⟩ | ⟨rfl, rfl⟩ | ⟨rfl, rfl⟩)
    · exact exec_effect_of_store (w := .byte) rfl
    · exact exec_effect_of_store (w := .half) rfl
    · exact exec_effect_of_store (w := .word) rfl

end Sys2Proof.Machine
end

section
/-! PROOFS. Proofs/System.lean: the ECALL of spec/45_system.md: its encoding, the trap without ECALL_HOST, and
the hand-over with it, whose state is the drawn answer field by field. -/

namespace Sys2Proof

/-- ECALL's word does not depend on TRAP_WORD_6B (R211). -/
theorem decode_ecall (b : Bool) : decode b 0x00000073#32 = .ok .ecall :=
  decode_of_encode_eq encode_ecall rfl rfl

end Sys2Proof

namespace Sys2Proof.Machine

theorem exec_ecall_of_no_host {s : State} (h : s.cfg.ecallHostGiven = false) :
    exec .ecall s = .next (s.raise .ecall 0#32) := by
  rw [exec, execEcall, if_neg (Bool.not_eq_true _ ▸ h), State.trap]

theorem exec_ecall_of_host {s : State} (h : s.cfg.ecallHostGiven = true) :
    exec .ecall s = .next s.handOver := by
  rw [exec, execEcall, if_pos h]

/-- After a hand-over x(k+1) is the answer's register at index k (R20, R211). -/
theorem State.getReg_handOver (s : State) {k : Nat} (hk : k < 31) :
    s.handOver.getReg (BitVec.ofNat 5 (k + 1)) = (Config.ecallHost s.hostDraws s).gpr[k] := by
  rw [State.getReg_ofNat_succ _ hk]
  simp only [State.handOver, State.applyAnswer_gpr]

/-- Settles O30: without a host the handler raises, with one the next state is the hand-over, and each of its
fields is the answer's. -/
theorem ecallTrapsOrIsHandedOver : Obligations.EcallTrapsOrIsHandedOver := by
  refine ⟨decode_ecall, fun s => ⟨fun hno => ?_, fun hgiven => ?_⟩⟩
  · exact ⟨_, exec_ecall_of_no_host hno, raise_effect s .ecall 0⟩
  · exact ⟨s.handOver, _, exec_ecall_of_host hgiven, rfl, fun _ hk => s.getReg_handOver hk, rfl, rfl, rfl, rfl, rfl,
      s.handOver_cfg, s.handOver_hostDraws⟩

end Sys2Proof.Machine
end

section
/-! PROOFS. Proofs/Tokenizer.lean: the tokenizer of spec/46_expr_tokenizer.md: what the scan of any text does,
as a relation to induct on; the text of the tokens and the offset of a failure; a lexeme at the head of a text;
and the values of the tokens that stand alone. -/

namespace Sys2Proof.Machine

/-! ### The characters of a lexeme (R222) -/

/-- The characters of a class that has neither the space nor the tab are no blanks. -/
theorem chars_not_blank {cls : Byte → Bool} {chars : String} (hcls : ∀ b, cls b = true ↔ b ∈ bytesOf chars)
    (hspace : cls 0x20#8 = false) (htab : cls 0x09#8 = false) : ∀ b ∈ bytesOf chars, isBlank b = false := by
  intro b hb
  have hb := (hcls b).mpr hb
  refine Bool.eq_false_iff.mpr fun hblank => ?_
  rcases (show b = 0x20#8 ∨ b = 0x09#8 by simpa [isBlank] using hblank) with rfl | rfl
  · exact absurd hb (Bool.eq_false_iff.mp hspace)
  · exact absurd hb (Bool.eq_false_iff.mp htab)

/-- No lexeme holds a blank. -/
theorem isFor_not_blank {tag : TokenTag} {m : List Byte} (h : tag.isFor m) : ∀ b ∈ m, isBlank b = false := by
  cases tag <;> simp only [TokenTag.isFor] at h
  case hex =>
    obtain ⟨ds, ⟨_, hds⟩, rfl⟩ := h
    exact List.forall_mem_append.mpr ⟨by decide, fun b hb => chars_not_blank isHexDigit_iff rfl rfl b (hds b hb)⟩
  case reg =>
    obtain ⟨name, ⟨_, hname⟩, rfl⟩ := h
    exact List.forall_mem_append.mpr ⟨by decide, fun b hb => chars_not_blank isNameByte_iff rfl rfl b (hname b hb)⟩
  case dec => exact fun b hb => chars_not_blank isDigit_iff rfl rfl b (h.2 b hb)
  all_goals subst h; decide

/-! ### The scan as a relation (R223, R224) -/

/-- What the scan of a text from an offset on can give: at the head of a text that is not empty it fails there,
passes over a run of blanks, or takes a lexeme, whose token stands before those of the rest. Why a failure
comes is not recorded. -/
inductive Scanned : List Byte → Nat → Except EvalFailure (List Token) → Prop
  | finished (pos : Nat) : Scanned [] pos (.ok [])
  | failed {text : List Byte} {pos : Nat} (hne : text ≠ []) : Scanned text pos (.error (.lexError pos))
  | blanks {m rest : List Byte} {pos : Nat} {result : Except EvalFailure (List Token)}
      (hm : ∀ b ∈ m, isBlank b = true) (hrest : Scanned rest (pos + m.length) result) : Scanned (m ++ rest) pos result
  | lexeme {tag : TokenTag} {m rest : List Byte} {pos : Nat} {toks : List Token} (hm : tag.isFor m)
      (hlen : m.length ≤ 31) (hrest : Scanned rest (pos + m.length) (.ok toks)) :
      Scanned (m ++ rest) pos (.ok (⟨tag, m⟩ :: toks))
  | lexemeFailed {m rest : List Byte} {pos : Nat} {e : EvalFailure}
      (hrest : Scanned rest (pos + m.length) (.error e)) : Scanned (m ++ rest) pos (.error e)

/-- Whitespace alone emits no tag (R222). -/
theorem emits_eq_none_iff (r : LexRule) : r.emits = none ↔ r = .whitespace := by
  cases r <;> decide

/-- The text at its head's match: the bytes matched, and the rest. -/
theorem exists_split_of_firstRule {t : List Byte} {r : LexRule} (h : firstRule t = some r) :
    ∃ m rest, t = m ++ rest ∧ m ≠ [] ∧ r.matchLen (m ++ rest) = m.length ∧ (∀ tag, r.emits = some tag → tag.isFor m) ∧
      (r.emits = none → ∀ b ∈ m, isBlank b = true) := by
  obtain ⟨h0, htag⟩ := firstRule_sound h
  have hlen : (t.take (r.matchLen t)).length = r.matchLen t := by
    rw [List.length_take, Nat.min_eq_left (matchLen_le t r)]
  refine ⟨t.take (r.matchLen t), t.drop (r.matchLen t), (List.take_append_drop _ t).symm, ?_, ?_, htag, ?_⟩
  · rwa [← List.length_pos_iff, hlen, Nat.pos_iff_ne_zero]
  · rw [List.take_append_drop, hlen]
  · intro hnone
    rw [(emits_eq_none_iff r).mp hnone, LexRule.matchLen, take_greedyLen]
    exact mem_takeWhile

theorem scan_scanned (text : List Byte) (pos : Nat) : Scanned text pos (scan text pos 0) := by
  match text with
  | [] => exact .finished pos
  | c :: t =>
    cases hf : firstRule (c :: t) with
    | none =>
      rw [scan, hf]
      exact .failed (List.cons_ne_nil c t)
    | some r =>
      obtain ⟨m, rest, heq, hm, hlen, htag, hblank⟩ := exists_split_of_firstRule hf
      have hshorter : rest.length < (c :: t).length := by
        rw [heq, List.length_append]
        exact Nat.lt_add_of_pos_left (List.length_pos_iff.mpr hm)
      have ih := scan_scanned rest (pos + m.length)
      have hne : m ++ rest ≠ [] := heq ▸ List.cons_ne_nil c t
      rw [heq] at hf ⊢
      rw [scan_match hf hlen hm]
      cases he : r.emits with
      | none => exact .blanks (hblank he) ih
      | some tag =>
        by_cases hlong : m.length > Config.tokenTextMax
        · simp only [if_pos hlong]
          exact .failed hne
        · simp only [if_neg hlong]
          cases hs : scan rest (pos + m.length) 0 with
          | error e => exact .lexemeFailed (hs ▸ ih)
          | ok toks => exact .lexeme (htag tag he) (Nat.le_of_not_lt hlong) (hs ▸ ih)
termination_by text.length
decreasing_by exact hshorter

/-! ### The tokens and the text -/

theorem Scanned.token_texts {text : List Byte} {pos : Nat} {result : Except EvalFailure (List Token)}
    (h : Scanned text pos result) : ∀ toks, result = .ok toks →
    (∀ t ∈ toks, 1 ≤ t.text.length ∧ t.text.length ≤ 31 ∧ t.tag.isFor t.text) ∧
      (toks.map (·.text)).flatten = text.filter fun b => !isBlank b := by
  induction h with
  | finished =>
    rintro toks ⟨⟩
    exact ⟨List.forall_mem_nil _, rfl⟩
  | failed => exact fun toks htoks => nomatch htoks
  | lexemeFailed => exact fun toks htoks => nomatch htoks
  | @blanks m _ _ _ hm _ ih =>
    intro toks htoks
    obtain ⟨htokens, htext⟩ := ih toks htoks
    have hnone : m.filter (fun b => !isBlank b) = [] := List.filter_eq_nil_iff.mpr fun b hb => by simp [hm b hb]
    exact ⟨htokens, by rw [List.filter_append, hnone, List.nil_append, htext]⟩
  | @lexeme tag m rest pos toks' hm hlen _ ih =>
    rintro _ ⟨⟩
    obtain ⟨htokens, htext⟩ := ih toks' rfl
    have hall : m.filter (fun b => !isBlank b) = m :=
      List.filter_eq_self.mpr fun b hb => by simp [isFor_not_blank hm b hb]
    refine ⟨List.forall_mem_cons.mpr ⟨⟨List.length_pos_iff.mpr (isFor_ne_nil hm), hlen, hm⟩, htokens⟩, ?_⟩
    rw [List.filter_append, hall, List.map_cons, List.flatten_cons, htext]

theorem Scanned.error_offset {text : List Byte} {pos : Nat} {result : Except EvalFailure (List Token)}
    (h : Scanned text pos result) : ∀ e, result = .error e → ∃ p, e = .lexError p ∧ p < pos + text.length := by
  induction h with
  | finished => exact fun e he => nomatch he
  | lexeme => exact fun e he => nomatch he
  | failed hne =>
    rintro _ ⟨⟩
    exact ⟨_, rfl, Nat.lt_add_of_pos_right (List.length_pos_iff.mpr hne)⟩
  | blanks _ _ ih | lexemeFailed _ ih =>
    intro e he
    obtain ⟨p, hp, hlt⟩ := ih e he
    exact ⟨p, hp, by rwa [List.length_append, ← Nat.add_assoc]⟩

/-- Settles O52: by induction on what the scan does, from offset 0. -/
theorem lexErrorOffsetIsInsideTheText : Obligations.LexErrorOffsetIsInsideTheText := by
  intro text e h
  simpa using (scan_scanned text 0).error_offset e h

/-! ### A lexeme or a blank at the head of a text (R223, R224) -/

/-- No rule matches at an `x`, so a text whose scan succeeds does not begin with one. -/
theorem head?_ne_x_of_tokenize {rest : List Byte} {toks : List Token} (h : tokenize rest = .ok toks) :
    rest.head? ≠ some 0x78#8 := by
  rintro hx
  obtain ⟨t, rfl⟩ := List.head?_eq_some_iff.mp hx
  obtain ⟨r, hr⟩ := firstRule_of_scan h
  obtain ⟨h0, -⟩ := firstRule_sound hr
  cases r <;> exact h0 rfl

/-- A step of the scan at a lexeme that the text after it does not lengthen: its token, or LexError if it is
too long. -/
theorem scan_lexeme {tag : TokenTag} {m rest : List Byte} {pos : Nat} (h : tag.isFor m)
    (hend : ∀ b ∈ rest.head?, b ∉ bytesOf tag.moreChars) (hx : rest.head? ≠ some 0x78#8) :
    scan (m ++ rest) pos 0 =
      if 31 < m.length then .error (.lexError pos)
      else (scan rest (pos + m.length) 0).map (⟨tag, m⟩ :: ·) := by
  obtain ⟨r, hf, he, hlen⟩ := firstRule_of_isFor h hend hx
  rw [scan_match hf hlen (isFor_ne_nil h), he]
  cases scan rest (pos + m.length) 0 <;> rfl

theorem tokenize_lexeme_append {tag : TokenTag} {m rest : List Byte} {toks : List Token} (h : tag.isFor m)
    (hlen : m.length ≤ 31) (hend : ∀ b ∈ rest.head?, b ∉ bytesOf tag.moreChars) (hrest : tokenize rest = .ok toks) :
    tokenize (m ++ rest) = .ok (⟨tag, m⟩ :: toks) := by
  rw [tokenize, scan_lexeme h hend (head?_ne_x_of_tokenize hrest), if_neg (Nat.not_lt.mpr hlen), scan_offset hrest]
  rfl

theorem tokenize_lexeme {tag : TokenTag} {m : List Byte} (h : tag.isFor m) (hlen : m.length ≤ 31) :
    tokenize m = .ok [⟨tag, m⟩] := by
  simpa using tokenize_lexeme_append (rest := []) h hlen (fun _ hb => nomatch hb) rfl

theorem tokenize_long_lexeme {tag : TokenTag} {m : List Byte} (h : tag.isFor m) (hlen : 32 ≤ m.length) :
    tokenize m = .error (.lexError 0) := by
  have hscan := scan_lexeme (rest := []) (pos := 0) h (fun _ hb => nomatch hb) (fun hx => nomatch hx)
  rwa [if_pos (show 31 < m.length from hlen), List.append_nil] at hscan

/-- The scan passes over a whole run of blanks. -/
theorem scan_blanks {m rest : List Byte} (hm : ∀ b ∈ m, isBlank b = true) (hend : ∀ b ∈ rest.head?, isBlank b = false)
    (pos : Nat) : scan (m ++ rest) pos 0 = scan rest (pos + m.length) 0 := by
  cases m with
  | nil => rfl
  | cons b m =>
    have hlen : LexRule.whitespace.matchLen (b :: m ++ rest) = (b :: m).length := greedyLen_run hm hend
    have hf : firstRule (b :: m ++ rest) = some .whitespace :=
      firstRule_eq 0 rfl (fun _ hq => nomatch hq) (by rw [hlen]; exact Nat.succ_ne_zero _)
    exact scan_match hf hlen (List.cons_ne_nil b m)

theorem tokenize_blank_cons {b : Byte} {rest : List Byte} {toks : List Token} (hb : isBlank b = true)
    (h : tokenize rest = .ok toks) : tokenize (b :: rest) = .ok toks := by
  have hsplit : rest.takeWhile isBlank ++ rest.dropWhile isBlank = rest := List.takeWhile_append_dropWhile
  have hend : ∀ c ∈ (rest.dropWhile isBlank).head?, isBlank c = false := fun c hc => by
    have hnot := List.head?_dropWhile_not isBlank rest
    rw [Option.mem_def.mp hc] at hnot
    exact hnot
  rw [← hsplit, tokenize, scan_blanks mem_takeWhile hend] at h
  rw [← hsplit, tokenize, ← List.cons_append, scan_blanks (List.forall_mem_cons.mpr ⟨hb, mem_takeWhile⟩) hend]
  exact scan_offset h _

/-- Settles O51: the tokens of any text by induction on what the scan does; a lexeme and a blank at the head
by one step of it. -/
theorem tokensAreTheText : Obligations.TokensAreTheText := by
  refine ⟨fun text toks h => (scan_scanned text 0).token_texts toks h, fun rest toks h => ⟨?_, fun b hb => ?_⟩⟩
  · exact fun _ _ hm hlen hend => tokenize_lexeme_append hm hlen hend h
  · exact tokenize_blank_cons (by simpa [isBlank] using hb) h

/-! ### Numerals (R257) -/

/-- A digit character, in either case, has its digit's value, and is a decimal digit below 10. -/
theorem digit_char {d : Nat} {b : Byte}
    (h : (bytesOf lowerDigits)[d]? = some b ∨ (bytesOf upperDigits)[d]? = some b) :
    digitValue b = d ∧ (d < 10 → isDigit b = true) := by
  have table : ∀ p ∈ (bytesOf lowerDigits).zipIdx ++ (bytesOf upperDigits).zipIdx,
      digitValue p.1 = p.2 ∧ (p.2 < 10 → isDigit p.1 = true) := by decide
  exact table (b, d) (List.mem_append.mpr
    (h.imp List.mk_mem_zipIdx_iff_getElem?.mpr List.mk_mem_zipIdx_iff_getElem?.mpr))

/-- The bytes of a numeral, read from the left, have the value of its digits. -/
theorem digitsValue_eq_ofDigits {base : Nat} {digits : List Nat} {m : List Byte}
    (h : isNumeral base digits m) : digitsValue base m = Nat.ofDigits base digits.reverse := by
  have hfold : ∀ acc : Nat, m.foldl (fun n b => n * base + digitValue b) acc =
      digits.foldl (fun n d => d + base * n) acc := by
    obtain ⟨-, hall⟩ := h
    induction hall with
    | nil => exact fun _ => rfl
    | cons hd _ ih =>
      intro acc
      rw [List.foldl_cons, List.foldl_cons, ih, (digit_char hd.2).1, Nat.add_comm, Nat.mul_comm]
  rw [digitsValue, hfold, Nat.ofDigits_eq_foldr, List.foldr_reverse]
  rfl

/-- A numeral is made of the digit characters of its base. -/
theorem isNumeral.madeOf {base : Nat} {digits : List Nat} {m : List Byte} {chars : String}
    (hchars : ∀ d < base, ∀ b : Byte,
      (bytesOf lowerDigits)[d]? = some b ∨ (bytesOf upperDigits)[d]? = some b → b ∈ bytesOf chars)
    (h : isNumeral base digits m) : madeOf chars m := by
  obtain ⟨hne, hall⟩ := h
  refine ⟨fun hm => hne ?_, fun b hb => ?_⟩
  · subst hm
    exact List.forall₂_nil_right_iff.mp hall
  · obtain ⟨k, hk, rfl⟩ := List.getElem_of_mem hb
    obtain ⟨hd, hdigit⟩ := hall.get (hall.length_eq ▸ hk) hk
    exact hchars _ hd _ hdigit

theorem isNumeral.isFor_hex {digits : List Nat} {m : List Byte} (h : isNumeral 16 digits m) :
    TokenTag.hex.isFor (bytesOf "0x" ++ m) := by
  refine ⟨m, h.madeOf fun d _ b hb => ?_, rfl⟩
  rw [bytesOf, String.toList_append, List.map_append]
  exact List.mem_append.mpr (hb.imp List.mem_of_getElem? List.mem_of_getElem?)

theorem isNumeral.isFor_dec {digits : List Nat} {m : List Byte} (h : isNumeral 10 digits m) :
    TokenTag.dec.isFor m :=
  h.madeOf fun _ hd b hb => (isDigit_iff b).mp ((digit_char hb).2 hd)

/-! ### A single token (R257, R259) -/

theorem evaluate_of_tokenize_error {s : State} {text : List Byte} {e : EvalFailure} (h : tokenize text = .error e) :
    evaluate s text = .error e := by
  rw [evaluate, h]

theorem evaluate_long_lexeme {s : State} {tag : TokenTag} {m : List Byte} (h : tag.isFor m) (hlen : 32 ≤ m.length) :
    evaluate s m = .error (.lexError 0) :=
  evaluate_of_tokenize_error (tokenize_long_lexeme h hlen)

/-- A literal or a register reference alone is balanced and keeps its tag, so it evaluates as a terminal. -/
theorem evaluate_terminal {s : State} {tag : TokenTag} {m : List Byte} (htag : tag ∈ [.hex, .dec, .reg])
    (h : tag.isFor m) (hlen : m.length ≤ 31) : evaluate s m = terminal s ⟨tag, m⟩ := by
  rw [evaluate, tokenize_lexeme h hlen]
  fin_cases htag <;> rfl

theorem terminal_hex (s : State) (m : List Byte) :
    terminal s ⟨.hex, bytesOf "0x" ++ m⟩ = .ok (BitVec.ofNat 32 (digitsValue 16 m)) := rfl

theorem terminal_dec (s : State) (m : List Byte) :
    terminal s ⟨.dec, m⟩ = .ok (BitVec.ofNat 32 (digitsValue 10 m)) := rfl

theorem terminal_reg (s : State) (name : List Byte) :
    terminal s ⟨.reg, bytesOf "$" ++ name⟩ = registerValue s name := rfl

theorem registerValue_pc (s : State) : registerValue s (bytesOf "pc") = .ok s.pc := if_pos rfl

/-- A register's name is not `pc` (R35), so its value is the register's. -/
theorem registerValue_of_some (s : State) {name : List Byte} {r : Reg} (h : registerIndexByName name = some r) :
    registerValue s name = .ok (s.getReg r) := by
  have hpc : name ≠ bytesOf "pc" := by
    rintro rfl
    rw [registerNamesAreTheListedOnes.2] at h
    nomatch h
  rw [registerValue, if_neg hpc, h]

theorem registerValue_of_none (s : State) {name : List Byte} (hpc : name ≠ bytesOf "pc")
    (h : registerIndexByName name = none) : registerValue s name = .error .unknownRegister := by
  rw [registerValue, if_neg hpc, h]

/-- A single token that is no literal and no register is MalformedSpan (R257). -/
theorem evalSpan_single_of_not_terminal (s : State) {t : Token} (n : Nat) (h : t.tag ∉ [.hex, .dec, .reg]) :
    evalSpan s n [t] = .error .malformedSpan := by
  cases n with
  | zero => rfl
  | succ n =>
    obtain ⟨tag, text⟩ := t
    cases tag with
    | hex | dec | reg => exact absurd h (by simp)
    | _ => rfl

/-- Settles O53: a numeral or a name is the lexeme of its tag, so it is one token or too long, and its terminal's
value is that of the digits or the register. -/
theorem terminalsAreOneTokenAndTheirValue : Obligations.TerminalsAreOneTokenAndTheirValue := by
  intro s
  refine ⟨fun digits m h => ?hex, fun digits m h => ?dec, fun name h => ?reg,
    fun t n => evalSpan_single_of_not_terminal s n⟩
  case hex =>
    have hlength : (bytesOf "0x" ++ m).length = 2 + m.length := List.length_append
    refine ⟨fun hlen => ?_, fun hlen => evaluate_long_lexeme h.isFor_hex (by omega)⟩
    have hshort : (bytesOf "0x" ++ m).length ≤ 31 := by omega
    refine ⟨tokenize_lexeme h.isFor_hex hshort, ?_⟩
    rw [evaluate_terminal (by decide) h.isFor_hex hshort, terminal_hex, digitsValue_eq_ofDigits h]
  case dec =>
    refine ⟨fun hlen => ⟨tokenize_lexeme h.isFor_dec hlen, ?_⟩, evaluate_long_lexeme h.isFor_dec⟩
    rw [evaluate_terminal (by decide) h.isFor_dec hlen, terminal_dec, digitsValue_eq_ofDigits h]
  case reg =>
    have hfor : TokenTag.reg.isFor (bytesOf "$" ++ name) := ⟨name, h, rfl⟩
    have hlength : (bytesOf "$" ++ name).length = 1 + name.length := List.length_append
    refine ⟨fun hlen => ?_, fun hlen => evaluate_long_lexeme hfor (by omega)⟩
    have hshort : (bytesOf "$" ++ name).length ≤ 31 := by omega
    have heval : evaluate s (bytesOf "$" ++ name) = registerValue s name := by
      rw [evaluate_terminal (by decide) hfor hshort, terminal_reg]
    refine ⟨tokenize_lexeme hfor hshort, ?_, ?_, ?_⟩ <;> rw [heval]
    · rintro rfl
      exact registerValue_pc s
    · exact fun r => registerValue_of_some s
    · exact registerValue_of_none s

end Sys2Proof.Machine
end

section
/-! PROOFS. Proofs/Evaluator.lean: the evaluator of spec/47_expr_evaluator.md: its operators, what it reads of the
state, the failures before the recursion, and what a span is split into. -/

namespace Sys2Proof.Machine

/-! ### Operators (R264 to R273) -/

theorem add_eq_ofInt (a b : Word) : a + b = BitVec.ofInt 32 (a.toInt + b.toInt) := by
  rw [BitVec.ofInt_add, BitVec.ofInt_toInt, BitVec.ofInt_toInt]

theorem sub_eq_ofInt (a b : Word) : a - b = BitVec.ofInt 32 (a.toInt - b.toInt) := by
  apply BitVec.eq_of_toInt_eq
  rw [BitVec.toInt_sub, BitVec.toInt_ofInt]

theorem mul_eq_ofInt (a b : Word) : a * b = BitVec.ofInt 32 (a.toInt * b.toInt) := by
  rw [BitVec.ofInt_mul, BitVec.ofInt_toInt, BitVec.ofInt_toInt]

theorem divide_zero (a : Word) : divide a 0#32 = .error .divisionByZero := if_pos rfl

/-- The quotient is the signed division of words, which wraps in the one case out of range (R267). -/
theorem divide_of_ne_zero (a : Word) {b : Word} (hb : b ≠ 0#32) : divide a b = .ok (a.sdiv b) := by
  have hsdiv : BitVec.ofInt 32 (a.toInt.tdiv b.toInt) = a.sdiv b := by
    apply BitVec.eq_of_toInt_eq
    rw [BitVec.toInt_ofInt, BitVec.toInt_sdiv]
  rw [divide, if_neg hb, hsdiv]

/-- -2^31 / -1 is the one quotient that is no 32-bit signed value. -/
theorem toInt_sdiv_of_in_range {a b : Word} (h : ¬ (a.toInt = -2147483648 ∧ b.toInt = -1)) :
    (a.sdiv b).toInt = a.toInt.tdiv b.toInt := by
  apply BitVec.toInt_sdiv_of_ne_or_ne
  rw [← not_and_or]
  rintro ⟨rfl, rfl⟩
  exact h ⟨rfl, rfl⟩

theorem toInt_sdiv_of_overflow {a b : Word} (ha : a.toInt = -2147483648) (hb : b.toInt = -1) :
    (a.sdiv b).toInt = -2147483648 := by
  rw [BitVec.toInt_sdiv, ha, hb]
  rfl

theorem truth_eq_ite {c : Bool} {p : Prop} [Decidable p] (h : c = true ↔ p) : truth c = if p then 1 else 0 := by
  rw [truth]
  exact if_congr h rfl rfl

theorem neg_eq_ofInt (a : Word) : 0#32 - a = BitVec.ofInt 32 (-a.toInt) := by
  rw [sub_eq_ofInt, BitVec.toInt_zero, Int.zero_sub]

/-- Settles O57: each operator of words is the integer operator modulo 2^32, and a truth value is its condition's. -/
theorem evaluatorArithmetic : Obligations.EvaluatorArithmetic := by
  intro a b
  refine ⟨congrArg _ (add_eq_ofInt a b), congrArg _ (sub_eq_ofInt a b), congrArg _ (mul_eq_ofInt a b), ?zero, ?nonzero,
    congrArg _ (truth_eq_ite (by simp)), congrArg _ (truth_eq_ite (by simp)), congrArg _ (truth_eq_ite (by simp)),
    congrArg _ (truth_eq_ite (by simp)), fun s => congrArg _ (neg_eq_ofInt a)⟩
  case zero =>
    rintro rfl
    exact divide_zero a
  case nonzero =>
    intro hb
    exact ⟨a.sdiv b, divide_of_ne_zero a hb, toInt_sdiv_of_in_range, fun h => toInt_sdiv_of_overflow h.1 h.2⟩

/-- Settles O58: the read of the four bytes, or its failure. -/
theorem dereferenceReadsAWord : Obligations.DereferenceReadsAWord := by
  intro s a
  constructor <;> intro hr <;> rw [applyUnary, dereference]
  · rw [memRead_of_inRegion (w := .word) hr]
    exact congrArg _ (Memory.readBytes_word s.mem a.toNat)
  · rw [memRead_of_not_inRegion (w := .word) hr]

/-! ### What the evaluator reads of the state (R275) -/

theorem terminal_congr {s t : State} (hregs : SameRegisters s t) (hpc : t.pc = s.pc) (x : Token) :
    terminal t x = terminal s x := by
  have hreg (name : List Byte) : registerValue t name = registerValue s name := by
    simp only [registerValue, hpc, hregs _]
  simp only [terminal, hreg]

theorem applyUnary_congr {s t : State} (hread : ∀ a, t.memRead a .word = s.memRead a .word) (op : TokenTag) (v : Word) :
    applyUnary t op v = applyUnary s op v := by
  simp only [applyUnary, dereference, hread]

/-- The recursion reads the state at its terminals and its unary operators alone. -/
theorem evalSpan_congr {s t : State} (hterm : ∀ x, terminal t x = terminal s x)
    (hunary : ∀ op v, applyUnary t op v = applyUnary s op v) (n : Nat) (span : List Token) :
    evalSpan t n span = evalSpan s n span := by
  induction n generalizing span with
  | zero => rfl
  | succ n ih =>
    match span with
    | [] => rfl
    | [x] => exact hterm x
    | x :: y :: toks => simp only [evalSpan, ih, hunary]

/-- A read of the port depends on the region and the bytes, and not on the rest of the parameters (R42). -/
theorem memRead_congr_of_region {s t : State} (hbytes : SameBytes s t) (hbase : t.cfg.memBase = s.cfg.memBase)
    (hsize : t.cfg.memSize = s.cfg.memSize) (a : Word) (w : Width) : t.memRead a w = s.memRead a w := by
  have hrange : inRange t.cfg a w.bytes = inRange s.cfg a w.bytes := by simp only [inRange, hbase, hsize]
  rw [State.memRead, State.memRead, hrange, Memory.readBytes_congr fun k _ => hbytes (a.toNat + k)]

/-- Settles O59: the states agree on the terminals and on the reads of a word, so on the recursion. -/
theorem evaluateReadsOnlyRegistersPcAndMemory : Obligations.EvaluateReadsOnlyRegistersPcAndMemory := by
  intro s t text hregs hpc hbytes hbase hsize
  have hread (a : Word) := memRead_congr_of_region hbytes hbase hsize a .word
  simp only [evaluate, evaluateTokens, evalSpan_congr (terminal_congr hregs hpc) (applyUnary_congr hread)]

/-! ### Failures before the recursion (R252, R253, R277) -/

/-- The failures that only the checks before the recursion give. -/
def EvalFailure.isEarly : EvalFailure → Bool
  | .lexError _ | .unbalancedParens => true
  | .malformedSpan | .unknownRegister | .divisionByZero | .memoryFault => false

theorem terminal_error {s : State} {t : Token} {e : EvalFailure} (h : terminal s t = .error e) : e.isEarly = false := by
  unfold terminal registerValue at h
  repeat' split at h
  all_goals cases h <;> rfl

theorem applyUnary_error {s : State} {op : TokenTag} {v : Word} {e : EvalFailure} (h : applyUnary s op v = .error e) :
    e.isEarly = false := by
  unfold applyUnary dereference at h
  repeat' split at h
  all_goals cases h <;> rfl

theorem applyBinary_error {op : TokenTag} {a b : Word} {e : EvalFailure} (h : applyBinary op a b = .error e) :
    e.isEarly = false := by
  unfold applyBinary divide at h
  repeat' split at h
  all_goals cases h <;> rfl

/-- A failure of the recursion is a malformed span, or that of a terminal or an operator. -/
theorem evalSpan_error {s : State} {n : Nat} {span : List Token} {e : EvalFailure} (h : evalSpan s n span = .error e) :
    e.isEarly = false := by
  induction n generalizing span e with
  | zero => cases h; rfl
  | succ n ih =>
    match span with
    | [] => cases h; rfl
    | [t] => exact terminal_error h
    | t :: u :: toks =>
      rw [evalSpan] at h
      split at h
      · split at h
        · cases h; rfl
        · exact ih h
      · split at h
        · cases h; rfl
        · split at h
          · cases h; exact ih ‹_›
          · exact applyUnary_error h
        · split at h
          · cases h; rfl
          · split at h
            · cases h; rfl
            · split at h
              · cases h; exact ih ‹_›
              · split at h
                · cases h; exact ih ‹_›
                · exact applyBinary_error h

theorem evaluate_of_tokenize {s : State} {text : List Byte} {toks : List Token} (h : tokenize text = .ok toks) :
    evaluate s text = evaluateTokens s toks := by
  rw [evaluate, h]

theorem evaluateTokens_of_unbalanced {s : State} {toks : List Token} (h : balanced toks = false) :
    evaluateTokens s toks = .error .unbalancedParens :=
  if_pos h

theorem evaluateTokens_of_balanced {s : State} {toks : List Token} (h : balanced toks = true) (hne : toks ≠ []) :
    evaluateTokens s toks = evalSpan s toks.length (disambiguate toks) := by
  rw [evaluateTokens, if_neg (by simp [h]), if_neg hne]

theorem evaluateTokens_nil (s : State) : evaluateTokens s [] = .error .malformedSpan := rfl

/-- The one early failure of a token stream is that of the balance check. -/
theorem evaluateTokens_error_early {s : State} {toks : List Token} {e : EvalFailure}
    (h : evaluateTokens s toks = .error e) (he : e.isEarly = true) : balanced toks = false ∧ e = .unbalancedParens := by
  cases hb : balanced toks with
  | false =>
    rw [evaluateTokens_of_unbalanced hb] at h
    cases h
    exact ⟨rfl, rfl⟩
  | true =>
    have hlate : e.isEarly = false := by
      by_cases hne : toks = []
      · subst hne
        cases h
        rfl
      · rw [evaluateTokens_of_balanced hb hne] at h
        exact evalSpan_error h
    rw [hlate] at he
    nomatch he

/-- Settles O60: the tokenizer fails with LexError alone, the balance check with UnbalancedParens, and nothing
after them with either. -/
theorem earlyFailuresInOrder : Obligations.EarlyFailuresInOrder := by
  intro s text
  cases htok : tokenize text with
  | error e =>
    obtain ⟨p, rfl, -⟩ := lexErrorOffsetIsInsideTheText text e htok
    rw [evaluate_of_tokenize_error htok]
    exact ⟨fun q => Iff.of_eq (by simp), by simp, nofun⟩
  | ok toks =>
    rw [evaluate_of_tokenize htok]
    refine ⟨fun p => ⟨fun h => ?_, nofun⟩, ⟨fun h => ?_, ?_⟩, ?_⟩
    · obtain ⟨-, hlex⟩ := evaluateTokens_error_early h rfl
      nomatch hlex
    · exact ⟨toks, rfl, (evaluateTokens_error_early h rfl).1⟩
    · rintro ⟨_, ⟨⟩, hb⟩
      exact evaluateTokens_of_unbalanced hb
    · rintro ⟨⟩
      exact evaluateTokens_nil s

end Sys2Proof.Machine
end

section
/-! PROOFS. Proofs/EvaluatorSpans.lean: the spans of spec/47_expr_evaluator.md: disambiguation, the split at a
binary operator, a leading unary operator, and parentheses around a whole text. -/

namespace Sys2Proof.Machine

/-! ### The split at a binary operator (R255, R261, R263) -/

theorem fullyParenthesized_of_balanced_prefix {l r : List Token} (hl : l ≠ []) (hr : r ≠ [])
    (h : balanced l = true) : fullyParenthesized (l ++ r) = false := by
  rw [fullyParenthesized, show closesOnlyAtEnd 0 (l ++ r) = false from closesOnlyAtEnd_of_balanced_prefix hl hr h,
    Bool.and_false]

/-- Settles O55: the search finds the operator, and each operand's value does not depend on the bound. -/
theorem binarySplitFollowsPrecedence : Obligations.BinarySplitFollowsPrecedence := by
  intro s l r op n hl hr hbl hbr hop hleft hright hn
  obtain ⟨m, rfl⟩ : ∃ m, n = m + 1 := ⟨n - 1, by omega⟩
  rw [evalSpan_binary s m hl hr (fullyParenthesized_of_balanced_prefix hl (List.cons_ne_nil op r) hbl)
      (dominant_split hbl hbr hop hleft hright),
    evalSpan_bound s (n := m) (m := m + 1) (span := l) (by omega) (by omega),
    evalSpan_bound s (n := m) (m := m + 1) (span := r) (by omega) (by omega)]

/-! ### Which tokens are unary (R254) -/

theorem unaryAfter_some_iff (t : TokenTag) : unaryAfter (some t) = true ↔ t ∈ unaryContext := by
  cases t <;> decide

theorem reclassify_of_not_unaryAfter {before : Option TokenTag} (h : unaryAfter before = false) (t : TokenTag) :
    reclassify before t = t :=
  if_neg (by simp [h])

theorem reclassify_minus {before : Option TokenTag} (h : unaryAfter before = true) : reclassify before .minus = .neg :=
  if_pos h

theorem reclassify_star {before : Option TokenTag} (h : unaryAfter before = true) : reclassify before .star = .deref :=
  if_pos h

theorem reclassify_other (before : Option TokenTag) {t : TokenTag} (h : ¬ (t = .minus ∨ t = .star)) :
    reclassify before t = t := by
  cases t with
  | minus | star => simp at h
  | _ => exact ite_self _

/-- All that reclassification can do to a tag. -/
theorem reclassify_cases (before : Option TokenTag) (t : TokenTag) :
    reclassify before t = t ∨ (t = .minus ∧ reclassify before t = .neg) ∨ (t = .star ∧ reclassify before t = .deref) := by
  cases hun : unaryAfter before with
  | false => exact .inl (reclassify_of_not_unaryAfter hun t)
  | true =>
    by_cases ht : t = .minus ∨ t = .star
    · rcases ht with rfl | rfl
      · exact .inr (.inl ⟨rfl, reclassify_minus hun⟩)
      · exact .inr (.inr ⟨rfl, reclassify_star hun⟩)
    · exact .inl (reclassify_other before ht)

/-- A `-` or a `*` stays an operator when it becomes a unary one, so the place after it stays a unary place. -/
theorem unaryAfter_reclassify (before : Option TokenTag) (t : TokenTag) :
    unaryAfter (some (reclassify before t)) = unaryAfter (some t) := by
  rcases reclassify_cases before t with h | ⟨rfl, h⟩ | ⟨rfl, h⟩ <;> rw [h] <;> rfl

/-- The tag a token is reclassified by: the one before it, as already reclassified (R254). -/
def tagBefore (toks : List Token) (k : Nat) : Option TokenTag :=
  if k = 0 then none else (disambiguate toks)[k - 1]?.map (·.tag)

theorem disambiguate_getElem? {toks : List Token} {k : Nat} {t : Token} (h : toks[k]? = some t) :
    (disambiguate toks)[k]? = some ⟨reclassify (tagBefore toks k) t.tag, t.text⟩ :=
  disambiguateFrom_getElem? none toks h

theorem unaryAfter_tagBefore_iff {toks : List Token} {k : Nat} (hk : k < toks.length) :
    unaryAfter (tagBefore toks k) = true ↔ unaryPlace toks k := by
  cases k with
  | zero => exact iff_of_true rfl (.inl rfl)
  | succ k =>
    have hp : toks[k]? = some toks[k] := List.getElem?_eq_getElem (by omega)
    rw [tagBefore, if_neg k.succ_ne_zero, Nat.add_sub_cancel, disambiguate_getElem? hp, Option.map_some,
      unaryAfter_reclassify, unaryAfter_some_iff, unaryPlace, Nat.add_sub_cancel, hp]
    simp

/-! ### A leading unary operator (R262) -/

/-- With no binary operator outside the parentheses of the rest, the search ends at the unary one. -/
theorem dominant_unary {op : Token} {r : List Token} (hop : op.tag.isUnary = true) (hr : balanced r = true)
    (h0 : topPrec 0 r = 0) : dominant (op :: r) = .unary := by
  have hnone : dominantBinary (op :: r).reverse none 0 0 = none := by
    rw [List.reverse_cons, dominantBinary_none hr h0]
    cases ht : op.tag <;> simp_all [dominantBinary, TokenTag.isUnary, TokenTag.isBinary]
  simp only [dominant, hnone]
  simp [hop]

theorem fullyParenthesized_of_head_ne {op : Token} (r : List Token) (h : op.tag ≠ .lparen) :
    fullyParenthesized (op :: r) = false := by
  simp [fullyParenthesized, h]

/-- Settles O56: a token is reclassified by what is before it, and the recursion on a leading unary operator is
one level of it. -/
theorem unaryAppliesToTheRest : Obligations.UnaryAppliesToTheRest := by
  refine ⟨fun toks => ⟨length_disambiguateFrom none toks, fun k t hk => ?_⟩, fun s text toks htok hne hb => ?_,
    fun s op r n hop hne hb h0 hn => ?_⟩
  · have hplace := unaryAfter_tagBefore_iff (List.getElem?_eq_some_iff.mp hk).1
    refine ⟨_, disambiguate_getElem? hk, rfl, fun hun ht => ?_, fun hun ht => ?_, fun hno => ?_⟩
    · exact ht ▸ reclassify_minus (hplace.mpr hun)
    · exact ht ▸ reclassify_star (hplace.mpr hun)
    · by_cases hun : unaryPlace toks k
      · exact reclassify_other _ fun ht => hno ⟨hun, ht⟩
      · exact reclassify_of_not_unaryAfter (Bool.eq_false_iff.mpr (mt hplace.mp hun)) t.tag
  · rw [evaluate_of_tokenize htok, evaluateTokens_of_balanced hb hne]
  · obtain ⟨m, rfl⟩ : ∃ m, n = m + 1 := ⟨n - 1, by omega⟩
    have hhead : op.tag ≠ .lparen := fun ht => by simp [ht, TokenTag.isUnary] at hop
    rw [evalSpan_bound s (n := m + 1) (m := m) (span := r) (by omega) (by omega)]
    exact evalSpan_unary s m hne (fullyParenthesized_of_head_ne r hhead) (dominant_unary hop hb h0)

/-! ### A text with `)` after it (R223) -/

/-- `)` lengthens no match of a class it is not in. -/
theorem greedyLen_concat {cls : Byte → Bool} {b : Byte} (hb : cls b = false) (t : List Byte) :
    greedyLen cls (t ++ [b]) = greedyLen cls t := by
  induction t with
  | nil => simp [greedyLen, hb]
  | cons c t ih =>
    by_cases hc : cls c = true
    · simpa [greedyLen, hc] using ih
    · simp [greedyLen, hc]

theorem isPrefixOf_concat {p t : List Byte} {b : Byte} (h : p ≠ t ++ [b]) :
    p.isPrefixOf (t ++ [b]) = p.isPrefixOf t := by
  rw [Bool.eq_iff_iff, List.isPrefixOf_iff_prefix, List.isPrefixOf_iff_prefix, List.prefix_concat_iff, or_iff_right h]

theorem literalLen_concat {p t : List Byte} {b : Byte} (h : p ≠ t ++ [b]) :
    literalLen p (t ++ [b]) = literalLen p t := by
  rw [literalLen, literalLen, isPrefixOf_concat h]

theorem prefixedLen_concat {p t : List Byte} {cls : Byte → Bool} {b : Byte} (hb : cls b = false) (h : p ≠ t ++ [b]) :
    prefixedLen p cls (t ++ [b]) = prefixedLen p cls t := by
  rw [prefixedLen, prefixedLen, isPrefixOf_concat h]
  by_cases hp : p.isPrefixOf t = true
  · rw [List.drop_append_of_le_length (List.isPrefixOf_iff_prefix.mp hp).length_le, greedyLen_concat hb]
  · simp [hp]

/-- No pattern longer than a byte ends in `)`. -/
theorem ne_concat_rparen {p t : List Byte} (hp : p.getLast? = some 0x29#8 → p.length = 1) (ht : t ≠ []) :
    p ≠ t ++ [0x29#8] := by
  rintro rfl
  have hlen := hp (by simp)
  have hpos := List.length_pos_iff.mpr ht
  rw [List.length_append, List.length_singleton] at hlen
  omega

/-- At a text that is not empty, a `)` behind the text changes the match of no rule. -/
theorem matchLen_concat_rparen {t : List Byte} (ht : t ≠ []) (r : LexRule) :
    r.matchLen (t ++ [0x29#8]) = r.matchLen t := by
  cases r with
  | whitespace | dec => exact greedyLen_concat rfl t
  | hex | reg => exact prefixedLen_concat rfl (ne_concat_rparen (by decide) ht)
  | _ => exact literalLen_concat (ne_concat_rparen (by decide) ht)

theorem firstRule_concat_rparen {t : List Byte} (ht : t ≠ []) : firstRule (t ++ [0x29#8]) = firstRule t := by
  simp only [firstRule, matchLen_concat_rparen ht]

/-- The tokens of `(` and `)`. -/
def lparenToken : Token := ⟨.lparen, bytesOf "("⟩
def rparenToken : Token := ⟨.rparen, bytesOf ")"⟩

/-- The scan of a text with a `)` behind it: the tokens of the text, and `)`. -/
theorem scan_concat_rparen {t : List Byte} {pos skip : Nat} {toks : List Token} (hskip : skip ≤ t.length)
    (h : scan t pos skip = .ok toks) : scan (t ++ [0x29#8]) pos skip = .ok (toks ++ [rparenToken]) := by
  induction t generalizing pos skip toks with
  | nil =>
    obtain rfl : skip = 0 := Nat.le_zero.mp hskip
    cases h
    exact scan_offset (pos := 0) (by decide) pos
  | cons c t ih =>
    cases skip with
    | succ skip => exact ih (Nat.le_of_succ_le_succ hskip) h
    | zero =>
      have hne : c :: t ≠ [] := List.cons_ne_nil c t
      obtain ⟨r, hr⟩ := firstRule_of_scan h
      have hr' := (firstRule_concat_rparen hne).trans hr
      have hlen := matchLen_concat_rparen hne r
      have hle := matchLen_le (c :: t) r
      have hskip' : r.matchLen (c :: t) - 1 ≤ t.length := by rw [List.length_cons] at hle; omega
      have htake := List.take_append_of_le_length (l₂ := [0x29#8]) hle
      rw [List.cons_append] at hr' hlen htake ⊢
      rw [scan, hr] at h
      rw [scan, hr']
      cases he : r.emits with
      | none =>
        simp only [he, hlen] at h ⊢
        exact ih hskip' h
      | some tag =>
        simp only [he, hlen, htake] at h ⊢
        split at h
        · nomatch h
        · rename_i hshort
          split at h
          · nomatch h
          · rename_i hs
            cases h
            rw [if_neg hshort, ih hskip' hs]
            rfl

theorem tokenize_parenthesized {text : List Byte} {toks : List Token} (h : tokenize text = .ok toks) :
    tokenize (bytesOf "(" ++ text ++ bytesOf ")") = .ok (lparenToken :: (toks ++ [rparenToken])) := by
  have hclosed : tokenize (text ++ bytesOf ")") = .ok (toks ++ [rparenToken]) := scan_concat_rparen (Nat.zero_le _) h
  rw [List.append_assoc]
  exact tokenize_lexeme_append (tag := .lparen) rfl (by decide) (fun b _ => by simp [TokenTag.moreChars, bytesOf]) hclosed

/-! ### A stream in parentheses (R252, R254, R260) -/

/-- What one token does to the balance walk: `balancedFrom_cons` both ways. -/
theorem balancedFrom_cons_iff {d : Nat} {t : Token} {toks : List Token} :
    balancedFrom d (t :: toks) = true ↔ ∃ d' : Nat, (d' : Int) = d + t.tag.depthChange ∧ balancedFrom d' toks = true := by
  refine ⟨balancedFrom_cons, ?_⟩
  rintro ⟨d', hd, h⟩
  cases ht : t.tag with
  | lparen =>
    obtain rfl : d' = d + 1 := by simp only [ht, TokenTag.depthChange] at hd; omega
    simpa [balancedFrom, ht] using h
  | rparen =>
    obtain rfl : d = d' + 1 := by simp only [ht, TokenTag.depthChange] at hd; omega
    simpa [balancedFrom, ht] using h
  | _ =>
    obtain rfl : d' = d := by simp only [ht, TokenTag.depthChange] at hd; omega
    simpa [balancedFrom, ht] using h

theorem depthChange_reclassify (before : Option TokenTag) (t : TokenTag) :
    (reclassify before t).depthChange = t.depthChange := by
  rcases reclassify_cases before t with h | ⟨rfl, h⟩ | ⟨rfl, h⟩ <;> rw [h] <;> rfl

/-- Disambiguation keeps every parenthesis where it is. -/
theorem balancedFrom_disambiguateFrom {d : Nat} {toks : List Token} (before : Option TokenTag)
    (h : balancedFrom d toks = true) : balancedFrom d (disambiguateFrom before toks) = true := by
  induction toks generalizing d before with
  | nil => exact h
  | cons t toks ih =>
    obtain ⟨d', hd, h'⟩ := balancedFrom_cons h
    exact balancedFrom_cons_iff.mpr ⟨d', by rw [depthChange_reclassify, hd], ih _ h'⟩

/-- One level deeper the walk is the same, and a `)` behind it brings it back. -/
theorem balancedFrom_succ_concat_rparen {d : Nat} {toks : List Token} (h : balancedFrom d toks = true) :
    balancedFrom (d + 1) (toks ++ [rparenToken]) = true := by
  induction toks generalizing d with
  | nil => simpa [balancedFrom, rparenToken] using h
  | cons t toks ih =>
    obtain ⟨d', hd, h'⟩ := balancedFrom_cons h
    exact balancedFrom_cons_iff.mpr ⟨d' + 1, by push_cast; omega, ih h'⟩

theorem closesOnlyAtEnd_succ_concat_rparen {d : Nat} {toks : List Token} (h : balancedFrom d toks = true) :
    closesOnlyAtEnd (d + 1) (toks ++ [rparenToken]) = true := by
  induction toks generalizing d with
  | nil =>
    obtain rfl : d = 0 := by simpa [balancedFrom] using h
    rfl
  | cons t toks ih =>
    obtain ⟨d', hd, h'⟩ := balancedFrom_cons h
    rw [List.cons_append, closesOnlyAtEnd, show (d : Int) + 1 + t.tag.depthChange = d' + 1 by omega,
      if_neg (by omega), if_neg (by omega), ih h']

theorem fullyParenthesized_parenthesized {toks : List Token} (h : balanced toks = true) :
    fullyParenthesized (lparenToken :: (toks ++ [rparenToken])) = true := by
  have hclose : closesOnlyAtEnd 0 (lparenToken :: (toks ++ [rparenToken])) = true := by
    rw [closesOnlyAtEnd, if_neg (by decide), if_neg (by simp [lparenToken, TokenTag.depthChange])]
    exact closesOnlyAtEnd_succ_concat_rparen h
  rw [fullyParenthesized, hclose]
  simp [lparenToken, rparenToken, List.getLast?_cons]

theorem interior_parenthesized (toks : List Token) : interior (lparenToken :: (toks ++ [rparenToken])) = toks := by
  rw [interior, List.tail_cons, List.dropLast_concat]

theorem disambiguateFrom_concat_rparen (before : Option TokenTag) (toks : List Token) :
    disambiguateFrom before (toks ++ [rparenToken]) = disambiguateFrom before toks ++ [rparenToken] := by
  induction toks generalizing before with
  | nil => simp [disambiguateFrom, rparenToken, reclassify_other]
  | cons t toks ih => rw [List.cons_append, disambiguateFrom, ih, disambiguateFrom, List.cons_append]

/-- After `(` a token is read as at the start. -/
theorem disambiguateFrom_lparen (toks : List Token) : disambiguateFrom (some .lparen) toks = disambiguate toks := by
  cases toks <;> rfl

theorem disambiguate_parenthesized (toks : List Token) :
    disambiguate (lparenToken :: (toks ++ [rparenToken])) = lparenToken :: (disambiguate toks ++ [rparenToken]) := by
  rw [disambiguate, disambiguateFrom, disambiguateFrom_concat_rparen]
  exact congrArg (fun rest => lparenToken :: (rest ++ [rparenToken])) (disambiguateFrom_lparen toks)

/-- A balanced span in parentheses is evaluated as the span alone (R256, R260). -/
theorem evalSpan_parenthesized (s : State) {n : Nat} {span : List Token} (hne : span ≠ []) (hb : balanced span = true) :
    evalSpan s (n + 1) (lparenToken :: (span ++ [rparenToken])) = evalSpan s n span := by
  rw [evalSpan_parens s n (by simp) (fullyParenthesized_parenthesized hb), interior_parenthesized, if_neg hne]

/-- Settles O54: the tokens are those of the text between `(` and `)`, disambiguated alike, and the recursion
takes the parentheses off. -/
theorem parenthesesChangeNothing : Obligations.ParenthesesChangeNothing := by
  intro s text toks htok hne hb
  have hne' : disambiguate toks ≠ [] := by
    rw [← List.length_pos_iff, disambiguate, length_disambiguateFrom]
    exact List.length_pos_iff.mpr hne
  have hparens : balanced (lparenToken :: (toks ++ [rparenToken])) = true := balancedFrom_succ_concat_rparen hb
  have hlength : (disambiguate toks).length = toks.length := length_disambiguateFrom none toks
  rw [evaluate_of_tokenize (tokenize_parenthesized htok), evaluate_of_tokenize htok,
    evaluateTokens_of_balanced hparens (List.cons_ne_nil _ _), evaluateTokens_of_balanced hb hne,
    disambiguate_parenthesized, List.length_cons,
    evalSpan_parenthesized s hne' (balancedFrom_disambiguateFrom none hb)]
  exact evalSpan_bound s (by simp [hlength]) hlength.le

end Sys2Proof.Machine
end

section
/-! PROOFS. Proofs/Exceptions.lean: the events of spec/60_exceptions.md: every instruction and every step answers,
a step that stops the engine is precise, and which event each instruction can raise. -/

namespace Sys2Proof.Machine

/-! ### Answers and precision (R301, R308) -/

/-- Settles O37: every instruction's operation answers, and a step is one of them, a trap, or nothing. -/
theorem everyStepAnswersNext : Obligations.EveryStepAnswersNext := ⟨exec_answers, step_answers⟩

/-- Settles O41: a step that leaves RUNNING is a halt or a trap and nothing more, and a stopped engine stays. -/
theorem stoppingStepIsPrecise : Obligations.StoppingStepIsPrecise := by
  intro s t hrunning hno h
  have hstays : t.status ≠ .running → step t = .next t := step_of_stopped
  rcases step_report h hno with ⟨hstatus, -, -⟩ | ⟨-, rfl | ⟨c, v, rfl⟩⟩
  · have hrun : t.status = .running := hstatus.trans hrunning
    exact ⟨fun c hc => absurd (hrun.symm.trans hc) nofun, fun hh => absurd (hrun.symm.trans hh) nofun, hstays⟩
  · exact ⟨nofun, fun _ => halt_effect s _, hstays⟩
  · refine ⟨fun c' hc => ?_, nofun, hstays⟩
    obtain rfl : c = c' := RunStatus.trapped.inj hc
    exact raise_effect s c v

/-! ### The event of each instruction (R301, R306, R307) -/

/-- The status in which an instruction, not handed over, can stop the engine. -/
def stopStatus : Instr → Option RunStatus
  | .jal _ _ | .jalr _ _ _ => some (.trapped .misalignedPc)
  | .beq _ _ _ | .bne _ _ _ | .blt _ _ _ | .bge _ _ _ | .bltu _ _ _ | .bgeu _ _ _ => some (.trapped .misalignedPc)
  | .lb _ _ _ | .lh _ _ _ | .lw _ _ _ | .lbu _ _ _ | .lhu _ _ _ => some (.trapped .memFault)
  | .sb _ _ _ | .sh _ _ _ | .sw _ _ _ => some (.trapped .memFault)
  | .ecall => some (.trapped .ecall)
  | .ebreak | .nemuTrap _ _ _ _ _ => some .halted
  | _ => none

theorem completeReg_status {s t : State} {rd : Reg} {v : Word} (h : s.completeReg rd v = .next t) :
    t.status = s.status := by
  cases h
  exact State.setReg_status s rd v

theorem transfer_status {s s' t : State} {target : Word} (h : s.transfer s' target = .next t)
    (hs : s'.status = s.status) : t.status = s.status ∨ t.status = .trapped .misalignedPc := by
  rcases transfer_cases h with ⟨-, rfl⟩ | ⟨-, rfl⟩
  · exact .inl hs
  · exact .inr rfl

theorem branch_status {s t : State} {taken : Bool} {imm : Word} (h : s.branch taken imm = .next t) :
    t.status = s.status ∨ t.status = .trapped .misalignedPc := by
  rcases branch_cases h with ⟨-, -, rfl⟩ | ⟨-, -, rfl⟩ | ⟨-, rfl⟩
  · exact .inl rfl
  · exact .inr rfl
  · exact .inl rfl

theorem load_status {s t : State} {w : Width} {ea : Word} {extend : Word → Word} {rd : Reg}
    (h : s.load w ea extend rd = .next t) : t.status = s.status ∨ t.status = .trapped .memFault := by
  rcases load_cases h with ⟨-, rfl⟩ | ⟨-, rfl⟩
  · exact .inl (State.setReg_status s rd _)
  · exact .inr rfl

theorem store_status {s t : State} {w : Width} {ea v : Word} (h : s.store w ea v = .next t) :
    t.status = s.status ∨ t.status = .trapped .memFault := by
  rcases store_cases h with ⟨-, rfl⟩ | ⟨-, rfl⟩
  · exact .inl rfl
  · exact .inr rfl

/-- Apart from a hand-over, an instruction keeps the status or stops the engine in its own one. -/
theorem exec_status {i : Instr} {s t : State} (h : exec i s = .next t)
    (hno : i = .ecall → s.cfg.ecallHostGiven = false) : t.status = s.status ∨ stopStatus i = some t.status := by
  have stops {st : RunStatus} (hstatus : t.status = s.status ∨ t.status = st) :
      t.status = s.status ∨ some st = some t.status := hstatus.imp_right fun e => congrArg some e.symm
  cases i with
  | jal rd | jalr rd => exact stops (transfer_status h (State.setReg_status s rd _))
  | beq | bne | blt | bge | bltu | bgeu => exact stops (branch_status h)
  | lb | lh | lw | lbu | lhu => exact stops (load_status h)
  | sb | sh | sw => exact stops (store_status h)
  | ecall =>
    rw [exec_ecall_of_no_host (hno rfl)] at h
    cases h
    exact .inr rfl
  | ebreak | nemuTrap =>
    cases h
    exact .inr rfl
  | _ => exact .inl (completeReg_status h)

/-- Settles O47: the one status each instruction can stop the engine in, read off instruction by instruction. -/
theorem eachInstructionRaisesOneKind : Obligations.EachInstructionRaisesOneKind := by
  intro i s t h hrunning hno
  have hstop : t.status ≠ .running → stopStatus i = some t.status := fun hne =>
    (exec_status h hno).resolve_left fun hsame => hne (hsame.trans hrunning)
  constructor
  · intro c hc
    have hi : stopStatus i = some (.trapped c) := hc ▸ hstop (by simp [hc])
    cases i with
    | jal rd imm =>
      cases hi
      exact .inl ⟨rfl, .inl ⟨rd, imm, rfl⟩⟩
    | jalr rd rs1 imm =>
      cases hi
      exact .inl ⟨rfl, .inr (.inl ⟨rd, rs1, imm, rfl⟩)⟩
    | beq rs1 rs2 imm | bne rs1 rs2 imm | blt rs1 rs2 imm | bge rs1 rs2 imm | bltu rs1 rs2 imm | bgeu rs1 rs2 imm =>
      cases hi
      exact .inl ⟨rfl, .inr (.inr ⟨rs1, rs2, imm, by simp⟩)⟩
    | lb rd rs1 imm | lh rd rs1 imm | lw rd rs1 imm | lbu rd rs1 imm | lhu rd rs1 imm =>
      cases hi
      exact .inr (.inl ⟨rfl, .inl ⟨rd, rs1, imm, by simp⟩⟩)
    | sb rs1 rs2 imm | sh rs1 rs2 imm | sw rs1 rs2 imm =>
      cases hi
      exact .inr (.inl ⟨rfl, .inr ⟨rs1, rs2, imm, by simp⟩⟩)
    | ecall =>
      cases hi
      exact .inr (.inr ⟨rfl, rfl⟩)
    | _ => nomatch hi
  · intro hhalt
    have hi : stopStatus i = some .halted := hhalt ▸ hstop (by simp [hhalt])
    cases i with
    | ebreak => exact .inl rfl
    | nemuTrap funct7 rs2 rs1 funct3 rd => exact .inr ⟨funct7, rs2, rs1, funct3, rd, rfl⟩
    | _ => nomatch hi

end Sys2Proof.Machine
end

section
/-! PROOFS. Proofs/Boot.lean: the loading of an image (spec/70_reset_and_hazards.md R332 step 1), byte by byte with
the host's `write`. -/

namespace Sys2Proof.Machine

/-- The bytes of an image at a.., and nothing else. -/
structure ImageEffect (s t : State) (a : Nat) (image : List Byte) : Prop where
  placed : ∀ (k : Nat) (hk : k < image.length), t.byteAt (a + k) = image[k]
  outside : SameBytesOutside s t a image.length
  regs : SameRegisters s t
  pc : t.pc = s.pc
  report : SameReport s t
  model : SameModel s t

theorem ImageEffect.nil (s : State) (a : Nat) : ImageEffect s s a [] :=
  ⟨nofun, fun _ _ => rfl, fun _ => rfl, rfl, .refl s, ⟨rfl, rfl⟩⟩

/-- One byte stored, then the rest of the image behind it. -/
theorem ImageEffect.cons {s t : State} {a : Nat} {b : Byte} {bs : List Byte} (hm : Memory.wf s.mem)
    (h : ImageEffect { s with mem := Memory.set s.mem a b } t (a + 1) bs) : ImageEffect s t a (b :: bs) where
  placed k hk := by
    cases k with
    | zero => exact (h.outside a (.inl a.lt_succ_self)).trans (Memory.get_set_same hm a b)
    | succ k =>
      rw [← Nat.add_assoc, Nat.add_right_comm]
      exact h.placed k (Nat.lt_of_succ_lt_succ hk)
  outside c hc := by
    rw [List.length_cons] at hc
    exact (h.outside c (by omega)).trans (Memory.get_set_other (by omega) b)
  regs := h.regs
  pc := h.pc
  report := h.report
  model := h.model

/-- The host's write of one byte, extended to a word as the call takes it (R43, R105). -/
theorem hostCall_write_byte {s : State} {a : Word} (b : Byte) (h : InRegion s a 1) :
    s.hostCall (.write a 1 (b.setWidth 32)) = .next { s with mem := Memory.set s.mem a.toNat b } := by
  have hbyte : (b.setWidth 32).setWidth 8 = b := by simp
  simp only [State.hostCall, State.write, widthOfBytes, if_true, memWrite_of_inRegion (w := .byte) _ h, Width.bytes,
    Memory.writeBytes, hbyte]

theorem hostCalls_cons_of_next {s t : State} {c : HostCall} (h : s.hostCall c = .next t) (cs : List HostCall) :
    s.hostCalls (c :: cs) = t.hostCalls cs := by
  rw [State.hostCalls, h]

/-- An image that fits in the region is loaded; only after its last byte could the address wrap. -/
theorem hostCalls_imageCalls {s : State} {a : Word} {image : List Byte} (hcfg : s.cfg.wf = true)
    (hm : Memory.wf s.mem) (hr : InRegion s a image.length) :
    ∃ t, s.hostCalls (imageCalls a image) = .next t ∧ ImageEffect s t a.toNat image := by
  induction image generalizing s a with
  | nil => exact ⟨s, rfl, .nil s _⟩
  | cons b bs ih =>
    have hend : a.toNat + (bs.length + 1) ≤ 2 ^ 32 := hr.toNat_add_le hcfg
    obtain ⟨hlo, hhi⟩ := hr
    rw [List.length_cons] at hhi
    have hwrite := hostCall_write_byte b (s := s) (a := a) ⟨hlo, by omega⟩
    rw [imageCalls, hostCalls_cons_of_next hwrite]
    have hm' : Memory.wf (Memory.set s.mem a.toNat b) := Memory.wf_set hm _ b
    cases bs with
    | nil => exact ⟨_, rfl, .cons hm (.nil _ _)⟩
    | cons c cs =>
      have hnext : (a + 1#32).toNat = a.toNat + 1 := toNat_add_ofNat (k := 1) (by rw [List.length_cons] at hend; omega)
      have hr' : InRegion s (a + 1#32) (c :: cs).length := ⟨by omega, by omega⟩
      obtain ⟨t, ht, heffect⟩ := ih (s := { s with mem := Memory.set s.mem a.toNat b }) hcfg hm' hr'
      exact ⟨t, ht, .cons hm (hnext ▸ heffect)⟩

/-- Settles O40: by induction on the image, one write a byte. -/
theorem loadingPlacesTheImage : Obligations.LoadingPlacesTheImage := by
  intro s a image hcfg hm hr
  obtain ⟨t, ht, h⟩ := hostCalls_imageCalls hcfg hm hr
  exact ⟨t, ht, h.placed, h.outside, h.regs, h.pc, h.report, h.model⟩

end Sys2Proof.Machine
end

section
/-! PROOFS. Proofs/DecodeSamples.lean: words of the decode vectors of spec/95_test_vectors.md. -/

namespace Sys2Proof

theorem decode_error_of_no_format {b : Bool} {w : Word} (h : formatOf b (opcodeOf w) = none) :
    decode b w = .error (.illegalInstruction w) := by
  rw [decode, decodeFields, h]

/-- MRET has the format of ECALL and EBREAK, and is neither. -/
theorem decode_mret : decode false 0x30200073#32 = .error (.noDispatchEntry 0x30200073#32) := by decide

/-- Settles O16: each accepted word is its instruction's encoding, the trap word has no format without
TRAP_WORD_6B, and MRET no entry. -/
theorem sampleWordsDecode : Obligations.SampleWordsDecode :=
  ⟨decode_of_encode_eq (by decide) rfl rfl, decode_of_encode_eq (by decide) rfl rfl,
    decode_of_encode_eq (by decide) rfl rfl, decode_of_encode_eq (by decide) rfl rfl,
    decode_of_encode_eq (by decide) rfl rfl, decode_of_encode_eq (by decide) rfl rfl,
    decode_of_encode_eq (by decide) rfl rfl, decode_error_of_no_format rfl, decode_mret⟩

end Sys2Proof
end
